-- ==== Sys2Proof/Word.lean ====
section
/-! DEFINITION. The 32-bit word of the block (R11) and the two-place record the spec writes `x[0]`, `x[1]`. -/

namespace Sys2Proof

/-- A time stamp, a duration or a learned bit time, in microseconds: 32 bits, unsigned (R11). -/
abbrev Time := BitVec 32

/-- The greatest 32-bit time, `2^32 - 1`: the reset value of the running minima (R24). -/
def Time.max : Time := 0xFFFFFFFF#32

/-- Two places of one kind: `x[0]` and `x[1]` (a value per bit value, or per preamble slot). -/
structure Two (α : Type) where
  /-- `x[0]` -/
  at0 : α
  /-- `x[1]` -/
  at1 : α
  deriving DecidableEq, Repr, Inhabited

/-- `x[b]` (R13). -/
def Two.get {α : Type} (x : Two α) (b : Bool) : α := if b then x.at1 else x.at0

/-- `x` after `x[b] <- v` (R13). -/
def Two.set {α : Type} (x : Two α) (b : Bool) (v : α) : Two α :=
  if b then { x with at1 := v } else { x with at0 := v }

/-- `x[0]` and `x[1]` exchanged (R108). -/
def Two.swap {α : Type} (x : Two α) : Two α := { at0 := x.at1, at1 := x.at0 }

end Sys2Proof
end

