-- ==== Sys2Proof/Config.lean ====
section
/-! DEFINITION. The implementation parameters of R9 as plain data, the reference configuration REF, and the
values that no file of the spec settles, each an uninterpreted constant. -/

namespace Sys2Proof

/-- The transmitter configuration, eight fields in the order of their indexes 0 to 7 (R34). -/
structure TxConfig where
  /-- index 0: microseconds low before the first repetition -/
  prePause : Time
  /-- index 1: microseconds low between two repetitions -/
  interPause : Time
  /-- index 2: microseconds low after the last repetition -/
  postPause : Time
  /-- indexes 3 and 4: the configured preamble, high pulse then low pulse -/
  preambleTime : Two Time
  /-- indexes 5 and 6: the pulse length of a 0 bit and of a 1 bit -/
  bitTime : Two Time
  /-- index 7: how many times the message is sent -/
  repeatCount : BitVec 8
  deriving DecidableEq, Repr, Inhabited

/-- A ternary symbol of the V1A decoder (R153). -/
inductive Symbol where
  | zero
  | one
  /-- the source's 'dimmed/unknown' symbol -/
  | two
  deriving DecidableEq, Repr, Inhabited

/-- The five actions the source names for HomeEasyV1A (R154). -/
inductive V1aAction where
  | on
  | off
  | groupOn
  | groupOff
  | unknown
  deriving DecidableEq, Repr, Inhabited

/-- The actions of HomeEasyV2A. The source names on, off and dim and prints no table (R156); any further
name an implementation's table gives is `other` (DESIGN CHOICE, log entry 12, safe). -/
inductive V2aAction where
  | on
  | off
  | dim
  | other (code : Nat)
  deriving DecidableEq, Repr, Inhabited

/-- The parameter `V1A_BITORDER` (R154): the significance order of four binary symbols. -/
inductive BitOrder where
  | msbFirst
  | lsbFirst
  deriving DecidableEq, Repr, Inhabited

/-- Three places of one kind, one for each ternary symbol: a table over a symbol, as plain data. -/
structure Three (α : Type) where
  /-- the entry of symbol 0 -/
  at0 : α
  /-- the entry of symbol 1 -/
  at1 : α
  /-- the entry of symbol 2 -/
  at2 : α
  deriving DecidableEq, Repr, Inhabited

/-- The parameter `V1A_ACTION` (R154): a total table over four ternary symbols, the first symbol outermost. The
source prints none (U19): `unprinted` stands for a table nobody knows, whose entries are the free values
`Config.v1aAction` (DESIGN CHOICE, log entry 12, safe). -/
inductive V1aActionTable where
  | given (table : Three (Three (Three (Three V1aAction))))
  | unprinted
  deriving DecidableEq, Repr, Inhabited

/-- The parameter `V2A_ACTION` (R156): a total table over the group flag (outermost), the state bit and whether
there are 36 nibbles. The source prints none (U19): `unprinted` stands for a table nobody knows, whose entries
are the free values `Config.v2aAction` (DESIGN CHOICE, log entry 12, safe). -/
inductive V2aActionTable where
  | given (table : Two (Two (Two V2aAction)))
  | unprinted
  deriving DecidableEq, Repr, Inhabited

/-- Which last-bit inference the block has. `93_implementation_defined.md` U1 makes INFER a parameter whose
reference instance is R136; a `revision` is any other function (`Config.inferRevision`). -/
inductive InferRule where
  | reference
  | revision (k : Nat)
  deriving DecidableEq, Repr, Inhabited

/-- What a CFG_GET request does with an `idx` of 8 to 15. U9 of `93_implementation_defined.md` rules on this very
request: it is ignored. R72 says of all operations but CFG_SET that `idx` is ignored, which read alone would make the
request a CFG_GET as any other; the model can have that too (DESIGN CHOICE, log entry 26, safe: statements hold of
both). -/
inductive CfgGetIndex where
  /-- `idx` is ignored and the request is a CFG_GET as any other (R71, R72, R189) -/
  | ignored
  /-- the index is reserved and the request changes nothing and returns nothing (`93_implementation_defined.md` U9) -/
  | reserved
  deriving DecidableEq, Repr, Inhabited

/-- The implementation parameters of R9: configuration, fixed for the life of the block (R39). -/
structure Params where
  /-- `DIVISOR` -/
  divisor : Nat
  /-- `MIN_RELATIVE_DURATION` -/
  minRelativeDuration : Nat
  /-- `MIN_PRE_PAUSE_US` -/
  minPrePauseUs : Nat
  /-- `MIN_SAMPLES` -/
  minSamples : Nat
  /-- `MAX_SAMPLES` -/
  maxSamples : Nat
  /-- `MIN_LENGTH` -/
  minLength : Nat
  /-- `MAX_LENGTH` -/
  maxLength : Nat
  /-- `N`, the number of ring slots -/
  n : Nat
  /-- `MIN_ZERO_NUM` -/
  minZeroNum : Nat
  /-- `MAX_ZERO_NUM` -/
  maxZeroNum : Nat
  /-- `MIN_ONE_NUM` -/
  minOneNum : Nat
  /-- `MAX_ONE_NUM` -/
  maxOneNum : Nat
  /-- `MIN_PAUSE_NUM` -/
  minPauseNum : Nat
  /-- `MAX_PAUSE_NUM` -/
  maxPauseNum : Nat
  /-- `PRE_MIN_ZERO_NUM` -/
  preMinZeroNum : Nat
  /-- `PRE_MAX_ZERO_NUM` -/
  preMaxZeroNum : Nat
  /-- `PRE_MIN_ONE_NUM` -/
  preMinOneNum : Nat
  /-- `PRE_MAX_ONE_NUM` -/
  preMaxOneNum : Nat
  /-- `BUF_BITS` -/
  bufBits : Nat
  /-- `TXCFG_RESET` -/
  txcfgReset : TxConfig
  /-- `PRESETS`, a finite map from preset number to configuration (the first pair of a number counts) -/
  presets : List (BitVec 32 × TxConfig)
  /-- `V1A_ACTION` -/
  v1aAction : V1aActionTable
  /-- `V1A_BITORDER` -/
  v1aBitOrder : BitOrder
  /-- `V2A_SYMBOL`, a finite map from nibble value to data bit (the first pair of a nibble counts) -/
  v2aSymbol : List (BitVec 4 × Bool)
  /-- `V2A_ACTION` -/
  v2aAction : V2aActionTable
  /-- the parameter `INFER` of U1 -/
  inferRule : InferRule
  /-- the model's own: U9's ruling on CFG_GET's `idx`, or R72 read alone (DESIGN CHOICE, log entry 26) -/
  cfgGetIndex : CfgGetIndex
  deriving DecidableEq, Repr, Inhabited

/-- TXREF of `95_test_vectors.md`, the value the spec's vectors assume for `TXCFG_RESET`. -/
def TxConfig.ref : TxConfig :=
  { prePause := 4000#32, interPause := 4000#32, postPause := 4000#32
    preambleTime := { at0 := 0#32, at1 := 0#32 }
    bitTime := { at0 := 300#32, at1 := 900#32 }
    repeatCount := 3#8 }

/-- The reference configuration REF of R9; `V1A_BITORDER` as in R155 and `V2A_SYMBOL` as in R159, the instances
the spec's own examples use (DESIGN CHOICE, log entry 2, unsafe as a claim about one firmware: statements
quantify over every `Params`); the action tables, of which the spec has no instance, unprinted (log entry 12);
CFG_GET's `idx` 8 to 15 as U9 rules (log entry 26). -/
def Params.ref : Params :=
  { divisor := 8, minRelativeDuration := 14, minPrePauseUs := 4000
    minSamples := 6, maxSamples := 16, minLength := 8, maxLength := 160, n := 16
    minZeroNum := 4, maxZeroNum := 11, minOneNum := 6, maxOneNum := 11
    minPauseNum := 6, maxPauseNum := 12
    preMinZeroNum := 3, preMaxZeroNum := 12, preMinOneNum := 5, preMaxOneNum := 13
    bufBits := 163
    txcfgReset := TxConfig.ref
    presets := []
    v1aAction := .unprinted
    v1aBitOrder := .msbFirst
    v2aSymbol := [(0x1#4, false), (0x4#4, true)]
    v2aAction := .unprinted
    inferRule := .reference
    cfgGetIndex := .reserved }

/-- The 32-bit average of a class whose exact quotient `total / count` is `2^32` or more. R132 says the quotient
fits because every addend did; it states no value for a Code made some other way whose statistics do not
fit. A free value of the operands (DESIGN CHOICE, log entry 9, safe). -/
opaque Config.averageTooWide (total count : Nat) : Time

/-- The last-bit inference of a source revision other than R136's (U1: 'multiple source revisions compute it
differently'): any function of the bits (log entry 10, safe). -/
opaque Config.inferRevision (k : Nat) (bits : List Bool) : Bool

/-- The entries of an unprinted `V1A_ACTION` table (R154), one for every choice of the last four symbols
(log entry 12, safe). -/
opaque Config.v1aAction (a b c d : Symbol) : V1aAction

/-- The entries of an unprinted `V2A_ACTION` table (R156) (log entry 12, safe). -/
opaque Config.v2aAction (groupFlag stateBit hasDim : Bool) : V2aAction

end Sys2Proof
end

