-- ==== Sys2Proof/Syntax.lean ====
section
/-! DEFINITION. The Code record (R30) and the ten operations of R71, one constructor per row of
`spec/opcode_table.json`. -/

namespace Sys2Proof

/-- A Code (R30). `bits` is the meaningful sequence `bits[0..length-1]`, the first-sampled bit first (R12); the
buffer places at and beyond `length` are not kept, since no rule reads one (DEDUCED, log entry 4, safe). -/
structure Code where
  /-- `bits[0..length-1]` -/
  bits : List Bool
  /-- sum of the durations sampled as bit 0, as bit 1 (unbounded, as R31 allows) -/
  bitTotalTime : Two Nat
  /-- number of durations sampled as bit 0, as bit 1 -/
  bitCount : Two Nat
  /-- the two durations after the pre-pause; (0, 0) for no preamble or a folded one -/
  preambleTime : Two Time
  /-- 1 when the pre-pause was not also the closing pause of the message before (R104) -/
  prePauseStandalone : Bool
  /-- 1 when a recognised pause ended the message -/
  postPausePresent : Bool
  /-- 1 when the record holds a complete message -/
  valid : Bool
  /-- 1 once FINALIZE has run on this value (R131) -/
  finalized : Bool
  /-- average duration of a 0 bit, of a 1 bit; meaningful when finalized -/
  bitTime : Two Time
  deriving DecidableEq, Repr, Inhabited

/-- The length counter of R30: the number of meaningful bits. -/
def Code.length (c : Code) : Nat := c.bits.length

/-- The empty Code (R32). -/
def Code.empty : Code :=
  { bits := []
    bitTotalTime := { at0 := 0, at1 := 0 }
    bitCount := { at0 := 0, at1 := 0 }
    preambleTime := { at0 := 0#32, at1 := 0#32 }
    prePauseStandalone := false
    postPausePresent := false
    valid := false
    finalized := false
    bitTime := { at0 := 0#32, at1 := 0#32 } }

/-- The operations of the block (R70, R71). A Code operand travels as the record itself (R76). -/
inductive Instr where
  /-- `EDGE ts` (R100) -/
  | edge (ts : Time)
  /-- `PUSH c` (R173) -/
  | push (c : Code)
  /-- `POP` (R174) -/
  | pop
  /-- `FINALIZE c` (R130) -/
  | finalize (c : Code)
  /-- `DECODE_V1A c` (R154) -/
  | decodeV1a (c : Code)
  /-- `DECODE_V2A c` (R156) -/
  | decodeV2a (c : Code)
  /-- `TRANSMIT c` (R180) -/
  | transmit (c : Code)
  /-- `CFG_SET idx value` (R188); `idx` is the 4-bit field of R72, 8 to 15 naming no field -/
  | cfgSet (idx : BitVec 4) (value : BitVec 32)
  /-- `CFG_GET` (R189) -/
  | cfgGet
  /-- `PRESET n` (R190) -/
  | preset (n : BitVec 32)
  deriving DecidableEq, Repr

/-- A request as it is presented on the block's ports (R72): the 40-bit REQ word, and what the Code operand port
carries beside it (read only by the operations that take a Code). -/
structure Request where
  /-- `sel[39:36] idx[35:32] data[31:0]` -/
  word : BitVec 40
  /-- the Code operand port (R76) -/
  code : Code
  deriving DecidableEq, Repr

end Sys2Proof
end

