-- ==== Sys2Proof/WellFormed.lean ====
section
/-! DEFINITION. Which configurations are well-formed (R10), and which Codes fit the block's records. -/

namespace Sys2Proof

/-- `DIVISOR = 2^k`, `k >= 0` (R9). -/
def Params.divisorOk (p : Params) : Bool := 2 ^ p.divisor.log2 == p.divisor

/-- The constraints of R9 on the sample counts and message lengths. -/
def Params.lengthsOk (p : Params) : Bool :=
  decide (1 ≤ p.minPrePauseUs) && decide (1 ≤ p.minSamples) && decide (p.minSamples ≤ p.maxSamples)
    && decide (p.maxSamples ≤ p.maxLength) && decide (p.minLength ≤ p.maxLength) && decide (1 ≤ p.maxLength)
    && decide (1 ≤ p.n) && decide (p.maxLength + 3 ≤ p.bufBits)

/-- The constraints of R9 on the numerators. -/
def Params.ratiosOk (p : Params) : Bool :=
  decide (p.divisor < p.minRelativeDuration)
    && decide (p.minZeroNum ≤ p.divisor) && decide (p.divisor ≤ p.maxZeroNum)
    && decide (p.minOneNum ≤ p.divisor) && decide (p.divisor ≤ p.maxOneNum)
    && decide (p.minPauseNum ≤ p.divisor) && decide (p.divisor ≤ p.maxPauseNum)
    && decide (p.preMinZeroNum ≤ p.minZeroNum) && decide (p.maxZeroNum ≤ p.preMaxZeroNum)
    && decide (p.preMinOneNum ≤ p.minOneNum) && decide (p.maxOneNum ≤ p.preMaxOneNum)

/-- A configuration is well-formed when every constraint of R9's table holds (R10). -/
def Params.wellFormed (p : Params) : Bool := p.divisorOk && p.lengthsOk && p.ratiosOk

/-- The Code is one the block's records can hold: `length` is at most `BUF_BITS` (R30). -/
def Code.fits (p : Params) (c : Code) : Bool := decide (c.length ≤ p.bufBits)

/-- An operation is well-formed when its Code operand, if it has one, fits the Code operand port. A reserved
`idx` of CFG_SET is a legal request that is ignored (R78). -/
def Instr.wellFormed (p : Params) : Instr → Bool
  | .edge _ => true
  | .push c => c.fits p
  | .pop => true
  | .finalize c => c.fits p
  | .decodeV1a c => c.fits p
  | .decodeV2a c => c.fits p
  | .transmit c => c.fits p
  | .cfgSet _ _ => true
  | .cfgGet => true
  | .preset _ => true

end Sys2Proof
end

