-- ==== Sys2Proof/Decode.lean ====
section
/-! DEFINITION. The request format REQ of R72: the decoder, total on every 40-bit word, and the encoder. -/

namespace Sys2Proof

/-- Why a request names no operation (R78). -/
inductive Reserved where
  /-- the selector is 0x0 or 0xB to 0xF -/
  | selector (sel : BitVec 4)
  deriving DecidableEq, Repr

/-- `sel`, bits 39:36 of REQ (R72). -/
def reqSel (w : BitVec 40) : BitVec 4 := w.extractLsb' 36 4

/-- `idx`, bits 35:32 of REQ (R72). -/
def reqIdx (w : BitVec 40) : BitVec 4 := w.extractLsb' 32 4

/-- `data`, bits 31:0 of REQ (R72). -/
def reqData (w : BitVec 40) : BitVec 32 := w.extractLsb' 0 32

/-- The REQ word with the three fields of R72. -/
def reqWord (sel idx : BitVec 4) (data : BitVec 32) : BitVec 40 := sel ++ idx ++ data

/-- The operation a request names (R71, R72); fields the row does not use are ignored, and an unassigned
selector is rejected by its value (R78). CFG_GET is named with every `idx`, as R72 has it; a step then
ignores the request of `idx` 8 to 15 (U9), as it does CFG_SET's, but in a configuration that reads R72 alone
(`ignoredRequest`; DESIGN CHOICE, log entry 26, safe). -/
def decode (r : Request) : Except Reserved Instr :=
  match (reqSel r.word).toNat with
  | 0x1 => .ok (.edge (reqData r.word))
  | 0x2 => .ok (.push r.code)
  | 0x3 => .ok .pop
  | 0x4 => .ok (.finalize r.code)
  | 0x5 => .ok (.decodeV1a r.code)
  | 0x6 => .ok (.decodeV2a r.code)
  | 0x7 => .ok (.transmit r.code)
  | 0x8 => .ok (.cfgSet (reqIdx r.word) (reqData r.word))
  | 0x9 => .ok .cfgGet
  | 0xA => .ok (.preset (reqData r.word))
  | _ => .error (.selector (reqSel r.word))

/-- The request with this word and nothing (all zeros) on the Code operand port. -/
def plainRequest (w : BitVec 40) : Request := { word := w, code := Code.empty }

/-- The selector of R71. -/
def Instr.selector : Instr → BitVec 4
  | .edge _ => 0x1#4
  | .push _ => 0x2#4
  | .pop => 0x3#4
  | .finalize _ => 0x4#4
  | .decodeV1a _ => 0x5#4
  | .decodeV2a _ => 0x6#4
  | .transmit _ => 0x7#4
  | .cfgSet _ _ => 0x8#4
  | .cfgGet => 0x9#4
  | .preset _ => 0xA#4

/-- The canonical request for an operation: R71's selector, the operands where R72 places them, every ignored
field 0. -/
def encode : Instr → Request
  | .edge ts => plainRequest (reqWord 0x1#4 0x0#4 ts)
  | .push c => { word := reqWord 0x2#4 0x0#4 0#32, code := c }
  | .pop => plainRequest (reqWord 0x3#4 0x0#4 0#32)
  | .finalize c => { word := reqWord 0x4#4 0x0#4 0#32, code := c }
  | .decodeV1a c => { word := reqWord 0x5#4 0x0#4 0#32, code := c }
  | .decodeV2a c => { word := reqWord 0x6#4 0x0#4 0#32, code := c }
  | .transmit c => { word := reqWord 0x7#4 0x0#4 0#32, code := c }
  | .cfgSet idx value => plainRequest (reqWord 0x8#4 idx value)
  | .cfgGet => plainRequest (reqWord 0x9#4 0x0#4 0#32)
  | .preset n => plainRequest (reqWord 0xA#4 0x0#4 n)

/-- Which bits of REQ the operation reads (R72): the selector, and the fields of its own row. -/
def Instr.usedBits : Instr → BitVec 40
  | .edge _ => 0xF0FFFFFFFF#40
  | .push _ => 0xF000000000#40
  | .pop => 0xF000000000#40
  | .finalize _ => 0xF000000000#40
  | .decodeV1a _ => 0xF000000000#40
  | .decodeV2a _ => 0xF000000000#40
  | .transmit _ => 0xF000000000#40
  | .cfgSet _ _ => 0xFFFFFFFFFF#40
  | .cfgGet => 0xF000000000#40
  | .preset _ => 0xF0FFFFFFFF#40

/-- Whether the operation reads the Code operand port (R71, R76). -/
def Instr.takesCode : Instr → Bool
  | .edge _ => false
  | .push _ => true
  | .pop => false
  | .finalize _ => true
  | .decodeV1a _ => true
  | .decodeV2a _ => true
  | .transmit _ => true
  | .cfgSet _ _ => false
  | .cfgGet => false
  | .preset _ => false

/-- The request a word of the opcode table stands for: `nbits` bits of `w`, every further bit of the 40-bit REQ
and of the Code operand port 0. -/
def tableRequest (nbits w : Nat) : Request := plainRequest (BitVec.ofNat 40 (w % 2 ^ nbits))

/-- The operation the decoder reads from a word of the opcode table (none where it refuses). A REQ has 40 bits;
a longer word is no request. -/
def decodeTableWord (nbits w : Nat) : Option Instr :=
  if 40 < nbits then none
  else
    match decode (tableRequest nbits w) with
    | .ok i => some i
    | .error _ => none

end Sys2Proof
end

