-- ==== Sys2Proof/Machine/State.lean ====
section
/-! DEFINITION. The state of the block (R20 to R38), the environment's inputs and the result port as plain data,
the state after reset (R230), and the reasons a step can stop. -/

namespace Sys2Proof.Machine

/-- The four values of the assembler's `state` register (R25). -/
inductive Phase where
  | awaitPause
  | inPreamble
  | calibrating
  | decoding
  deriving DecidableEq, Repr, Inhabited

/-- The six causes of an abort (R201). -/
inductive AbortCause where
  | calThirdClass
  | calRatio
  | calNoConvergence
  | decInvalidDuration
  | decTooLong
  | decTooShort
  deriving DecidableEq, Repr

/-- The two contexts, the block's only modes (R212). Every operation is one atomic step (R61), so no register
holds the context: between two steps it is the foreground. -/
inductive Context where
  | interrupt
  | foreground
  deriving DecidableEq, Repr

/-- One place of the ring (R28, R33). -/
structure Slot where
  code : Code
  /-- 1 when the slot holds a committed Code the consumer has not taken (R28) -/
  unread : Bool
  deriving DecidableEq, Repr, Inhabited

/-- A slot after reset (R230): the empty Code, not unread. -/
def Slot.empty : Slot := { code := Code.empty, unread := false }

/-- The slot space of R50, index `i` in 0 to `N - 1`. It is the block's whole memory. -/
abbrev Memory := List Slot

/-- The form of the slot space: exactly `N` slots, each Code within its buffer's capacity. -/
def Memory.wf (p : Params) (m : Memory) : Bool :=
  decide (m.length = p.n) && m.all (fun sl => sl.code.fits p)

/-- A segment of the transmit schedule (R183): the pin is written to `level` and held for `duration`. -/
structure Segment where
  level : Bool
  duration : Time
  deriving DecidableEq, Repr, Inhabited

/-- The fields of an applicable V1A decode (R154); `none` is 'invalid'. -/
structure V1aResult where
  group : Option (BitVec 4)
  device : Option (BitVec 4)
  action : V1aAction
  deriving DecidableEq, Repr, Inhabited

/-- The fields of an applicable V2A decode (R156). -/
structure V2aResult where
  group : BitVec 26
  groupFlag : Bool
  stateBit : Bool
  device : BitVec 4
  dimLevel : Option (BitVec 4)
  dimPercent : Option Nat
  action : V2aAction
  deriving DecidableEq, Repr, Inhabited

/-- What an operation hands to the agent that requested it (R80). -/
inductive Result where
  /-- of POP: a Code, or nothing -/
  | popped (c : Option Code)
  /-- of FINALIZE: a Code -/
  | finalized (c : Code)
  /-- of DECODE_V1A; `none` is 'not applicable' -/
  | v1a (r : Option V1aResult)
  /-- of DECODE_V2A; `none` is 'not applicable' -/
  | v2a (r : Option V2aResult)
  /-- of CFG_GET: the eight fields -/
  | config (c : TxConfig)
  deriving DecidableEq, Repr

/-- What the environment does to the block, in the order in which the steps fall (R14, R208). -/
inductive Input where
  /-- a request on the request port, the edge event among them (R72, R214) -/
  | request (r : Request)
  /-- the sequencer reads the clock: at a segment's pin write, then in the busy-wait of its hold (R185) -/
  | clock (now : Time)
  /-- the reset signal (R230) -/
  | reset
  deriving DecidableEq, Repr

/-- The state of the block. -/
structure State where
  /-- the configuration parameters (R9), written by no step (R39) -/
  params : Params
  /-- time stamp of the most recent edge (R20) -/
  lastEdgeTime : Time
  /-- the duration that started the message in progress (R21) -/
  prePauseTime : Time
  /-- learned duration of a 0 bit, 0 for unknown (R22) -/
  zeroTime : Time
  /-- learned duration of a 1 bit, 0 for unknown (R22) -/
  oneTime : Time
  /-- least duration sampled as bit 0, as bit 1 (R24) -/
  sampleMin : Two Time
  /-- greatest duration sampled as bit 0, as bit 1 (R24) -/
  sampleMax : Two Time
  /-- the assembler's state register (R25) -/
  state : Phase
  /-- how many preamble slots are filled, 0 or 1: a 1-bit register (R26) -/
  preambleCount : Bool
  /-- the slots of the ring (R28, R30) -/
  slots : Memory
  /-- the oldest unread slot, when there is one (R29) -/
  readIndex : Nat
  /-- the slot of the message in progress (R29) -/
  writeIndex : Nat
  /-- the transmitter configuration (R34) -/
  cfg : TxConfig
  /-- 1 while a transmission is in progress (R36) -/
  txBusy : Bool
  /-- index of the next segment (R27) -/
  txPhase : Nat
  /-- the segments of the transmission in progress (R37) -/
  txSchedule : List Segment
  /-- the level of the output pin, 1 for carrier on (R37, R214) -/
  txPin : Bool
  /-- `start`, the clock reading at the present segment's pin write (R185); none while no hold is being timed
  (that, and none after reset: DESIGN CHOICE, log entry 11, safe) -/
  txStart : Option Time
  /-- the model's own: what the environment has yet to do, first first (DESIGN CHOICE, log entry 5) -/
  inputs : List Input
  /-- the model's own: what the result port last carried (DESIGN CHOICE, log entry 6) -/
  result : Option Result
  deriving DecidableEq, Repr

/-- The state after reset in a configuration (R230). -/
def State.resetWith (p : Params) : State :=
  { params := p
    lastEdgeTime := 0#32
    prePauseTime := 0#32
    zeroTime := 0#32
    oneTime := 0#32
    sampleMin := { at0 := Time.max, at1 := Time.max }
    sampleMax := { at0 := 0#32, at1 := 0#32 }
    state := .awaitPause
    preambleCount := false
    slots := List.replicate p.n Slot.empty
    readIndex := 0
    writeIndex := 0
    cfg := p.txcfgReset
    txBusy := false
    txPhase := 0
    txSchedule := []
    txPin := false
    txStart := none
    inputs := []
    result := none }

/-- The state after reset in the reference configuration REF (R230, R9). -/
def State.reset : State := State.resetWith Params.ref

/-- Why the machine stops. No state that reset and the steps lead to raises one (R51; Safety.lean). -/
inductive Fault where
  /-- an index register names no slot. Raised by every operation on a slot; safe: R51 says such an index cannot
  be formed, so it stops only states no run reaches -/
  | noSuchSlot (index : Nat)
  /-- `txPhase` is past the end of the schedule while `txBusy` is 1. Raised by the sequencer; safe: R184 clears
  `txBusy` with the last segment -/
  | noSuchSegment (index : Nat)
  deriving DecidableEq, Repr

/-- Why a request has no meaning. -/
inductive Refusal where
  /-- the instruction has no meaning in this model yet. Raised by exec's arms only; safe -/
  | notModelled (mnemonic : String)
  /-- the configuration is not well-formed (R10: 'a model should refuse any other'). Raised by step; safe -/
  | illFormedConfiguration
  /-- the Code operand is longer than the buffer of a Code record (R30). Raised by step; safe: no such record
  exists -/
  | operandTooLong
  /-- a foreground operation while `txBusy` is 1: the request port is not ready (R79). Raised by every foreground
  operation; safe: step makes the request wait instead -/
  | requestPortNotReady
  /-- PUSH while a message is in progress (R173). Raised by PUSH; safe -/
  | pushDuringMessage
  /-- `push_bit` or the fold on a full bit buffer (R52). Raised by EDGE and FINALIZE; safe -/
  | bitBufferFull
  deriving DecidableEq, Repr

end Sys2Proof.Machine
end

