-- ==== Sys2Proof/Machine/Flags.lean ====
section
/-! DEFINITION. The threshold classifier (R90 to R96): range functions, the ratio test, the preamble classes. Every
product is exact in the naturals and every division floors (R13, R96). -/

namespace Sys2Proof.Machine

/-- `scale(x, NUM) = (x * NUM) / DIVISOR` (R13, R75). -/
def scale (p : Params) (x : Time) (num : Nat) : Nat := x.toNat * num / p.divisor

/-- `inRange(d, lo, hi)`, inclusive at both ends (R90). -/
def inRange (d : Time) (lo hi : Nat) : Bool := decide (lo ≤ d.toNat) && decide (d.toNat ≤ hi)

/-- `minZero` (R91). -/
def minZero (p : Params) (zeroTime : Time) : Nat := scale p zeroTime p.minZeroNum

/-- `maxZero` (R91). -/
def maxZero (p : Params) (zeroTime : Time) : Nat := scale p zeroTime p.maxZeroNum

/-- `minOne` (R92). -/
def minOne (p : Params) (oneTime : Time) : Nat := scale p oneTime p.minOneNum

/-- `maxOne` (R92). -/
def maxOne (p : Params) (oneTime : Time) : Nat := scale p oneTime p.maxOneNum

/-- `minPause` (R94). -/
def minPause (p : Params) (prior : Time) : Nat := scale p prior p.minPauseNum

/-- `maxPause` (R94). -/
def maxPause (p : Params) (prior : Time) : Nat := scale p prior p.maxPauseNum

/-- `looksLikeOne(a, b)`: `a` is a one if `b` is a zero (R93). -/
def looksLikeOne (p : Params) (a b : Time) : Bool := decide (scale p b p.minRelativeDuration ≤ a.toNat)

/-- The duration is in the zero range (R91, R112). -/
def isZero (p : Params) (zeroTime d : Time) : Bool := inRange d (minZero p zeroTime) (maxZero p zeroTime)

/-- The duration is in the one range (R92, R112). -/
def isOne (p : Params) (oneTime d : Time) : Bool := inRange d (minOne p oneTime) (maxOne p oneTime)

/-- The duration is a closing pause relative to the opening one (R94, R112). -/
def isPause (p : Params) (prior d : Time) : Bool := inRange d (minPause p prior) (maxPause p prior)

/-- The duration starts a message: `d >= MIN_PRE_PAUSE_US` (R103). -/
def startsMessage (p : Params) (d : Time) : Bool := decide (p.minPrePauseUs ≤ d.toNat)

/-- The five classes of a preamble duration (R95). -/
inductive PreambleClass where
  | short
  | zero
  | medium
  | one
  | long
  deriving DecidableEq, Repr

/-- `pclass(d, z, o)`, tests in the order of R95. -/
def pclass (p : Params) (d z o : Time) : PreambleClass :=
  if d.toNat < scale p z p.preMinZeroNum then .short
  else if d.toNat ≤ scale p z p.preMaxZeroNum then .zero
  else if d.toNat < scale p o p.preMinOneNum then .medium
  else if d.toNat ≤ scale p o p.preMaxOneNum then .one
  else .long

/-- The class as a plain data bit: ZERO is 0, ONE is 1, every other class is none (R133, R134). -/
def PreambleClass.dataBit : PreambleClass → Option Bool
  | .short => none
  | .zero => some false
  | .medium => none
  | .one => some true
  | .long => none

/-- Every duration sampled so far lies in the range of its class (`CONSISTENT`, R110). -/
def consistent (s : State) : Bool :=
  decide (minZero s.params s.zeroTime ≤ s.sampleMin.at0.toNat)
    && decide (s.sampleMax.at0.toNat ≤ maxZero s.params s.zeroTime)
    && decide (minOne s.params s.oneTime ≤ s.sampleMin.at1.toNat)
    && decide (s.sampleMax.at1.toNat ≤ maxOne s.params s.oneTime)

/-- The BitTiming invariant fails: `oneTime` is known and no one relative to `zeroTime` (`CHECK_RATIO`, R107). -/
def ratioBroken (s : State) : Bool :=
  decide (s.oneTime ≠ 0#32) && !looksLikeOne s.params s.oneTime s.zeroTime

end Sys2Proof.Machine
end

