-- ==== Sys2Proof/Machine/Operands.lean ====
section
/-! DEFINITION. Operand forms: the measured duration (R73, R100), exact averages (R106), the bit-buffer primitives
(R52 to R56), configuration fields (R34, R74) and the Code of a console literal (R77). -/

namespace Sys2Proof.Machine

/-- The duration of an edge, `(ts - lastEdgeTime) mod 2^32` (R73, R100). -/
def edgeDuration (lastEdgeTime ts : Time) : Time := ts - lastEdgeTime

/-- The moving average `(time + duration) / 2`: exact 33-bit sum, floor (R106). -/
def movingAverage (time d : Time) : Time := BitVec.ofNat 32 ((time.toNat + d.toNat) / 2)

/-- The lesser of two durations (R109). -/
def leastTime (a b : Time) : Time := if a.toNat ≤ b.toNat then a else b

/-- The greater of two durations (R109). -/
def greatestTime (a b : Time) : Time := if a.toNat ≤ b.toNat then b else a

/-- `push_bit(c, b)` (R52); none when the buffer is full. -/
def pushBit (p : Params) (c : Code) (b : Bool) : Option Code :=
  if c.length < p.bufBits then some { c with bits := c.bits ++ [b] } else none

/-- Inversion of every meaningful bit (R54). -/
def invertBits (c : Code) : Code := { c with bits := c.bits.map (fun b => !b) }

/-- The fold shift (R55): every bit two places later, `b0` and `b1` first; none when the buffer has no two free
places (R52, U12). -/
def foldShift (p : Params) (c : Code) (b0 b1 : Bool) : Option Code :=
  if c.length + 2 ≤ p.bufBits then some { c with bits := b0 :: b1 :: c.bits } else none

/-- `bits[j]`; a place at or beyond `length` reads as 0. -/
def codeBit (c : Code) (j : Nat) : Bool := c.bits.getD j false

/-- The value of a bit string read first bit most significant (R12, R53). -/
def bitsValue (bits : List Bool) : Nat := bits.foldl (fun v b => 2 * v + b.toNat) 0

/-- The number of whole nibbles (R53). -/
def nibbleCount (c : Code) : Nat := c.length / 4

/-- `read_nibble(c, i)` (R53), for `4i + 3 < length`. -/
def readNibble (c : Code) (i : Nat) : BitVec 4 := BitVec.ofNat 4 (bitsValue ((c.bits.drop (4 * i)).take 4))

/-- The whole nibbles in order: the hex digits of the raw code string (R83, R85). -/
def nibbles (c : Code) : List (BitVec 4) := (List.range (nibbleCount c)).map (readNibble c)

/-- The trailing bits, 0 to 3 of them (R53). -/
def trailingBits (c : Code) : List Bool := c.bits.drop (4 * nibbleCount c)

/-- Byte `k` of the packed storage (R56): bit `j` of the sequence is bit `7 - (j mod 8)` of byte `j / 8`. -/
def packedByte (c : Code) (k : Nat) : BitVec 8 :=
  BitVec.ofNat 8 (bitsValue ((List.range 8).map (fun m => codeBit c (8 * k + m))))

/-- The bytes of the packed storage that hold meaningful bits (R56). -/
def packedBytes (c : Code) : List (BitVec 8) := (List.range ((c.length + 7) / 8)).map (packedByte c)

/-- `cfg` after a write of `value` to the field with index `idx` (R34, R74, R188); 8 to 15 name no field. -/
def writeField (cfg : TxConfig) (idx : BitVec 4) (value : BitVec 32) : TxConfig :=
  match idx.toNat with
  | 0 => { cfg with prePause := value }
  | 1 => { cfg with interPause := value }
  | 2 => { cfg with postPause := value }
  | 3 => { cfg with preambleTime := cfg.preambleTime.set false value }
  | 4 => { cfg with preambleTime := cfg.preambleTime.set true value }
  | 5 => { cfg with bitTime := cfg.bitTime.set false value }
  | 6 => { cfg with bitTime := cfg.bitTime.set true value }
  | 7 => { cfg with repeatCount := value.extractLsb' 0 8 }
  | _ => cfg

/-- The eight fields in index order, each as a 32-bit value (R34, R189). -/
def configFields (cfg : TxConfig) : List (BitVec 32) :=
  [cfg.prePause, cfg.interPause, cfg.postPause, cfg.preambleTime.at0, cfg.preambleTime.at1,
    cfg.bitTime.at0, cfg.bitTime.at1, cfg.repeatCount.setWidth 32]

/-- The Code of a console literal: its bits, its preamble or (0, 0), `valid` 1, every other field 0 (R77). -/
def literalCode (bits : List Bool) (preamble : Option (Two Time)) : Code :=
  { Code.empty with bits := bits, preambleTime := preamble.getD Code.empty.preambleTime, valid := true }

end Sys2Proof.Machine
end

