-- ==== Sys2Proof/Machine/Ops.lean ====
section
/-! DEFINITION. The named operations on the slot space and the shared sub-steps: CLAIM and COMMIT (R171, R172),
the message-start check (R103), ABORT (R203), and what every foreground operation asks first (R79). -/

namespace Sys2Proof.Machine

/-- What an operation answers. -/
abbrev Answer := Host.Outcome State Fault Refusal

/-- One sub-step after another; a stop stays a stop. -/
def andThen (a : Answer) (k : State → Answer) : Answer :=
  match a with
  | .next s => k s
  | .fault f => .fault f
  | .refused r => .refused r

/-- Read one slot (R50). -/
def withSlot (s : State) (i : Nat) (k : Slot → Answer) : Answer :=
  match s.slots[i]? with
  | some sl => k sl
  | none => .fault (.noSuchSlot i)

/-- Write one slot (R50). -/
def writeSlot (s : State) (i : Nat) (sl : Slot) : State := { s with slots := s.slots.set i sl }

/-- Read `cur`, the Code of the message in progress (R33). -/
def withCur (s : State) (k : Code → Answer) : Answer := withSlot s s.writeIndex (fun sl => k sl.code)

/-- Write `cur`; the slot's flag is not touched (R33). -/
def modifyCur (s : State) (f : Code → Code) : State :=
  { s with slots := s.slots.modify s.writeIndex (fun sl => { sl with code := f sl.code }) }

/-- The successor of a slot index, `(x + 1) mod N` (R29, R51). -/
def nextIndex (p : Params) (i : Nat) : Nat := (i + 1) % p.n

/-- CLAIM (R171): an unread Code in the write slot, the oldest, is dropped; the slot becomes the empty Code. -/
def claim (s : State) : Answer :=
  withSlot s s.writeIndex fun sl =>
    .next { writeSlot s s.writeIndex Slot.empty with
      readIndex := if sl.unread then nextIndex s.params s.readIndex else s.readIndex }

/-- COMMIT (R172): the write slot's Code becomes valid and unread, and the write index advances. -/
def commit (s : State) : Answer :=
  withSlot s s.writeIndex fun sl =>
    .next { writeSlot s s.writeIndex { code := { sl.code with valid := true }, unread := true } with
      writeIndex := nextIndex s.params s.writeIndex }

/-- The per-message registers at a message start, after CLAIM (R103). -/
def beginMessage (d : Time) (shared : Bool) (s : State) : State :=
  { modifyCur s (fun c => { c with prePauseStandalone := !shared }) with
    prePauseTime := d
    zeroTime := 0#32
    oneTime := 0#32
    sampleMin := { at0 := Time.max, at1 := Time.max }
    sampleMax := { at0 := 0#32, at1 := 0#32 }
    preambleCount := false
    state := .inPreamble }

/-- `START_CHECK(d, shared)` (R103, R104). -/
def startCheck (d : Time) (shared : Bool) (s : State) : Answer :=
  if startsMessage s.params d then andThen (claim s) (fun t => .next (beginMessage d shared t))
  else .next { s with state := .awaitPause }

/-- `ABORT(cause)` (R203): taking the block's one kind of exception. Nothing is saved and nothing is written to
the slot; the state register goes to AWAIT_PAUSE and the same duration is handed to the message-start check,
as a pause shared with the message it closed exactly when the cause is DEC_TOO_SHORT (R204). There is no
return from it: the EDGE step ends with the check (R209). -/
def abort (cause : AbortCause) (d : Time) (s : State) : Answer :=
  startCheck d (decide (cause = .decTooShort)) { s with state := .awaitPause }

/-- A foreground operation is taken only when the request port is ready, `txBusy = 0` (R79, U10). -/
def whenIdle (s : State) (a : Answer) : Answer :=
  if s.txBusy then .refused .requestPortNotReady else a

/-- Hand a result to the requesting agent (R13, R80). -/
def deliver (r : Result) (s : State) : State := { s with result := some r }

/-- The reset signal (R230): every piece of state takes its reset value; the configuration is no state (R39) and
the environment's own future is not the block's. -/
def resetBlock (s : State) : State := { State.resetWith s.params with inputs := s.inputs }

end Sys2Proof.Machine
end

