-- ==== Sys2Proof/Machine/Assembler.lean ====
section
/-! DEFINITION. The edge timer and the bit accumulator (R100 to R118): the operation EDGE. -/

namespace Sys2Proof.Machine

/-- IN_PREAMBLE (R105): the duration goes to the next preamble slot, untested. -/
def preamble (d : Time) (s : State) : Answer :=
  withCur s fun _ =>
    let t := modifyCur s (fun c => { c with preambleTime := c.preambleTime.set s.preambleCount d })
    if s.preambleCount then .next { t with state := .calibrating } else .next { t with preambleCount := true }

/-- `SWAP_ROLES` (R108): the zero estimate becomes the one estimate, the stored bits are inverted, and statistics
and sample extremes of the two classes are exchanged. -/
def swapRoles (s : State) : State :=
  { modifyCur s (fun c =>
      { invertBits c with bitTotalTime := c.bitTotalTime.swap, bitCount := c.bitCount.swap }) with
    oneTime := s.zeroTime
    sampleMin := s.sampleMin.swap
    sampleMax := s.sampleMax.swap }

/-- Classification and learning (R106): the bit and the state with the estimates updated; none where the
duration would make a third class. -/
def learn (d : Time) (s : State) : Option (Bool × State) :=
  if s.zeroTime = 0#32 then some (false, { s with zeroTime := d })
  else if looksLikeOne s.params d s.zeroTime then
    some (true, { s with oneTime := if s.oneTime = 0#32 then d else movingAverage s.oneTime d })
  else if looksLikeOne s.params s.zeroTime d then
    if s.oneTime = 0#32 then some (false, { swapRoles s with zeroTime := d }) else none
  else some (false, { s with zeroTime := movingAverage s.zeroTime d })

/-- The statistics of one more sample (R109). -/
def countSample (b : Bool) (d : Time) (c : Code) : Code :=
  { c with
    bitTotalTime := c.bitTotalTime.set b (c.bitTotalTime.get b + d.toNat)
    bitCount := c.bitCount.set b (c.bitCount.get b + 1) }

/-- `APPEND(b, d)` (R109). -/
def append (b : Bool) (d : Time) (s : State) : Answer :=
  withCur s fun c =>
    match pushBit s.params c b with
    | none => .refused .bitBufferFull
    | some c' =>
      .next { modifyCur s (fun _ => countSample b d c') with
        sampleMin := s.sampleMin.set b (leastTime (s.sampleMin.get b) d)
        sampleMax := s.sampleMax.set b (greatestTime (s.sampleMax.get b) d) }

/-- The calibration has converged (the first condition of R110). -/
def converged (c : Code) (s : State) : Bool :=
  decide (s.params.minSamples ≤ c.length) && decide (s.zeroTime ≠ 0#32) && decide (s.oneTime ≠ 0#32)
    && consistent s

/-- `CONVERGE()` (R110, R111). -/
def converge (d : Time) (s : State) : Answer :=
  withCur s fun c =>
    if converged c s then .next { s with state := .decoding }
    else if s.params.maxSamples ≤ c.length then abort .calNoConvergence d s
    else .next s

/-- CALIBRATING (R106, R107). -/
def calibrate (d : Time) (s : State) : Answer :=
  withCur s fun _ =>
    match learn d s with
    | none => abort .calThirdClass d s
    | some (b, t) => if ratioBroken t then abort .calRatio d t else andThen (append b d t) (converge d)

/-- `COMPLETE(d)` (R113): commit, and the same duration is the candidate pre-pause of the next message. -/
def complete (d : Time) (s : State) : Answer :=
  andThen (commit (modifyCur s (fun c => { c with postPausePresent := true })))
    (fun t => startCheck d true { t with state := .awaitPause })

/-- The data bit a duration is classified as in DECODING, the zero range first (R112). -/
def dataBit (d : Time) (s : State) : Option Bool :=
  if isZero s.params s.zeroTime d then some false
  else if isOne s.params s.oneTime d then some true
  else none

/-- DECODING (R112 to R114), the tests in the order of R207. -/
def decodeDuration (d : Time) (s : State) : Answer :=
  withCur s fun c =>
    if isPause s.params s.prePauseTime d then
      if s.params.minLength ≤ c.length then complete d s else abort .decTooShort d s
    else
      match dataBit d s with
      | none => abort .decInvalidDuration d s
      | some b => if s.params.maxLength ≤ c.length then abort .decTooLong d s else append b d s

/-- `HANDLE(d)` (R101). The second pass is the message-start check that `abort` and `complete` end in. -/
def handle (d : Time) (s : State) : Answer :=
  match s.state with
  | .awaitPause => startCheck d false s
  | .inPreamble => preamble d s
  | .calibrating => calibrate d s
  | .decoding => decodeDuration d s

/-- `EDGE ts` (R100). -/
def execEdge (ts : Time) (s : State) : Answer :=
  handle (edgeDuration s.lastEdgeTime ts) { s with lastEdgeTime := ts }

end Sys2Proof.Machine
end

