-- ==== Sys2Proof/Machine/Configuration.lean ====
section
/-! DEFINITION. The configuration operations CFG_SET, CFG_GET and PRESET (R188 to R190). -/

namespace Sys2Proof.Machine

/-- `CFG_SET idx value` (R188); an `idx` of 8 to 15 is ignored (R78). -/
def execCfgSet (idx : BitVec 4) (value : BitVec 32) (s : State) : Answer :=
  whenIdle s <| .next { s with cfg := writeField s.cfg idx value }

/-- `CFG_GET` (R189). -/
def execCfgGet (s : State) : Answer := whenIdle s <| .next (deliver (.config s.cfg) s)

/-- `PRESET n` (R190); an unknown number is ignored (R78). -/
def execPreset (n : BitVec 32) (s : State) : Answer :=
  whenIdle s <|
    match s.params.presets.lookup n with
    | some cfg => .next { s with cfg := cfg }
    | none => .next s

end Sys2Proof.Machine
end

