-- ==== Sys2Proof/Machine/Decoders.lean ====
section
/-! DEFINITION. The protocol decoders (R150 to R160): the operations DECODE_V1A and DECODE_V2A. -/

namespace Sys2Proof.Machine

/-- A decoder may be applicable: the Code is valid and finalized (R150). -/
def decodable (c : Code) : Bool := c.valid && c.finalized

/-- The ternary symbol of a nibble: 5 is 0, 6 is 1, A is 2, no other is a symbol (R153). -/
def symbolOf (x : BitVec 4) : Option Symbol :=
  match x.toNat with
  | 0x5 => some .zero
  | 0x6 => some .one
  | 0xA => some .two
  | _ => none

/-- The 12 symbols, none where a nibble is no symbol (R153). -/
def v1aSymbols (c : Code) : Option (List Symbol) := (nibbles c).mapM symbolOf

/-- The data bit of a binary symbol; symbol 2 has none (R154). -/
def symbolBit : Symbol → Option Bool
  | .zero => some false
  | .one => some true
  | .two => none

/-- `BIN4` (R154), its bits in the order of `V1A_BITORDER`. -/
def bin4 (order : BitOrder) (bits : List Bool) : BitVec 4 :=
  match order with
  | .msbFirst => BitVec.ofNat 4 (bitsValue bits)
  | .lsbFirst => BitVec.ofNat 4 (bitsValue bits.reverse)

/-- A group or device field of four symbols, invalid if one of them is 2 (R154). -/
def v1aField (order : BitOrder) (symbols : List Symbol) : Option (BitVec 4) :=
  (symbols.mapM symbolBit).map (bin4 order)

/-- The entry of a symbol (R153). -/
def symbolEntry {α : Type} (x : Three α) : Symbol → α
  | .zero => x.at0
  | .one => x.at1
  | .two => x.at2

/-- `V1A_ACTION(a, b, c, d)` (R154) in a configuration: the given table's entry, or the unprinted one's. -/
def v1aActionOf (p : Params) (a b c d : Symbol) : V1aAction :=
  match p.v1aAction with
  | .given table => symbolEntry (symbolEntry (symbolEntry (symbolEntry table a) b) c) d
  | .unprinted => Config.v1aAction a b c d

/-- `V2A_ACTION(groupFlag, stateBit, n = 36)` (R156) in a configuration: the given table's entry, or the
unprinted one's. -/
def v2aActionOf (p : Params) (groupFlag stateBit dims : Bool) : V2aAction :=
  match p.v2aAction with
  | .given table => ((table.get groupFlag).get stateBit).get dims
  | .unprinted => Config.v2aAction groupFlag stateBit dims

/-- The fields of 12 symbols (R154): group, device, action, four symbols each. -/
def v1aFields (p : Params) (symbols : List Symbol) : V1aResult :=
  let last := symbols.drop 8
  { group := v1aField p.v1aBitOrder (symbols.take 4)
    device := v1aField p.v1aBitOrder ((symbols.drop 4).take 4)
    action := v1aActionOf p (last.getD 0 default) (last.getD 1 default) (last.getD 2 default)
      (last.getD 3 default) }

/-- The precondition of DECODE_V1A (R150, R152): 12 whole nibbles and one trailing bit, which is 0. -/
def v1aApplies (c : Code) : Bool :=
  decodable c && decide (c.length = 49) && !codeBit c 48

/-- The value of `DECODE_V1A` (R152 to R154); none is 'not applicable'. -/
def decodeV1a (p : Params) (c : Code) : Option V1aResult :=
  if v1aApplies c then (v1aSymbols c).map (v1aFields p) else none

/-- The precondition of DECODE_V2A (R150, R157): 32 or 36 nibbles, an odd number of trailing bits, the last 0. -/
def v2aApplies (c : Code) : Bool :=
  decodable c && (decide (nibbleCount c = 32) || decide (nibbleCount c = 36))
    && decide (c.length % 4 % 2 = 1) && !codeBit c (c.length - 1)

/-- The data bits of the nibbles, none where `V2A_SYMBOL` is undefined (R158). -/
def v2aBits (p : Params) (c : Code) : Option (List Bool) := (nibbles c).mapM (fun x => p.v2aSymbol.lookup x)

/-- `v`: nibble 0 is the least significant bit (R156). -/
def v2aValue (bits : List Bool) : Nat := bitsValue bits.reverse

/-- The fields of the data bits (R156). Without a dim level there is nothing to scale and `dimPercent` is none; R156's
pseudocode assigns it in the other case only (DEDUCED, log entry 27, unsafe). -/
def v2aFields (p : Params) (bits : List Bool) : V2aResult :=
  let v := v2aValue bits
  let dims := decide (bits.length = 36)
  { group := BitVec.ofNat 26 v
    groupFlag := v.testBit 26
    stateBit := v.testBit 27
    device := BitVec.ofNat 4 (v >>> 28)
    dimLevel := if dims then some (BitVec.ofNat 4 (v >>> 32)) else none
    dimPercent := if dims then some ((v >>> 32) % 16 * 67 / 10) else none
    action := v2aActionOf p (v.testBit 26) (v.testBit 27) dims }

/-- The value of `DECODE_V2A` (R156 to R158); none is 'not applicable'. -/
def decodeV2a (p : Params) (c : Code) : Option V2aResult :=
  if v2aApplies c then (v2aBits p c).map (v2aFields p) else none

/-- `DECODE_V1A c` (R154): the result only (R151). -/
def execDecodeV1a (c : Code) (s : State) : Answer :=
  whenIdle s <| .next (deliver (.v1a (decodeV1a s.params c)) s)

/-- `DECODE_V2A c` (R156): the result only (R151). -/
def execDecodeV2a (c : Code) (s : State) : Answer :=
  whenIdle s <| .next (deliver (.v2a (decodeV2a s.params c)) s)

end Sys2Proof.Machine
end

