-- ==== Sys2Proof/Machine/Finalize.lean ====
section
/-! DEFINITION. Finalize (R130 to R140): a function from a Code to a Code, and the operation FINALIZE. -/

namespace Sys2Proof.Machine

/-- The average duration of a class (R132): 0 for an empty class, the floored quotient otherwise; a quotient
that does not fit 32 bits is a free value (log entry 9). -/
def averageTime (total count : Nat) : Time :=
  if count = 0 then 0#32
  else if total / count < 2 ^ 32 then BitVec.ofNat 32 (total / count)
  else Config.averageTooWide total count

/-- Step (a), `AVERAGES` (R132). -/
def averages (c : Code) : Code :=
  { c with bitTime :=
      { at0 := averageTime c.bitTotalTime.at0 c.bitCount.at0
        at1 := averageTime c.bitTotalTime.at1 c.bitCount.at1 } }

/-- The two bits the preamble folds to, when both slots were observed, both averages are known, and both
durations classify as plain data bits (R133). -/
def preambleBits (p : Params) (c : Code) : Option (Bool × Bool) :=
  if c.preambleTime.at0 ≠ 0#32 ∧ c.preambleTime.at1 ≠ 0#32 ∧ c.bitTime.at0 ≠ 0#32 ∧ c.bitTime.at1 ≠ 0#32 then
    match (pclass p c.preambleTime.at0 c.bitTime.at0 c.bitTime.at1).dataBit,
        (pclass p c.preambleTime.at1 c.bitTime.at0 c.bitTime.at1).dataBit with
    | some b0, some b1 => some (b0, b1)
    | _, _ => none
  else none

/-- Step (b), `FOLD_PREAMBLE` and `FOLD` (R133, R134); none when the buffer has no room for the fold. -/
def foldPreamble (p : Params) (c : Code) : Option Code :=
  match preambleBits p c with
  | none => some c
  | some (b0, b1) =>
    (foldShift p c b0 b1).map (fun c' => { c' with preambleTime := { at0 := 0#32, at1 := 0#32 } })

/-- The next bits of the complete groups of width `w` that share the unfinished last group's known bits, in
group order (R136). -/
def continuations (bits : List Bool) (w : Nat) : List Bool :=
  let r := bits.length % w
  let known := bits.drop (bits.length - r)
  (List.range (bits.length / w)).filterMap fun g =>
    if (bits.drop (g * w)).take r = known then some (bits.getD (g * w + r) false) else none

/-- The verdict of one width: the value seen, when exactly one of the two was (R136). -/
def inferAt (bits : List Bool) (w : Nat) : Option Bool :=
  let seen := continuations bits w
  if 0 < seen.count true ∧ seen.count false = 0 then some true
  else if 0 < seen.count false ∧ seen.count true = 0 then some false
  else none

/-- `INFER` of R136: widths 4, 3, 2, 1, the first verdict, else 0. -/
def inferReference (bits : List Bool) : Bool := ([4, 3, 2, 1].findSome? (inferAt bits)).getD false

/-- The inference the configuration names: R136, or another revision's function (U1). -/
def infer (p : Params) (bits : List Bool) : Bool :=
  match p.inferRule with
  | .reference => inferReference bits
  | .revision k => Config.inferRevision k bits

/-- `FINALIZE(c)` (R130, R131, R135, R137); none where the bit buffer is too full for a fold or for the
inferred bit. -/
def finalizeCode (p : Params) (c : Code) : Option Code :=
  if c.finalized then some c
  else
    match foldPreamble p (averages c) with
    | none => none
    | some c' =>
      if c'.length = 0 then some { c' with finalized := true, valid := false }
      else pushBit p { c' with finalized := true } (infer p c'.bits)

/-- `FINALIZE c` (R130): the result only; no state of the block is read or written (R140). -/
def execFinalize (c : Code) (s : State) : Answer :=
  whenIdle s <|
    match finalizeCode s.params c with
    | some c' => .next (deliver (.finalized c') s)
    | none => .refused .bitBufferFull

end Sys2Proof.Machine
end

