-- ==== Sys2Proof/Machine/Ring.lean ====
section
/-! DEFINITION. The message ring (R170 to R177): the operations PUSH and POP. -/

namespace Sys2Proof.Machine

/-- `PUSH c` (R173): CLAIM, the copy, COMMIT; refused while a message is in progress. -/
def execPush (c : Code) (s : State) : Answer :=
  if s.state = .awaitPause then andThen (claim s) (fun t => commit (modifyCur t (fun _ => c)))
  else .refused .pushDuringMessage

/-- `POP` (R174): the oldest unread Code, copied whole, or nothing. -/
def execPop (s : State) : Answer :=
  whenIdle s <| withSlot s s.readIndex fun sl =>
    if sl.unread then
      .next (deliver (.popped (some sl.code))
        { writeSlot s s.readIndex { sl with unread := false } with readIndex := nextIndex s.params s.readIndex })
    else .next (deliver (.popped none) s)

end Sys2Proof.Machine
end

