-- ==== Sys2Proof/Machine/Transmitter.lean ====
section
/-! DEFINITION. The transmitter (R180 to R187): the schedule, the operation TRANSMIT, the sequencer's step, the
waveform on the pin. -/

namespace Sys2Proof.Machine

/-- A preamble is there when both of its durations are non-zero (R183). -/
def preamblePresent (pre : Two Time) : Bool := decide (pre.at0 ≠ 0#32) && decide (pre.at1 ≠ 0#32)

/-- The preamble to send: the Code's own when it has one, else the configured one (R183). -/
def sentPreamble (c : Code) (cfg : TxConfig) : Two Time :=
  if preamblePresent c.preambleTime then c.preambleTime else cfg.preambleTime

/-- The preamble pulses, if configured (R183). -/
def preamblePulses (c : Code) (cfg : TxConfig) : List Time :=
  let pre := sentPreamble c cfg
  if preamblePresent pre then [pre.at0, pre.at1] else []

/-- The pulses of one repetition: the preamble, then one pulse per bit at `bitTime[bit]` (R183). -/
def pulses (c : Code) (cfg : TxConfig) : List Time :=
  preamblePulses c cfg ++ c.bits.map (fun b => cfg.bitTime.get b)

/-- Pulses with the pin toggled at each, from a level on (R183). -/
def toggled (level : Bool) : List Time → List Segment
  | [] => []
  | d :: rest => { level := level, duration := d } :: toggled (!level) rest

/-- Repetition `i`: the inter-pause except before the first, then the pulses, the first one high (R183). -/
def repetition (c : Code) (cfg : TxConfig) (i : Nat) : List Segment :=
  (if i = 0 then [] else [{ level := false, duration := cfg.interPause }]) ++ toggled true (pulses c cfg)

/-- `SCHEDULE(c, cfg)` (R183). -/
def schedule (c : Code) (cfg : TxConfig) : List Segment :=
  { level := false, duration := cfg.prePause }
    :: ((List.range cfg.repeatCount.toNat).flatMap (repetition c cfg)
      ++ [{ level := false, duration := cfg.postPause }])

/-- `TRANSMIT c`, the start step (R180, R182): the configuration is read here, once. -/
def execTransmit (c : Code) (s : State) : Answer :=
  whenIdle s <| .next { s with txSchedule := schedule c s.cfg, txPhase := 0, txBusy := true, txStart := none }

/-- The hold of a segment has ended: `(now - start) mod 2^32 >= dur` (R185). -/
def holdEnded (start now dur : Time) : Bool := decide (dur.toNat ≤ (now - start).toNat)

/-- The present segment while `txBusy` is 1. -/
def withSegment (s : State) (k : Segment → Answer) : Answer :=
  match s.txSchedule[s.txPhase]? with
  | some seg => k seg
  | none => .fault (.noSuchSegment s.txPhase)

/-- The present segment has been emitted (R184): the pin has its level, its hold is over, and the next segment is
present, or the transmission has ended with the last. -/
def endSegment (seg : Segment) (s : State) : State :=
  { s with
    txPin := seg.level
    txPhase := s.txPhase + 1
    txBusy := decide (s.txPhase + 1 ≠ s.txSchedule.length)
    txStart := none }

/-- The present segment is being held (R185): the pin has its level, and `start` is kept. -/
def holdSegment (seg : Segment) (start : Time) (s : State) : State :=
  { s with txPin := seg.level, txStart := some start }

/-- `TX_STEP()` (R184): the pin write and the whole hold of the present segment. -/
def txStep (s : State) : Answer := withSegment s fun seg => .next (endSegment seg s)

/-- A clock reading of the sequencer (R185). Where no hold is being timed it is the one at the pin write, and
becomes `start`; `start` is kept until the hold ends, which is at the first reading, this one included, that
passes the test (DESIGN CHOICE, log entry 11, safe). -/
def txClock (now : Time) (s : State) : Answer :=
  withSegment s fun seg =>
    let start := s.txStart.getD now
    .next (if holdEnded start now seg.duration then endSegment seg s else holdSegment seg start s)

/-- The sequencer when the environment has nothing for it. A model that has no time takes the schedule itself
(R185), so the present segment is emitted whole; but a hold whose `start` was read ends at a reading only, and
busy-waits until there is one (DESIGN CHOICE, log entry 11, safe). -/
def txIdleStep (s : State) : Answer := if s.txStart = none then txStep s else .next s

/-- A piece of the waveform: a level and how long it lasts. -/
structure Piece where
  level : Bool
  duration : Nat
  deriving DecidableEq, Repr

/-- The waveform on the pin (R186): neighbouring segments of equal level merged, their durations added. -/
def waveform : List Segment → List Piece
  | [] => []
  | seg :: rest =>
    match waveform rest with
    | [] => [{ level := seg.level, duration := seg.duration.toNat }]
    | w :: ws =>
      if w.level = seg.level then { w with duration := seg.duration.toNat + w.duration } :: ws
      else { level := seg.level, duration := seg.duration.toNat } :: w :: ws

/-- The sum of the durations of a list of pulses or segments, in microseconds (R254). -/
def totalTime (ds : List Time) : Nat := (ds.map BitVec.toNat).sum

end Sys2Proof.Machine
end

