-- ==== Sys2Proof/Machine/Dispatch.lean ====
section
/-! DEFINITION. One arm per operation. -/

namespace Sys2Proof.Machine

def exec (i : Instr) (s : State) : Host.Outcome State Fault Refusal :=
  match i with
  | .edge ts => Sys2Proof.Machine.execEdge ts s
  | .push c => Sys2Proof.Machine.execPush c s
  | .pop => Sys2Proof.Machine.execPop s
  | .finalize c => Sys2Proof.Machine.execFinalize c s
  | .decodeV1a c => Sys2Proof.Machine.execDecodeV1a c s
  | .decodeV2a c => Sys2Proof.Machine.execDecodeV2a c s
  | .transmit c => Sys2Proof.Machine.execTransmit c s
  | .cfgSet idx value => Sys2Proof.Machine.execCfgSet idx value s
  | .cfgGet => Sys2Proof.Machine.execCfgGet s
  | .preset n => Sys2Proof.Machine.execPreset n s

end Sys2Proof.Machine
end

