-- ==== Sys2Proof/Machine/Agents.lean ====
section
/-! DEFINITION. The agents (R14): which input is taken next, and what each kind of input does. -/

namespace Sys2Proof.Machine

/-- The context an operation runs in (R212): EDGE and PUSH are the producer's, the rest the foreground's. -/
def contextOf : Instr → Context
  | .edge _ => .interrupt
  | .push _ => .interrupt
  | .pop => .foreground
  | .finalize _ => .foreground
  | .decodeV1a _ => .foreground
  | .decodeV2a _ => .foreground
  | .transmit _ => .foreground
  | .cfgSet _ _ => .foreground
  | .cfgGet => .foreground
  | .preset _ => .foreground

/-- The request is one the foreground makes: it waits while a transmission blocks the foreground (R79). A request
that names no operation is the foreground's too (R78). -/
def foregroundRequest (r : Request) : Bool :=
  match decode r with
  | .ok i => decide (contextOf i = .foreground)
  | .error _ => true

/-- The input cannot be taken while `txBusy` is 1 (R79, R182). -/
def waitsForForeground : Input → Bool
  | .request r => foregroundRequest r
  | .clock _ => false
  | .reset => false

/-- The first input that can be taken, and the others in their order. EDGE is never blocked (R79). -/
def takeInput (busy : Bool) : List Input → Option (Input × List Input)
  | [] => none
  | x :: xs =>
    if busy && waitsForForeground x then (takeInput busy xs).map (fun y => (y.1, x :: y.2))
    else some (x, xs)

/-- The request is a CFG_GET of an index 8 to 15, which is ignored (R78 with its ruling U9) but in a configuration that
reads R72 alone (log entry 26). The other reserved requests of R78 are ignored in every configuration: unused selectors by `decode`,
CFG_SET's indexes and unknown presets by the operations. -/
def ignoredRequest (p : Params) (r : Request) : Bool :=
  decide (p.cfgGetIndex = .reserved) && decide (reqSel r.word = 0x9#4) && decide (8 ≤ (reqIdx r.word).toNat)

/-- Run a request: the operation it names, or nothing when it names none or is ignored (R78). -/
def runRequest (r : Request) (s : State) : Answer :=
  match decode r with
  | .ok i =>
    if ignoredRequest s.params r then .next s
    else if i.wellFormed s.params then exec i s
    else .refused .operandTooLong
  | .error _ => .next s

/-- One input. A clock reading while no transmission is in progress reaches nobody. -/
def runInput (x : Input) (s : State) : Answer :=
  match x with
  | .request r => runRequest r s
  | .clock now => if s.txBusy then txClock now s else .next s
  | .reset => .next (resetBlock s)

/-- One step of whichever agent moves: the environment's first input that can be taken; with none, the
sequencer while `txBusy` is 1 (R184); else the block does nothing (R230). -/
def agentStep (s : State) : Answer :=
  match takeInput s.txBusy s.inputs with
  | some (x, rest) => runInput x { s with inputs := rest }
  | none => if s.txBusy then txIdleStep s else .next s

/-- The request is put where the next step takes it: first among the inputs, and, for a foreground request, the
port ready (`txBusy = 0`). -/
def presentRequest (r : Request) (s : State) : State :=
  { s with inputs := .request r :: s.inputs, txBusy := s.txBusy && !foregroundRequest r }

end Sys2Proof.Machine
end

