-- ==== Sys2Proof/Machine/Step.lean ====
section
/-! DEFINITION. One step of the block, and the placing of an opcode-table word where the next step takes it. -/

namespace Sys2Proof.Machine

/-- One step. The rules are stated for well-formed configurations only; any other is refused (R10). -/
def step (s : State) : Host.Outcome State Fault Refusal :=
  if s.params.wellFormed then agentStep s else .refused .illFormedConfiguration

/-- `s` with the word of `nbits` bits presented as the next request, its Code operand port all zeros. -/
def State.withFetchWord (s : State) (nbits w : Nat) : State := presentRequest (tableRequest nbits w) s

end Sys2Proof.Machine
end

