-- ==== Sys2Proof/Machine/Console.lean ====
section
/-! DEFINITION. The console's interface to the block: what a parsed line asks for (R77, R82, R83, R84), and the values a
decode record is built from (R85). The text parser and the text itself are out of scope (R6). -/

namespace Sys2Proof.Machine

/-- The four bits of a hex digit, the first-sampled one most significant (R53, R83). -/
def digitBits (d : BitVec 4) : List Bool := [d.getLsbD 3, d.getLsbD 2, d.getLsbD 1, d.getLsbD 0]

/-- The bits of a Code literal: the whole nibbles in order, then the trailing bits (R83). How the text after the `+`
packs them is the console's parameter `UNPACK_TRAILING`. -/
def literalBits (digits : List (BitVec 4)) (trailing : List Bool) : List Bool :=
  digits.flatMap digitBits ++ trailing

/-- A token of a console line (R82). -/
inductive Token where
  /-- `<field>=<value>` -/
  | directive (idx : BitVec 4) (value : BitVec 32)
  /-- the choice of a numeric preset -/
  | preset (n : BitVec 32)
  /-- `?` -/
  | query
  /-- a Code literal: its hex digits, its trailing bits and its optional preamble -/
  | codeLiteral (digits : List (BitVec 4)) (trailing : List Bool) (preamble : Option (Two Time))
  /-- anything else -/
  | malformed
  deriving DecidableEq, Repr

/-- The operation a token asks for; a malformed token asks for none (R82, R84). -/
def tokenInstr : Token → Option Instr
  | .directive idx value => some (.cfgSet idx value)
  | .preset n => some (.preset n)
  | .query => some .cfgGet
  | .codeLiteral digits trailing preamble => some (.transmit (literalCode (literalBits digits trailing) preamble))
  | .malformed => none

/-- The requests of a line, in the order of its tokens (R82). -/
def lineInputs (line : List Token) : List Input :=
  (line.filterMap tokenInstr).map (fun i => .request (encode i))

/-- The values of a decode record (R85): the raw code string, the pause and preamble metadata, the timing statistics
and the decoders' results. -/
structure DecodeRecord where
  digits : List (BitVec 4)
  trailing : List Bool
  prePauseStandalone : Bool
  postPausePresent : Bool
  preambleTime : Two Time
  bitTotalTime : Two Nat
  bitCount : Two Nat
  bitTime : Two Time
  v1a : Option V1aResult
  v2a : Option V2aResult
  deriving DecidableEq, Repr

/-- The record of a finalized Code (R85). -/
def decodeRecord (p : Params) (c : Code) : DecodeRecord :=
  { digits := nibbles c
    trailing := trailingBits c
    prePauseStandalone := c.prePauseStandalone
    postPausePresent := c.postPausePresent
    preambleTime := c.preambleTime
    bitTotalTime := c.bitTotalTime
    bitCount := c.bitCount
    bitTime := c.bitTime
    v1a := decodeV1a p c
    v2a := decodeV2a p c }

end Sys2Proof.Machine
end

