-- ==== Sys2Proof/Safety.lean ====
section
/-! DEFINITION. The terms the claims use: what a state holds, read without a step; the states the rules describe
after a sub-step; and the invariant of the block. -/

namespace Sys2Proof.Machine

/-- The `unread` flag of slot `i` (R28); no slot, no unread Code. -/
def unreadAt (s : State) (i : Nat) : Bool :=
  match s.slots[i]? with
  | some sl => sl.unread
  | none => false

/-- The Code of slot `i` (R33). -/
def codeAt (s : State) (i : Nat) : Code :=
  match s.slots[i]? with
  | some sl => sl.code
  | none => Code.empty

/-- `cur`, the Code of the message in progress (R33). -/
def curCode (s : State) : Code := codeAt s s.writeIndex

/-- The number of unread Codes, by R175's formula. -/
def unreadCount (s : State) : Nat :=
  if unreadAt s s.readIndex = true ∧ s.readIndex = s.writeIndex then s.params.n
  else (s.writeIndex + s.params.n - s.readIndex) % s.params.n

/-- The unread Codes, oldest first: those of `slot[readIndex]`, `slot[readIndex + 1]`, ... (R175). -/
def unreadCodes (s : State) : List Code :=
  (List.range (unreadCount s)).map (fun j => codeAt s ((s.readIndex + j) % s.params.n))

/-- What CLAIM does to the unread Codes when all `n` slots hold one: the oldest is dropped (R170, R171). -/
def dropIfFull (n : Nat) (q : List Code) : List Code := if q.length = n then q.tail else q

/-- A committed Code: `valid` is 1 (R172). -/
def committed (c : Code) : Code := { c with valid := true }

/-- The state in which a message has just started (R103, R171). -/
def startedMessage (d : Time) (shared : Bool) (s : State) : State :=
  { s with
    slots := s.slots.set s.writeIndex
      { code := { Code.empty with prePauseStandalone := !shared }, unread := false }
    readIndex := if unreadAt s s.writeIndex then (s.readIndex + 1) % s.params.n else s.readIndex
    prePauseTime := d
    zeroTime := 0#32
    oneTime := 0#32
    sampleMin := { at0 := Time.max, at1 := Time.max }
    sampleMax := { at0 := 0#32, at1 := 0#32 }
    preambleCount := false
    state := .inPreamble }

/-- The state after the message-start check (R103). -/
def afterStartCheck (d : Time) (shared : Bool) (s : State) : State :=
  if s.params.minPrePauseUs ≤ d.toNat then startedMessage d shared s else { s with state := .awaitPause }

/-- The state in which `cur` holds another Code, its slot's flag as it was. -/
def withCurCode (s : State) (c : Code) : State :=
  { s with slots := s.slots.set s.writeIndex { code := c, unread := unreadAt s s.writeIndex } }

/-- `cur` with one more sample (R109). -/
def sampledCode (b : Bool) (d : Time) (c : Code) : Code :=
  { c with
    bits := c.bits ++ [b]
    bitTotalTime := c.bitTotalTime.set b (c.bitTotalTime.get b + d.toNat)
    bitCount := c.bitCount.set b (c.bitCount.get b + 1) }

/-- The state after the append of a sample (R109). -/
def sampled (b : Bool) (d : Time) (s : State) : State :=
  { withCurCode s (sampledCode b d (curCode s)) with
    sampleMin := s.sampleMin.set b (if (s.sampleMin.get b).toNat ≤ d.toNat then s.sampleMin.get b else d)
    sampleMax := s.sampleMax.set b (if (s.sampleMax.get b).toNat ≤ d.toNat then d else s.sampleMax.get b) }

/-- The Code a completed message commits (R113, R172). -/
def completedCode (c : Code) : Code := { c with postPausePresent := true, valid := true }

/-- The state in which the message in progress has been committed (R113, R172). -/
def committedMessage (s : State) : State :=
  { s with
    slots := s.slots.set s.writeIndex { code := completedCode (curCode s), unread := true }
    writeIndex := (s.writeIndex + 1) % s.params.n }

/-- Both preamble durations were observed, both averages `z` and `o` are known, and both durations classify as plain
data bits: the preamble folds (R133). -/
abbrev Folds (p : Params) (c : Code) (z o : Time) : Prop :=
  c.preambleTime.at0 ≠ 0#32 ∧ c.preambleTime.at1 ≠ 0#32 ∧ z ≠ 0#32 ∧ o ≠ 0#32
    ∧ (pclass p c.preambleTime.at0 z o = .zero ∨ pclass p c.preambleTime.at0 z o = .one)
    ∧ (pclass p c.preambleTime.at1 z o = .zero ∨ pclass p c.preambleTime.at1 z o = .one)

/-- How many places FINALIZE needs at the end of a Code's bits: two for a fold and one for the inferred bit, which
an empty Code and a finalized one do not get (R131, R134, R135, R137). -/
def finalizeRoom (p : Params) (c : Code) : Nat :=
  if c.finalized then 0
  else if Folds p c (averageTime c.bitTotalTime.at0 c.bitCount.at0) (averageTime c.bitTotalTime.at1 c.bitCount.at1)
    then 3
  else if c.bits = [] then 0
  else 1

/-- A segment of the schedule as a piece of a waveform. -/
def segmentPiece (seg : Segment) : Piece := { level := seg.level, duration := seg.duration.toNat }

/-- The level `t` microseconds after the first piece begins, each piece lasting its own duration (R186); none at and
after the end. -/
def levelAt : List Piece → Nat → Option Bool
  | [], _ => none
  | w :: ws, t => if t < w.duration then some w.level else levelAt ws (t - w.duration)

/-- The piece is a run of segments: they all have its level, and it lasts as long as they do together (R186). -/
def RunOf (run : List Segment) (w : Piece) : Prop :=
  run ≠ [] ∧ (∀ seg ∈ run, seg.level = w.level) ∧ w.duration = totalTime (run.map (fun seg => seg.duration))

/-- The operations performed one after another. -/
def execAll : List Instr → State → Answer
  | [], s => .next s
  | i :: rest, s => andThen (exec i s) (execAll rest)

/-- `k` steps, one after another. -/
def runSteps : Nat → State → Answer
  | 0, s => .next s
  | k + 1, s => andThen (step s) (runSteps k)

/-- The results of `k` POPs performed one after another; none where one does not answer a next state. -/
def popResults : Nat → State → Option (List (Option Code))
  | 0, _ => some []
  | k + 1, s =>
    match exec .pop s with
    | .next t =>
      match t.result with
      | some (.popped c) => (popResults k t).map (fun cs => c :: cs)
      | _ => none
    | _ => none

/-- Edges whose durations are `ds` (R81's `EDGE +d`), performed one after another. -/
def edgeDurations : List Time → State → Answer
  | [], s => .next s
  | d :: rest, s => andThen (exec (.edge (s.lastEdgeTime + d)) s) (edgeDurations rest)

/-- `s` with the foreground's side of `u`: the transmitter, the result port, the inputs (R62). -/
def foregroundOf (u s : State) : State :=
  { s with
    cfg := u.cfg, txBusy := u.txBusy, txPhase := u.txPhase, txSchedule := u.txSchedule, txPin := u.txPin,
    txStart := u.txStart, inputs := u.inputs, result := u.result }

/-- `s` with the edge handler's working registers of `u` (R62). -/
def receiverOf (u s : State) : State :=
  { s with
    lastEdgeTime := u.lastEdgeTime, prePauseTime := u.prePauseTime, zeroTime := u.zeroTime, oneTime := u.oneTime,
    sampleMin := u.sampleMin, sampleMax := u.sampleMax, state := u.state, preambleCount := u.preambleCount }

/-- The value of a ternary symbol as a number (R153). -/
def symbolValue : Symbol → Nat
  | .zero => 0
  | .one => 1
  | .two => 2

/-- The group or device field of the four symbols from `k` on: invalid if one of them is 2, else the 4-bit number
that `V1A_BITORDER` makes of them (R154). -/
def fieldOfSymbols (order : BitOrder) (sy : Nat → Symbol) (k : Nat) : Option (BitVec 4) :=
  if sy k = .two ∨ sy (k + 1) = .two ∨ sy (k + 2) = .two ∨ sy (k + 3) = .two then none
  else
    let a := symbolValue (sy k)
    let b := symbolValue (sy (k + 1))
    let c := symbolValue (sy (k + 2))
    let d := symbolValue (sy (k + 3))
    match order with
    | .msbFirst => some (BitVec.ofNat 4 (8 * a + 4 * b + 2 * c + d))
    | .lsbFirst => some (BitVec.ofNat 4 (a + 2 * b + 4 * c + 8 * d))

/-- The state has the reset value of R230 everywhere. -/
structure AtReset (t : State) : Prop where
  lastEdgeTime : t.lastEdgeTime = 0#32
  prePauseTime : t.prePauseTime = 0#32
  timing : t.zeroTime = 0#32 ∧ t.oneTime = 0#32
  sampleMin : t.sampleMin.at0.toNat = 2 ^ 32 - 1 ∧ t.sampleMin.at1.toNat = 2 ^ 32 - 1
  sampleMax : t.sampleMax.at0 = 0#32 ∧ t.sampleMax.at1 = 0#32
  state : t.state = .awaitPause
  preambleCount : t.preambleCount = false
  indexes : t.readIndex = 0 ∧ t.writeIndex = 0
  slotCount : t.slots.length = t.params.n
  slots : ∀ i < t.params.n, t.slots[i]? = some { code := Code.empty, unread := false }
  cfg : t.cfg = t.params.txcfgReset
  sender : t.txBusy = false ∧ t.txPhase = 0 ∧ t.txSchedule = [] ∧ t.txPin = false ∧ t.txStart = none

/-- The slots are in their form and both indexes name one (R29, R50). -/
abbrev SlotForm (s : State) : Prop :=
  Memory.wf s.params s.slots = true ∧ s.readIndex < s.params.n ∧ s.writeIndex < s.params.n
    ∧ ∀ sl ∈ s.slots, sl.unread = true → sl.code.valid = true

/-- The invariant of the ring (R175): the slots with `unread = 1` are exactly the `unreadCount` slots from
`readIndex` on. -/
abbrev RingForm (s : State) : Prop :=
  ∀ j < s.params.n, unreadAt s ((s.readIndex + j) % s.params.n) = decide (j < unreadCount s)

/-- What holds of the message in progress, in IN_PREAMBLE, CALIBRATING and DECODING (R23, R66, R132). -/
abbrev MessageForm (s : State) : Prop :=
  unreadAt s s.writeIndex = false
    ∧ ((curCode s).valid = false ∧ (curCode s).finalized = false ∧ (curCode s).postPausePresent = false)
    ∧ (s.oneTime ≠ 0#32 → scale s.params s.zeroTime s.params.minRelativeDuration ≤ s.oneTime.toNat)
    ∧ (∀ b : Bool, (curCode s).bitCount.get b = (curCode s).bits.count b)
    ∧ (∀ b : Bool, (curCode s).bitTotalTime.get b ≤ (curCode s).bitCount.get b * (2 ^ 32 - 1))
    ∧ (s.zeroTime ≠ 0#32 → 0 < (curCode s).bitCount.at0)
    ∧ (s.oneTime ≠ 0#32 → 0 < (curCode s).bitCount.at1)

/-- What each state of the assembler adds. -/
abbrev PhaseForm (s : State) : Prop :=
  (s.state = .inPreamble → s.zeroTime = 0#32 ∧ s.oneTime = 0#32 ∧ (curCode s).bits = [])
    ∧ (s.state = .calibrating → (curCode s).length < s.params.maxSamples)
    ∧ (s.state = .decoding →
      s.zeroTime ≠ 0#32 ∧ s.oneTime ≠ 0#32 ∧ s.params.minSamples ≤ (curCode s).length
        ∧ (curCode s).length ≤ s.params.maxLength)

/-- The transmitter: while busy there is a segment to send and the last one is low, and while its hold is timed the
pin has its level; while idle the pin is low and no hold is timed (R36, R37, R184, R185). -/
abbrev SendForm (s : State) : Prop :=
  (s.txBusy = true →
      s.txPhase < s.txSchedule.length ∧ s.txSchedule.getLast?.map (fun seg => seg.level) = some false
        ∧ (s.txStart ≠ none → (s.txSchedule[s.txPhase]?).map (fun seg => seg.level) = some s.txPin))
    ∧ (s.txBusy = false → s.txPin = false ∧ s.txStart = none)

/-- The invariant of the block. -/
structure BlockInv (s : State) : Prop where
  /-- the configuration is well-formed (R10) -/
  config : s.params.wellFormed = true
  slots : SlotForm s
  ring : RingForm s
  message : s.state ≠ .awaitPause → MessageForm s
  phase : PhaseForm s
  send : SendForm s

end Sys2Proof.Machine
end

