-- ==== Sys2Proof/Certificates/Slice0/Obligations.lean ====
section
/-! DEFINITION. The statements about the block, by the numbered rules of the spec. -/

open Sys2Proof Sys2Proof.Machine

/-! ### Requests, encodings, steps -/

/-- R72, R76 (the spec's own request format, D2): decoding an encoded operation gives it back, and a request
names an operation exactly when it agrees with the operation's encoding on the bits the operation reads and,
where the operation takes a Code, on the Code operand port. That a CFG_GET request with an `idx` of 8 to 15 decodes to
CFG_GET, as R72 has it, and that it is the step which ignores it (U9 of `93_implementation_defined.md`), is the
model's choice (log entry 26, DESIGN CHOICE). -/
def Obligations.DecodeInvertsEncode : Prop :=
  ∀ i : Instr, decode (encode i) = .ok i ∧
    ∀ r : Request, decode r = .ok i ↔
      (r.word &&& i.usedBits = (encode i).word ∧ (i.takesCode = true → r.code = (encode i).code))

/-- R71, R72: REQ words of `95_test_vectors.md` decode to the operations they stand for. -/
def Obligations.DecodeReadsWrittenWords : Prop :=
  decode (plainRequest 0x1000000FA0#40) = .ok (.edge 4000#32)
    ∧ (∀ c : Code, decode { word := 0x2000000000#40, code := c } = .ok (.push c))
    ∧ decode (plainRequest 0x3F12345678#40) = .ok .pop
    ∧ decode (plainRequest 0x850000015E#40) = .ok (.cfgSet 5#4 350#32)
    ∧ decode (plainRequest 0x9000000000#40) = .ok .cfgGet
    ∧ decode (plainRequest 0xA000000001#40) = .ok (.preset 1#32)

/-- The model's step on its own input list (log entry 5): when the request taken next names a well-formed
operation, the step is that operation on the state without the request; and a request that stands first is
the one taken, unless it is the foreground's and a transmission is in progress. The order is the model's choice. A
CFG_GET of an index 8 to 15 is ignored (U9), and runs in a configuration that reads R72 alone (that there is one is the
model's choice, log entry 26); an operation's canonical request is never ignored. -/
def Obligations.StepRunsDecodedRequest : Prop :=
  ∀ (s : State) (r : Request) (rest : List Input) (i : Instr), s.params.wellFormed = true → decode r = .ok i →
    (takeInput s.txBusy s.inputs = some (.request r, rest) → i.wellFormed s.params = true →
      step s =
        if s.params.cfgGetIndex = .reserved ∧ i = .cfgGet ∧ 8 ≤ (reqIdx r.word).toNat then
          .next { s with inputs := rest }
        else exec i { s with inputs := rest })
    ∧ (r = encode i → i = .cfgGet → (reqIdx r.word).toNat < 8)
    ∧ (s.inputs = .request r :: rest → (s.txBusy = false ∨ contextOf i = .interrupt) →
      takeInput s.txBusy s.inputs = some (.request r, rest))

/-- R10: a configuration that is not well-formed is refused, whatever the state. -/
def Obligations.IllFormedConfigurationRefused : Prop :=
  ∀ s : State, s.params.wellFormed = false → step s = .refused .illFormedConfiguration

/-- R78 (the spec's decision D31): a request whose selector is unassigned, a CFG_SET of an unassigned index and a
PRESET of an unknown number change no state and hand over no result; nor does a CFG_GET of an unassigned index (U9), in
every configuration but one that reads R72 alone (that there is one is the model's choice, log entry 26). -/
def Obligations.ReservedRequestsAreIgnored : Prop :=
  ∀ (s : State) (r : Request) (rest : List Input), s.params.wellFormed = true → s.txBusy = false →
    s.inputs = .request r :: rest →
    (reqSel r.word = 0x0#4 ∨ 0xB ≤ (reqSel r.word).toNat
      ∨ (reqSel r.word = 0x8#4 ∧ 8 ≤ (reqIdx r.word).toNat)
      ∨ (reqSel r.word = 0x9#4 ∧ 8 ≤ (reqIdx r.word).toNat ∧ s.params.cfgGetIndex = .reserved)
      ∨ (reqSel r.word = 0xA#4 ∧ s.params.presets.lookup (reqData r.word) = none)) →
    step s = .next { s with inputs := rest }

/-- R79 (the spec's decision D28): while a transmission is in progress a foreground request gets no step, whatever
waits in front of it; an EDGE behind the waiting requests is taken at once; with nothing else to do the
sequencer moves, unless it waits for a clock reading to end a hold it times (that it moves only then and waits so is
the model's choice, log entries 5 and 11). -/
def Obligations.ForegroundWaitsAndEdgeDoesNot : Prop :=
  (∀ i : Instr, contextOf i = .foreground → waitsForForeground (.request (encode i)) = true)
  ∧ ∀ (s : State) (waiting : List Input), s.params.wellFormed = true → s.txBusy = true →
    (∀ x ∈ waiting, waitsForForeground x = true) →
    (s.inputs = waiting → step s = if s.txStart = none then txStep s else .next s)
    ∧ (∀ (ts : Time) (rest : List Input), s.inputs = waiting ++ .request (encode (.edge ts)) :: rest →
      step s = exec (.edge ts) { s with inputs := waiting ++ rest })

/-- R84: a malformed token of a console line produces no operation and leaves the other tokens' operations as they
are, in the order of the line. -/
def Obligations.MalformedTokenIsSkipped : Prop :=
  ∀ before after : List Token,
    lineInputs (before ++ .malformed :: after) = lineInputs before ++ lineInputs after

/-! ### Reset and the invariant -/

/-- R230 (the spec's decision D29): reset leaves every piece of state at the table's value, in every configuration
and from every state. That `cfg` takes the parameter TXCFG_RESET (the spec's decision D27), that no hold is timed
after reset, and that the configuration and the environment's further inputs stay, are the model's choices (log
entries 8 and 11). -/
def Obligations.ResetLeavesTableValues : Prop :=
  (∀ p : Params, AtReset (State.resetWith p) ∧ (State.resetWith p).params = p)
  ∧ ∀ (s : State) (rest : List Input), s.params.wellFormed = true → s.inputs = .reset :: rest →
    ∃ t, step s = .next t ∧ AtReset t ∧ t.params = s.params ∧ t.inputs = rest

/-- The state after reset meets the block's invariant in every well-formed configuration (R230, R175). -/
def Obligations.ResetMeetsInvariant : Prop :=
  ∀ p : Params, p.wellFormed = true → BlockInv (State.resetWith p)

/-- Every step keeps the block's invariant: the slots' form and both indexes in range (R29), the ring's invariant
(R175), no unread Code in the slot of the message in progress (R66), the BitTiming invariant (R23), bit
counts that count the bits (R109), the length bounds of each state (R110 to R112), a low pin while the
transmitter is idle (R37), and the present segment's level on the pin while its hold is timed (R185). -/
def Obligations.EveryStepKeepsInvariant : Prop :=
  ∀ s t : State, BlockInv s → step s = .next t → BlockInv t

/-- From every state that meets the invariant no step faults (R51), and a step is refused only for an operand no
record holds, a PUSH during a message (R173) or a Code too full to finalize (R52). -/
def Obligations.NoStepFaults : Prop :=
  ∀ s : State, BlockInv s →
    (∀ f : Fault, step s ≠ .fault f)
    ∧ ∀ r : Refusal, step s = .refused r →
      r = .operandTooLong ∨ r = .pushDuringMessage ∨ r = .bitBufferFull

/-- R39: the parameters are fixed for the life of the block. -/
def Obligations.ConfigurationIsFixed : Prop :=
  ∀ s t : State, step s = .next t → t.params = s.params

/-! ### EDGE -/

/-- R100: the duration of an edge is the difference of the time stamps mod 2^32, 0 for equal time stamps and the
time stamp itself for the first edge after reset; the handler runs on it; and the time stamp is kept. -/
def Obligations.EdgeMeasuresModularDuration : Prop :=
  (∀ last ts : Time, (edgeDuration last ts).toNat = (ts.toNat + 2 ^ 32 - last.toNat) % 2 ^ 32)
  ∧ (∀ ts : Time, edgeDuration ts ts = 0#32)
  ∧ (∀ (p : Params) (ts : Time), edgeDuration (State.resetWith p).lastEdgeTime ts = ts)
  ∧ ∀ (s : State) (ts : Time),
    exec (.edge ts) s = handle (edgeDuration s.lastEdgeTime ts) { s with lastEdgeTime := ts }
    ∧ ∀ t, exec (.edge ts) s = .next t → t.lastEdgeTime = ts

/-- The frame of EDGE (R62, R212): nothing of the foreground's side changes, and no slot but the write slot and,
from DECODING, the one after it. -/
def Obligations.EdgeFrame : Prop :=
  ∀ (s t : State) (ts : Time), exec (.edge ts) s = .next t →
    t.cfg = s.cfg ∧ t.txBusy = s.txBusy ∧ t.txPhase = s.txPhase ∧ t.txSchedule = s.txSchedule
    ∧ t.txPin = s.txPin ∧ t.txStart = s.txStart ∧ t.params = s.params ∧ t.inputs = s.inputs ∧ t.result = s.result
    ∧ t.slots.length = s.slots.length
    ∧ ∀ i : Nat, i ≠ s.writeIndex → ¬(s.state = .decoding ∧ i = (s.writeIndex + 1) % s.params.n) →
      t.slots[i]? = s.slots[i]?

/-- R102: in AWAIT_PAUSE a duration below MIN_PRE_PAUSE_US writes nothing but `lastEdgeTime`. -/
def Obligations.NoiseIsIgnored : Prop :=
  ∀ (s : State) (ts : Time), s.state = .awaitPause →
    (edgeDuration s.lastEdgeTime ts).toNat < s.params.minPrePauseUs →
    exec (.edge ts) s = .next { s with lastEdgeTime := ts }

/-- R103 with CLAIM, R171 (the spec's decision D14): in AWAIT_PAUSE a duration of at least MIN_PRE_PAUSE_US starts
a message: the write slot becomes the empty Code with the standalone flag set, an unread Code there is dropped
and `readIndex` moves past it, and every per-message register takes its start value. -/
def Obligations.PauseStartsMessage : Prop :=
  ∀ (s : State) (ts : Time), s.state = .awaitPause → s.writeIndex < s.slots.length →
    s.params.minPrePauseUs ≤ (edgeDuration s.lastEdgeTime ts).toNat →
    exec (.edge ts) s =
      .next (startedMessage (edgeDuration s.lastEdgeTime ts) false { s with lastEdgeTime := ts })

/-- R105: in IN_PREAMBLE the duration is stored, untested, in the next preamble slot; the second one ends the
state. -/
def Obligations.PreambleIsStored : Prop :=
  ∀ (s : State) (ts : Time), s.state = .inPreamble → s.writeIndex < s.slots.length →
    exec (.edge ts) s =
      .next { withCurCode s
          { curCode s with preambleTime :=
              if s.preambleCount then
                { at0 := (curCode s).preambleTime.at0, at1 := edgeDuration s.lastEdgeTime ts }
              else { at0 := edgeDuration s.lastEdgeTime ts, at1 := (curCode s).preambleTime.at1 } } with
        lastEdgeTime := ts
        preambleCount := true
        state := if s.preambleCount then .calibrating else .inPreamble }

/-- R106 and R108 (the spec's decisions D5, D7): the four branches of learning, in their order, and the third
class that is none. -/
def Obligations.LearningBranches : Prop :=
  ∀ (d : Time) (s : State),
    (s.zeroTime = 0#32 → learn d s = some (false, { s with zeroTime := d }))
    ∧ (s.zeroTime ≠ 0#32 → scale s.params s.zeroTime s.params.minRelativeDuration ≤ d.toNat →
      ∃ o : Time, o.toNat = (if s.oneTime = 0#32 then d.toNat else (s.oneTime.toNat + d.toNat) / 2)
        ∧ learn d s = some (true, { s with oneTime := o }))
    ∧ (s.zeroTime ≠ 0#32 → d.toNat < scale s.params s.zeroTime s.params.minRelativeDuration →
      scale s.params d s.params.minRelativeDuration ≤ s.zeroTime.toNat →
      (s.oneTime ≠ 0#32 → learn d s = none)
      ∧ (s.oneTime = 0#32 → learn d s = some (false, { swapRoles s with zeroTime := d })))
    ∧ (s.zeroTime ≠ 0#32 → d.toNat < scale s.params s.zeroTime s.params.minRelativeDuration →
      s.zeroTime.toNat < scale s.params d s.params.minRelativeDuration →
      ∃ z : Time, z.toNat = (s.zeroTime.toNat + d.toNat) / 2
        ∧ learn d s = some (false, { s with zeroTime := z }))

/-- R108 (the spec's decision D7): the role swap inverts the stored bits, exchanges totals, counts and sample
extremes, makes the zero estimate the one estimate, and touches nothing else. -/
def Obligations.SwapInvertsAndExchanges : Prop :=
  ∀ s : State, s.writeIndex < s.slots.length →
    swapRoles s =
      { withCurCode s
          { curCode s with
            bits := (curCode s).bits.map (fun b => !b)
            bitTotalTime := { at0 := (curCode s).bitTotalTime.at1, at1 := (curCode s).bitTotalTime.at0 }
            bitCount := { at0 := (curCode s).bitCount.at1, at1 := (curCode s).bitCount.at0 } } with
        oneTime := s.zeroTime
        sampleMin := { at0 := s.sampleMin.at1, at1 := s.sampleMin.at0 }
        sampleMax := { at0 := s.sampleMax.at1, at1 := s.sampleMax.at0 } }

/-- R54: inversion flips every meaningful bit and keeps the length. R55: the fold shift moves every bit two places
later, puts two new bits first, and the length is two more. -/
def Obligations.InversionFlipsAndFoldShifts : Prop :=
  (∀ c : Code, (invertBits c).length = c.length
    ∧ ∀ j < c.length, (invertBits c).bits[j]? = (c.bits[j]?).map (fun b => !b))
  ∧ ∀ (p : Params) (c : Code) (b0 b1 : Bool), c.length + 2 ≤ p.bufBits →
    ∃ c', foldShift p c b0 b1 = some c' ∧ c'.length = c.length + 2
      ∧ c'.bits[0]? = some b0 ∧ c'.bits[1]? = some b1 ∧ ∀ j < c.length, c'.bits[j + 2]? = c.bits[j]?

/-- R106 to R111 (the spec's decisions D7 to D10): EDGE in CALIBRATING. A third class or a broken ratio aborts;
otherwise the sample is appended, and then the message goes to DECODING if it has converged, aborts if
MAX_SAMPLES bits are stored, and else stays. An abort (R203, the spec's decision D36) hands the duration to the
message-start check as no shared pause (D12) and otherwise leaves the estimates, extremes and slot as they are: U13
and U14 leave those open, and that they keep these values is the model's reading (log entry 13, DEDUCED). -/
def Obligations.EdgeCalibrates : Prop :=
  ∀ (s : State) (ts : Time), s.state = .calibrating → s.writeIndex < s.slots.length →
    (curCode s).length < s.params.bufBits →
    match learn (edgeDuration s.lastEdgeTime ts) { s with lastEdgeTime := ts } with
    | none =>
      exec (.edge ts) s =
        .next (afterStartCheck (edgeDuration s.lastEdgeTime ts) false { s with lastEdgeTime := ts })
    | some (b, u) =>
      let d := edgeDuration s.lastEdgeTime ts
      let v := sampled b d u
      if u.oneTime ≠ 0#32 ∧ u.oneTime.toNat < scale u.params u.zeroTime u.params.minRelativeDuration then
        exec (.edge ts) s = .next (afterStartCheck d false u)
      else if s.params.minSamples ≤ (curCode s).length + 1 ∧ v.zeroTime ≠ 0#32 ∧ v.oneTime ≠ 0#32
          ∧ scale v.params v.zeroTime v.params.minZeroNum ≤ v.sampleMin.at0.toNat
          ∧ v.sampleMax.at0.toNat ≤ scale v.params v.zeroTime v.params.maxZeroNum
          ∧ scale v.params v.oneTime v.params.minOneNum ≤ v.sampleMin.at1.toNat
          ∧ v.sampleMax.at1.toNat ≤ scale v.params v.oneTime v.params.maxOneNum then
        exec (.edge ts) s = .next { v with state := .decoding }
      else if s.params.maxSamples ≤ (curCode s).length + 1 then
        exec (.edge ts) s = .next (afterStartCheck d false v)
      else exec (.edge ts) s = .next v

/-- R112: EDGE in DECODING, the tests in the source's order: the pause range (complete, or too short), the zero
range, the one range (too long, or append), else invalid. The estimates are not updated. The next states rest on the
spec's own decisions: D9 for the statistics, D13 for what the length tests count, D14 for CLAIM and COMMIT, D12 for
the restart with the shared pause (R113), D23 for the place of the test of DEC_TOO_LONG, and D36 for what an abort
leaves; that the working registers and the slot of an aborted message keep their values, which U13 and U14 leave open,
is the model's reading (log entry 13, DEDUCED). -/
def Obligations.EdgeDecodes : Prop :=
  ∀ (s : State) (ts : Time), s.params.wellFormed = true → s.state = .decoding →
    s.writeIndex < s.slots.length → (s.writeIndex + 1) % s.params.n < s.slots.length →
    let p := s.params
    let d := edgeDuration s.lastEdgeTime ts
    let u := { s with lastEdgeTime := ts }
    if scale p s.prePauseTime p.minPauseNum ≤ d.toNat ∧ d.toNat ≤ scale p s.prePauseTime p.maxPauseNum then
      if p.minLength ≤ (curCode s).length then
        exec (.edge ts) s = .next (afterStartCheck d true (committedMessage u))
      else exec (.edge ts) s = .next (afterStartCheck d true u)
    else if scale p s.zeroTime p.minZeroNum ≤ d.toNat ∧ d.toNat ≤ scale p s.zeroTime p.maxZeroNum then
      if p.maxLength ≤ (curCode s).length then exec (.edge ts) s = .next (afterStartCheck d false u)
      else exec (.edge ts) s = .next (sampled false d u)
    else if scale p s.oneTime p.minOneNum ≤ d.toNat ∧ d.toNat ≤ scale p s.oneTime p.maxOneNum then
      if p.maxLength ≤ (curCode s).length then exec (.edge ts) s = .next (afterStartCheck d false u)
      else exec (.edge ts) s = .next (sampled true d u)
    else exec (.edge ts) s = .next (afterStartCheck d false u)

/-- R104 and R204 (the spec's decision D12): a message that an EDGE starts has `prePauseStandalone = 0` exactly
when the duration was recognised as a closing pause in DECODING. -/
def Obligations.StandaloneFlagMeaning : Prop :=
  ∀ (s t : State) (ts : Time), exec (.edge ts) s = .next t → s.state ≠ .inPreamble → t.state = .inPreamble →
    ((curCode t).prePauseStandalone = false ↔
      (s.state = .decoding ∧ isPause s.params s.prePauseTime (edgeDuration s.lastEdgeTime ts) = true))

/-- R203 and R206 (the spec's decision D36): an abort of a message in progress saves nothing and leaves no trace in
the ring; the state register goes to AWAIT_PAUSE, or to IN_PREAMBLE where the same duration starts a message.
That the working registers and the slot keep their values, which U13 and U14 leave open, is the model's reading (log
entry 13, DEDUCED). -/
def Obligations.AbortLeavesNoTrace : Prop :=
  ∀ (s t : State) (cause : AbortCause) (d : Time), BlockInv s → s.state ≠ .awaitPause →
    abort cause d s = .next t →
    unreadCodes t = unreadCodes s ∧ t.readIndex = s.readIndex ∧ t.writeIndex = s.writeIndex
    ∧ (s.params.minPrePauseUs ≤ d.toNat → t = startedMessage d (decide (cause = .decTooShort)) s)
    ∧ (d.toNat < s.params.minPrePauseUs → t = { s with state := .awaitPause })

/-- EDGE answers a next state from every state that meets the invariant, whatever the time stamp (R116, R206). -/
def Obligations.EdgeAlwaysCompletes : Prop :=
  ∀ (s : State) (ts : Time), BlockInv s → ∃ t, exec (.edge ts) s = .next t

/-- R22: the estimates are (0, 0) after reset; they are written only by an EDGE in CALIBRATING and at a message start,
there both to 0, and by no other operation. -/
def Obligations.EstimatesWrittenOnlyInCalibrating : Prop :=
  (∀ p : Params, (State.resetWith p).zeroTime = 0#32 ∧ (State.resetWith p).oneTime = 0#32)
  ∧ ∀ (s t : State) (i : Instr), exec i s = .next t →
    (s.state ≠ .calibrating → (s.state = .inPreamble ∨ t.state ≠ .inPreamble) →
      t.zeroTime = s.zeroTime ∧ t.oneTime = s.oneTime)
    ∧ (s.state ≠ .inPreamble → t.state = .inPreamble → t.zeroTime = 0#32 ∧ t.oneTime = 0#32)
    ∧ ((∀ ts : Time, i ≠ .edge ts) → t.zeroTime = s.zeroTime ∧ t.oneTime = s.oneTime)

/-- R23: after an EDGE, in CALIBRATING and DECODING, a known `oneTime` is at least the ratio's multiple of
`zeroTime`. -/
def Obligations.BitTimingRatioHolds : Prop :=
  ∀ (s t : State) (ts : Time), BlockInv s → exec (.edge ts) s = .next t →
    (t.state = .calibrating ∨ t.state = .decoding) → t.oneTime ≠ 0#32 →
    t.zeroTime.toNat * t.params.minRelativeDuration / t.params.divisor ≤ t.oneTime.toNat

/-- R119, for samples of two exact durations: whichever comes first, the bits stored while the message calibrates
are 1 for every long sample and 0 for every short one. (The two lengths are apart by the ratio, and the short one
is no one relative to itself, which the flooring of R96 makes it below a few microseconds; at most MIN_SAMPLES
samples, so that no sample is decoded instead of learned.) -/
def Obligations.SwapInvariant : Prop :=
  ∀ (s t : State) (short long : Time) (ds : List Time), s.params.wellFormed = true →
    s.state = .calibrating → s.zeroTime = 0#32 → s.oneTime = 0#32 → (curCode s).bits = [] →
    short.toNat < scale s.params short s.params.minRelativeDuration →
    scale s.params short s.params.minRelativeDuration ≤ long.toNat →
    (∀ d ∈ ds, d = short ∨ d = long) → short ∈ ds → ds.length ≤ s.params.minSamples →
    edgeDurations ds s = .next t → (t.state = .calibrating ∨ t.state = .decoding) →
    (curCode t).bits = ds.map (fun d => decide (d = long))

/-! ### The ring -/

/-- R173 (the spec's decision D34) with CLAIM and COMMIT (D14): PUSH in AWAIT_PAUSE claims the write slot, copies the
Code and commits it. That an operand's `finalized` bit is copied as it is, where R131 and R174 say a Code in the ring
has `finalized = 0`, is the model's reading (log entry 24, DEDUCED). -/
def Obligations.PushCommitsItsCode : Prop :=
  ∀ (s : State) (c : Code), s.state = .awaitPause → s.writeIndex < s.slots.length →
    exec (.push c) s = .next { s with
      slots := s.slots.set s.writeIndex { code := { c with valid := true }, unread := true }
      readIndex := if unreadAt s s.writeIndex then (s.readIndex + 1) % s.params.n else s.readIndex
      writeIndex := (s.writeIndex + 1) % s.params.n }

/-- R173: PUSH is refused in every other state. -/
def Obligations.PushRefusedDuringMessage : Prop :=
  ∀ (s : State) (c : Code), s.state ≠ .awaitPause → exec (.push c) s = .refused .pushDuringMessage

/-- R174: POP hands over a copy of the Code at `readIndex` when it is unread, clears the flag and advances the
index; otherwise it hands over nothing and changes nothing. That the slot keeps its Code, which U13 leaves open, is the
model's reading (log entry 13, DEDUCED). -/
def Obligations.PopTakesReadSlot : Prop :=
  ∀ s : State, s.txBusy = false → s.readIndex < s.slots.length →
    exec .pop s = .next
      (if unreadAt s s.readIndex then
        { s with
          slots := s.slots.set s.readIndex { code := codeAt s s.readIndex, unread := false }
          readIndex := (s.readIndex + 1) % s.params.n
          result := some (.popped (some (codeAt s s.readIndex))) }
      else { s with result := some (.popped none) })

/-- R170, R173, R174: as a queue of unread Codes, oldest first, the ring holds at most N; PUSH (the spec's decision
D34) appends the Code, dropping the oldest exactly when all N slots are unread (D14); POP answers the oldest, or
nothing, and removes it. That a pushed Code comes back with its `finalized` bit is the model's reading (log entry 24,
DEDUCED). -/
def Obligations.RingIsDropOldestQueue : Prop :=
  ∀ s : State, BlockInv s →
    (unreadCodes s).length ≤ s.params.n
    ∧ (∀ (c : Code) (t : State), c.fits s.params = true → exec (.push c) s = .next t →
      unreadCodes t = dropIfFull s.params.n (unreadCodes s) ++ [committed c])
    ∧ (∀ t : State, exec .pop s = .next t →
      t.result = some (.popped (unreadCodes s).head?) ∧ unreadCodes t = (unreadCodes s).tail)

/-- What an EDGE does to the queue of unread Codes. A message start drops the oldest of a full ring (CLAIM, R171 and its
hazard R245: the spec's decision D14); a completion appends the message, and the message that its pause starts (R113:
the spec's decision D12) may drop the oldest in turn; every other edge, aborts among them, leaves the queue as it
is. -/
def Obligations.EdgeEffectOnQueue : Prop :=
  ∀ (s t : State) (ts : Time), BlockInv s → exec (.edge ts) s = .next t →
    let p := s.params
    let d := edgeDuration s.lastEdgeTime ts
    let starts := p.minPrePauseUs ≤ d.toNat
    if s.state = .awaitPause then
      unreadCodes t = if starts then dropIfFull p.n (unreadCodes s) else unreadCodes s
    else if s.state = .decoding ∧ isPause p s.prePauseTime d = true ∧ p.minLength ≤ (curCode s).length then
      unreadCodes t =
        if starts then dropIfFull p.n (unreadCodes s ++ [completedCode (curCode s)])
        else unreadCodes s ++ [completedCode (curCode s)]
    else unreadCodes t = unreadCodes s

/-- R176, the drop-oldest law (derived there from the spec's decisions D14 and D34): from an empty ring, N + 1 pushes
and then pops give exactly the last N Codes, in the order pushed, and then nothing. That a finalized Code comes back
finalized is the model's reading (log entry 24, DEDUCED). -/
def Obligations.DropOldestLaw : Prop :=
  ∀ (s : State) (cs : List Code), BlockInv s → s.state = .awaitPause → s.txBusy = false →
    unreadCodes s = [] → cs.length = s.params.n + 1 → (∀ c ∈ cs, c.fits s.params = true) →
    ∃ t, execAll (cs.map Instr.push) s = .next t
      ∧ popResults (s.params.n + 1) t = some (cs.tail.map (fun c => some (committed c)) ++ [none])

/-! ### FINALIZE and the decoders -/

/-- R130, R140: FINALIZE of a Code with the room it needs (three places where the preamble folds, none where nothing is
appended, else one) hands over the finalized Code and touches no state of the block; pause flags, totals and counts
of the Code are kept. Without that room it is refused (R52, U12), which is the model's reading for the fold (log
entry 16, DEDUCED). -/
def Obligations.FinalizeDelivers : Prop :=
  ∀ (s : State) (c : Code), s.txBusy = false →
    let k := finalizeRoom s.params c
    (k = 0 ∨ c.length + k ≤ s.params.bufBits →
      ∃ c', exec (.finalize c) s = .next { s with result := some (.finalized c') }
        ∧ finalizeCode s.params c = some c' ∧ c'.finalized = true ∧ c'.length = c.length + k
        ∧ c'.prePauseStandalone = c.prePauseStandalone ∧ c'.postPausePresent = c.postPausePresent
        ∧ c'.bitTotalTime = c.bitTotalTime ∧ c'.bitCount = c.bitCount)
    ∧ (k ≠ 0 → s.params.bufBits < c.length + k → exec (.finalize c) s = .refused .bitBufferFull)

/-- R131: FINALIZE of what FINALIZE handed over hands over the same Code again. -/
def Obligations.FinalizeIsIdempotent : Prop :=
  ∀ (s t : State) (c c' : Code), exec (.finalize c) s = .next t → t.result = some (.finalized c') →
    exec (.finalize c') t = .next t

/-- R132 to R137 (the spec's decisions D20, D21): the averages; the fold exactly when both preamble durations and
both averages are non-zero and both durations classify as data bits; the failure of an empty Code; and one
inferred bit at the end of every other. -/
def Obligations.FinalizeFoldsAndInfers : Prop :=
  ∀ (p : Params) (c c' : Code), c.finalized = false → finalizeCode p c = some c' →
    let z := averageTime c.bitTotalTime.at0 c.bitCount.at0
    let o := averageTime c.bitTotalTime.at1 c.bitCount.at1
    let pre := c.preambleTime
    let known := pre.at0 ≠ 0#32 ∧ pre.at1 ≠ 0#32 ∧ z ≠ 0#32 ∧ o ≠ 0#32
    let is0 := fun d => pclass p d z o = .zero
    let is1 := fun d => pclass p d z o = .one
    c'.bitTime = { at0 := z, at1 := o } ∧ c'.finalized = true
    ∧ (∀ b0 b1 : Bool, known → (if b0 then is1 pre.at0 else is0 pre.at0) →
      (if b1 then is1 pre.at1 else is0 pre.at1) →
      c'.bits = b0 :: b1 :: (c.bits ++ [infer p (b0 :: b1 :: c.bits)])
      ∧ c'.preambleTime = { at0 := 0#32, at1 := 0#32 } ∧ c'.valid = c.valid)
    ∧ (¬(known ∧ (is0 pre.at0 ∨ is1 pre.at0) ∧ (is0 pre.at1 ∨ is1 pre.at1)) →
      c'.preambleTime = pre
      ∧ (c.bits = [] → c'.bits = [] ∧ c'.valid = false)
      ∧ (c.bits ≠ [] → c'.bits = c.bits ++ [infer p c.bits] ∧ c'.valid = c.valid))

/-- R132: the average of a class is the floored quotient where it fits 32 bits, and 0 for an empty class. -/
def Obligations.AverageIsFlooredQuotient : Prop :=
  ∀ total count : Nat,
    (count = 0 → averageTime total count = 0#32)
    ∧ (0 < count → total / count < 2 ^ 32 → (averageTime total count).toNat = total / count)

/-- R132: in DECODING both classes have a sample, and both averages are the exact floored quotients. -/
def Obligations.AssembledAveragesAreExact : Prop :=
  ∀ s : State, BlockInv s → s.state = .decoding →
    let c := curCode s
    0 < c.bitCount.at0 ∧ 0 < c.bitCount.at1
    ∧ (averageTime c.bitTotalTime.at0 c.bitCount.at0).toNat = c.bitTotalTime.at0 / c.bitCount.at0
    ∧ (averageTime c.bitTotalTime.at1 c.bitCount.at1).toNat = c.bitTotalTime.at1 / c.bitCount.at1

/-- R136 (the spec's decision D22): a width decides for a bit exactly when some complete group agrees with the
known bits of the unfinished last group and every one that does goes on with that bit; the widths are tried
4, 3, 2, 1 and the default is 0. -/
def Obligations.InferenceByUnanimousGroups : Prop :=
  (∀ (bits : List Bool) (w : Nat) (b : Bool), 0 < w →
    let r := bits.length % w
    let agrees := fun g => ∀ i < r, bits[g * w + i]? = bits[bits.length - r + i]?
    (inferAt bits w = some b ↔
      (∃ g < bits.length / w, agrees g) ∧ ∀ g < bits.length / w, agrees g → bits[g * w + r]? = some b))
  ∧ ∀ bits : List Bool, inferReference bits =
    match inferAt bits 4, inferAt bits 3, inferAt bits 2, inferAt bits 1 with
    | some b, _, _, _ => b
    | none, some b, _, _ => b
    | none, none, some b, _ => b
    | none, none, none, some b => b
    | none, none, none, none => false

/-- R95 (the spec's decision D21): the class of a preamble duration by its four boundaries, tested in ascending
order. -/
def Obligations.PreambleClassBoundaries : Prop :=
  ∀ (p : Params) (d z o : Time),
    let a := z.toNat * p.preMinZeroNum / p.divisor
    let b := z.toNat * p.preMaxZeroNum / p.divisor
    let e := o.toNat * p.preMinOneNum / p.divisor
    let f := o.toNat * p.preMaxOneNum / p.divisor
    (d.toNat < a → pclass p d z o = .short)
    ∧ (a ≤ d.toNat → d.toNat ≤ b → pclass p d z o = .zero)
    ∧ (a ≤ d.toNat → b < d.toNat → d.toNat < e → pclass p d z o = .medium)
    ∧ (a ≤ d.toNat → b < d.toNat → e ≤ d.toNat → d.toNat ≤ f → pclass p d z o = .one)
    ∧ (a ≤ d.toNat → b < d.toNat → e ≤ d.toNat → f < d.toNat → pclass p d z o = .long)

/-- R53 and R56 (the spec's decision D16): a nibble's value reads its first-sampled bit as the most significant,
and bit `j` of the sequence is bit `7 - (j mod 8)` of byte `j / 8` of the packed storage. -/
def Obligations.NibblesAndBytesReadFirstBitHigh : Prop :=
  ∀ c : Code,
    (∀ i : Nat, 4 * i + 3 < c.length →
      (readNibble c i).toNat = 8 * (codeBit c (4 * i)).toNat + 4 * (codeBit c (4 * i + 1)).toNat
        + 2 * (codeBit c (4 * i + 2)).toNat + (codeBit c (4 * i + 3)).toNat)
    ∧ ∀ j < c.length, (packedByte c (j / 8)).getLsbD (7 - j % 8) = codeBit c j

/-- R150, R151: the decoders hand over their value and change no state of the block. -/
def Obligations.DecodersDeliver : Prop :=
  ∀ (s : State) (c : Code), s.txBusy = false →
    exec (.decodeV1a c) s = .next { s with result := some (.v1a (decodeV1a s.params c)) }
    ∧ exec (.decodeV2a c) s = .next { s with result := some (.v2a (decodeV2a s.params c)) }

/-- R152 with R150 (the spec's decision D32) and R153 (D24): DECODE_V1A is applicable exactly to a valid, finalized Code
of 49 bits whose last bit is 0 and whose 12 nibbles are all symbols. That the symbols are 5, 6 and A is the spec's
reading of a damaged table, which the model follows (log entry 25, DEDUCED). -/
def Obligations.V1aApplicability : Prop :=
  ∀ (p : Params) (c : Code), (decodeV1a p c).isSome = true ↔
    (c.valid = true ∧ c.finalized = true ∧ c.length = 49 ∧ c.bits[48]? = some false
      ∧ ∀ i < 12, readNibble c i = 0x5#4 ∨ readNibble c i = 0x6#4 ∨ readNibble c i = 0xA#4)

/-- R153, R154 (the spec's decision D24; log entry 25 for the symbols): the fields of an applicable V1A Code; the
action is the entry of the configuration's table, a free value where no table is given (log entry 12). -/
def Obligations.V1aFieldValues : Prop :=
  ∀ (p : Params) (c : Code) (sy : Nat → Symbol), c.valid = true → c.finalized = true → c.length = 49 →
    c.bits[48]? = some false → (∀ i < 12, symbolOf (readNibble c i) = some (sy i)) →
    decodeV1a p c = some
      { group := fieldOfSymbols p.v1aBitOrder sy 0
        device := fieldOfSymbols p.v1aBitOrder sy 4
        action := match p.v1aAction with
          | .given table => symbolEntry (symbolEntry (symbolEntry (symbolEntry table (sy 8)) (sy 9)) (sy 10)) (sy 11)
          | .unprinted => Config.v1aAction (sy 8) (sy 9) (sy 10) (sy 11) }

/-- R157, R158 with R150 (the spec's decision D25): when DECODE_V2A is applicable. -/
def Obligations.V2aApplicability : Prop :=
  ∀ (p : Params) (c : Code), (decodeV2a p c).isSome = true ↔
    (c.valid = true ∧ c.finalized = true ∧ (c.length / 4 = 32 ∨ c.length / 4 = 36)
      ∧ (c.length % 4 = 1 ∨ c.length % 4 = 3) ∧ c.bits[c.length - 1]? = some false
      ∧ ∀ i < c.length / 4, (p.v2aSymbol.lookup (readNibble c i)).isSome = true)

/-- R156 (the spec's decision D25): the fields of an applicable V2A Code whose nibbles carry the data bits `x`,
nibble 0 the least significant; the action is the entry of the configuration's table, a free value where no table is
given (log entry 12). That `dimPercent` is none where `dimLevel` is, which R156 does not state, is the model's reading
(log entry 27, DEDUCED). -/
def Obligations.V2aFieldValues : Prop :=
  ∀ (p : Params) (c : Code) (n : Nat) (x : Nat → Bool), c.valid = true → c.finalized = true →
    n = c.length / 4 → (n = 32 ∨ n = 36) → (c.length % 4 = 1 ∨ c.length % 4 = 3) →
    c.bits[c.length - 1]? = some false → (∀ i < n, p.v2aSymbol.lookup (readNibble c i) = some (x i)) →
    let sum := fun lo len => ∑ k ∈ Finset.range len, (x (lo + k)).toNat * 2 ^ k
    decodeV2a p c = some
      { group := BitVec.ofNat 26 (sum 0 26)
        groupFlag := x 26
        stateBit := x 27
        device := BitVec.ofNat 4 (sum 28 4)
        dimLevel := if n = 36 then some (BitVec.ofNat 4 (sum 32 4)) else none
        dimPercent := if n = 36 then some (sum 32 4 * 67 / 10) else none
        action := match p.v2aAction with
          | .given table => ((table.get (x 26)).get (x 27)).get (decide (n = 36))
          | .unprinted => Config.v2aAction (x 26) (x 27) (decide (n = 36)) }

/-- R151: at most one of the two decoders is applicable to a Code. -/
def Obligations.AtMostOneDecoderApplies : Prop :=
  ∀ (p : Params) (c : Code), (decodeV1a p c).isSome = true → decodeV2a p c = none

/-! ### The transmitter and the configuration -/

/-- R182 (the spec's decision D28): TRANSMIT builds the schedule from the configuration as it is, and the sequencer
is busy from its first segment on, its hold not yet timed (log entry 11); nothing else changes. -/
def Obligations.TransmitStarts : Prop :=
  ∀ (s : State) (c : Code), s.txBusy = false →
    exec (.transmit c) s =
      .next { s with txSchedule := schedule c s.cfg, txPhase := 0, txBusy := true, txStart := none }

/-- R183 (the spec's decision D26): every segment of the schedule by its place, and the schedule's length. -/
def Obligations.ScheduleSegments : Prop :=
  ∀ (c : Code) (cfg : TxConfig),
    let both := fun pre : Two Time => pre.at0 ≠ 0#32 ∧ pre.at1 ≠ 0#32
    let pre := if both c.preambleTime then [c.preambleTime.at0, c.preambleTime.at1]
      else if both cfg.preambleTime then [cfg.preambleTime.at0, cfg.preambleTime.at1] else []
    let ps := pre ++ c.bits.map (fun b => if b then cfg.bitTime.at1 else cfg.bitTime.at0)
    let m := ps.length
    let n := cfg.repeatCount.toNat
    let segs := schedule c cfg
    segs[0]? = some { level := false, duration := cfg.prePause }
    ∧ (∀ i < n, ∀ k < m,
      segs[1 + i * (m + 1) + k]? = (ps[k]?).map (fun d => { level := decide (k % 2 = 0), duration := d }))
    ∧ (∀ i < n, 0 < i → segs[i * (m + 1)]? = some { level := false, duration := cfg.interPause })
    ∧ segs.getLast? = some { level := false, duration := cfg.postPause }
    ∧ segs.length = 2 + n * (pre.length + c.length) + (n - 1)

/-- R254: what a transmission lasts at least, the sum of its schedule's durations. -/
def Obligations.ScheduleDuration : Prop :=
  ∀ (c : Code) (cfg : TxConfig), 0 < cfg.repeatCount.toNat →
    totalTime ((schedule c cfg).map (fun seg => seg.duration)) =
      cfg.prePause.toNat + cfg.repeatCount.toNat * totalTime (pulses c cfg)
        + (cfg.repeatCount.toNat - 1) * cfg.interPause.toNat + cfg.postPause.toNat

/-- R184 (the spec's decision D28): one sequencer step writes the pin with the present segment's level, moves to the
next, and ends the transmission with the last; nothing else changes. A hold that is being timed ends at a clock
reading only, so without one nothing changes at all (the model's choice, log entry 11). -/
def Obligations.SequencerStep : Prop :=
  ∀ (s : State) (seg : Segment), s.params.wellFormed = true → s.txBusy = true → s.inputs = [] →
    s.txSchedule[s.txPhase]? = some seg →
    (s.txStart = none → step s = .next { s with
      txPin := seg.level
      txPhase := s.txPhase + 1
      txBusy := if s.txPhase + 1 = s.txSchedule.length then false else true })
    ∧ (s.txStart ≠ none → step s = .next s)

/-- R182, R184: with no input in between, TRANSMIT is followed by one step per segment; after `k` of them the pin
has the level of segment `k - 1`, and after the last the transmitter is idle with the pin low. -/
def Obligations.TransmissionRunsToCompletion : Prop :=
  ∀ (s s0 : State) (c : Code), s.params.wellFormed = true → s.inputs = [] →
    exec (.transmit c) s = .next s0 →
    (∀ k < (schedule c s.cfg).length, ∃ seg, (schedule c s.cfg)[k]? = some seg
      ∧ runSteps (k + 1) s0 = .next { s0 with
          txPin := seg.level
          txPhase := k + 1
          txBusy := if k + 1 = (schedule c s.cfg).length then false else true })
    ∧ ∃ t, runSteps (schedule c s.cfg).length s0 = .next t
      ∧ t.txBusy = false ∧ t.txPin = false

/-- R185 (the spec's decision D26): a clock reading ends the present segment exactly when the time since the reading at
its pin write, mod 2^32, is at least the segment's duration: then the next segment is present, or the transmission
has ended with the last; until then the pin keeps the segment's level, and through every reading that comes before
the end the `start` that is tested stays the reading at the pin write. Clock readings as inputs, of which the first
of a segment is the one at its pin write, are the model's choice (log entry 11). -/
def Obligations.HoldLastsItsDuration : Prop :=
  ∀ (s : State) (rest : List Input) (seg : Segment), s.params.wellFormed = true → s.txBusy = true →
    s.txSchedule[s.txPhase]? = some seg →
    let since := fun start now : Time => (now.toNat + 2 ^ 32 - start.toNat) % 2 ^ 32
    (∀ now : Time, s.inputs = .clock now :: rest →
      let start := s.txStart.getD now
      (seg.duration.toNat ≤ since start now → step s = .next { s with
        inputs := rest
        txPin := seg.level
        txPhase := s.txPhase + 1
        txBusy := if s.txPhase + 1 = s.txSchedule.length then false else true
        txStart := none })
      ∧ (since start now < seg.duration.toNat → step s = .next { s with
        inputs := rest
        txPin := seg.level
        txStart := some start }))
    ∧ ∀ (start : Time) (readings : List Time), s.txStart = none → 0 < seg.duration.toNat →
      s.inputs = .clock start :: (readings.map Input.clock ++ rest) →
      (∀ now ∈ readings, since start now < seg.duration.toNat) →
      runSteps (readings.length + 1) s = .next { s with
        inputs := rest
        txPin := seg.level
        txStart := some start }

/-- R186: the pieces of the waveform are the maximal runs of segments of equal level, in order, each lasting the sum of
its own segments' durations; so at every instant the waveform has the schedule's level, and it lasts as long as the
schedule. -/
def Obligations.WaveformMergesEqualLevels : Prop :=
  ∀ segs : List Segment,
    (∃ runs : List (List Segment), runs.flatten = segs ∧ List.Forall₂ RunOf runs (waveform segs))
    ∧ (waveform segs).IsChain (fun a b => a.level ≠ b.level)
    ∧ (∀ t : Nat, levelAt (waveform segs) t = levelAt (segs.map segmentPiece) t)
    ∧ ((waveform segs).map (fun w => w.duration)).sum = totalTime (segs.map (fun seg => seg.duration))
    ∧ (waveform segs).head?.map (fun w => w.level) = segs.head?.map (fun seg => seg.level)

/-- R188 and R74 (the spec's decision D27): CFG_SET writes the field with index `idx`, `repeat` taking the low 8
bits, and nothing else; an index of 8 to 15 is ignored. -/
def Obligations.CfgSetWritesOneField : Prop :=
  ∀ (s : State) (idx : BitVec 4) (value : BitVec 32), s.txBusy = false →
    (idx.toNat < 8 → ∃ cfg, exec (.cfgSet idx value) s = .next { s with cfg := cfg }
      ∧ configFields cfg = (configFields s.cfg).set idx.toNat
          (if idx.toNat = 7 then BitVec.ofNat 32 (value.toNat % 256) else value))
    ∧ (8 ≤ idx.toNat → exec (.cfgSet idx value) s = .next s)

/-- R189: CFG_GET hands over the eight fields and changes nothing. -/
def Obligations.CfgGetReadsAllFields : Prop :=
  ∀ s : State, s.txBusy = false → exec .cfgGet s = .next { s with result := some (.config s.cfg) }

/-- R190 (the spec's decision D27): PRESET loads all eight fields of a known preset and ignores an unknown one. -/
def Obligations.PresetLoadsConfiguration : Prop :=
  ∀ (s : State) (n : BitVec 32), s.txBusy = false →
    (∀ cfg, s.params.presets.lookup n = some cfg → exec (.preset n) s = .next { s with cfg := cfg })
    ∧ (s.params.presets.lookup n = none → exec (.preset n) s = .next s)

/-! ### The two contexts -/

/-- R62, R212: a foreground operation leaves every receiver register, every slot's Code and the write index as they
are, and only POP touches an `unread` flag or `readIndex` (that a popped slot keeps its Code, which U13 leaves open, is the
model's reading: log entry 13, DEDUCED). That it answers no next state while `txBusy` is 1, where
R79 (the spec's decision D28) and U10 say no such request is made, is the model's reading (log entry 14, DEDUCED). -/
def Obligations.ForegroundLeavesReceiver : Prop :=
  ∀ (s t : State) (i : Instr), contextOf i = .foreground → exec i s = .next t →
    s.txBusy = false
    ∧ t.lastEdgeTime = s.lastEdgeTime ∧ t.prePauseTime = s.prePauseTime ∧ t.zeroTime = s.zeroTime
    ∧ t.oneTime = s.oneTime ∧ t.sampleMin = s.sampleMin ∧ t.sampleMax = s.sampleMax ∧ t.state = s.state
    ∧ t.preambleCount = s.preambleCount ∧ t.writeIndex = s.writeIndex
    ∧ t.slots.map (fun sl => sl.code) = s.slots.map (fun sl => sl.code)
    ∧ (i ≠ .pop → t.slots = s.slots ∧ t.readIndex = s.readIndex)

/-- R62: the edge handler reads nothing of the foreground's side, and a foreground operation reads none of the edge
handler's working registers: whatever the other side holds, each does the same to its own. -/
def Obligations.NeitherSideReadsTheOther : Prop :=
  ∀ s t u : State,
    (∀ ts : Time, exec (.edge ts) s = .next t →
      exec (.edge ts) (foregroundOf u s) = .next (foregroundOf u t))
    ∧ ∀ i : Instr, contextOf i = .foreground → exec i s = .next t →
      exec i (receiverOf u s) = .next (receiverOf u t)
end

