-- ==== Sys2Proof/Laws/State.lean ====
section
/-! SUPPORT. One lemma per field per named update of the state, each true by rfl. -/

namespace Sys2Proof.Machine

@[simp] theorem writeSlot_params (s : State) (i : Nat) (sl : Slot) : (writeSlot s i sl).params = s.params := rfl
@[simp] theorem writeSlot_lastEdgeTime (s : State) (i : Nat) (sl : Slot) :
    (writeSlot s i sl).lastEdgeTime =
      s.lastEdgeTime := rfl
@[simp] theorem writeSlot_prePauseTime (s : State) (i : Nat) (sl : Slot) :
    (writeSlot s i sl).prePauseTime =
      s.prePauseTime := rfl
@[simp] theorem writeSlot_zeroTime (s : State) (i : Nat) (sl : Slot) :
    (writeSlot s i sl).zeroTime =
      s.zeroTime := rfl
@[simp] theorem writeSlot_oneTime (s : State) (i : Nat) (sl : Slot) : (writeSlot s i sl).oneTime = s.oneTime := rfl
@[simp] theorem writeSlot_sampleMin (s : State) (i : Nat) (sl : Slot) :
    (writeSlot s i sl).sampleMin =
      s.sampleMin := rfl
@[simp] theorem writeSlot_sampleMax (s : State) (i : Nat) (sl : Slot) :
    (writeSlot s i sl).sampleMax =
      s.sampleMax := rfl
@[simp] theorem writeSlot_state (s : State) (i : Nat) (sl : Slot) : (writeSlot s i sl).state = s.state := rfl
@[simp] theorem writeSlot_preambleCount (s : State) (i : Nat) (sl : Slot) :
    (writeSlot s i sl).preambleCount =
      s.preambleCount := rfl
@[simp] theorem writeSlot_slots (s : State) (i : Nat) (sl : Slot) :
    (writeSlot s i sl).slots =
      s.slots.set i sl := rfl
@[simp] theorem writeSlot_readIndex (s : State) (i : Nat) (sl : Slot) :
    (writeSlot s i sl).readIndex =
      s.readIndex := rfl
@[simp] theorem writeSlot_writeIndex (s : State) (i : Nat) (sl : Slot) :
    (writeSlot s i sl).writeIndex =
      s.writeIndex := rfl
@[simp] theorem writeSlot_cfg (s : State) (i : Nat) (sl : Slot) : (writeSlot s i sl).cfg = s.cfg := rfl
@[simp] theorem writeSlot_txBusy (s : State) (i : Nat) (sl : Slot) : (writeSlot s i sl).txBusy = s.txBusy := rfl
@[simp] theorem writeSlot_txPhase (s : State) (i : Nat) (sl : Slot) : (writeSlot s i sl).txPhase = s.txPhase := rfl
@[simp] theorem writeSlot_txSchedule (s : State) (i : Nat) (sl : Slot) :
    (writeSlot s i sl).txSchedule =
      s.txSchedule := rfl
@[simp] theorem writeSlot_txPin (s : State) (i : Nat) (sl : Slot) : (writeSlot s i sl).txPin = s.txPin := rfl
@[simp] theorem writeSlot_txStart (s : State) (i : Nat) (sl : Slot) : (writeSlot s i sl).txStart = s.txStart := rfl
@[simp] theorem writeSlot_inputs (s : State) (i : Nat) (sl : Slot) : (writeSlot s i sl).inputs = s.inputs := rfl
@[simp] theorem writeSlot_result (s : State) (i : Nat) (sl : Slot) : (writeSlot s i sl).result = s.result := rfl

@[simp] theorem modifyCur_params (s : State) (f : Code → Code) : (modifyCur s f).params = s.params := rfl
@[simp] theorem modifyCur_lastEdgeTime (s : State) (f : Code → Code) :
    (modifyCur s f).lastEdgeTime =
      s.lastEdgeTime := rfl
@[simp] theorem modifyCur_prePauseTime (s : State) (f : Code → Code) :
    (modifyCur s f).prePauseTime =
      s.prePauseTime := rfl
@[simp] theorem modifyCur_zeroTime (s : State) (f : Code → Code) : (modifyCur s f).zeroTime = s.zeroTime := rfl
@[simp] theorem modifyCur_oneTime (s : State) (f : Code → Code) : (modifyCur s f).oneTime = s.oneTime := rfl
@[simp] theorem modifyCur_sampleMin (s : State) (f : Code → Code) : (modifyCur s f).sampleMin = s.sampleMin := rfl
@[simp] theorem modifyCur_sampleMax (s : State) (f : Code → Code) : (modifyCur s f).sampleMax = s.sampleMax := rfl
@[simp] theorem modifyCur_state (s : State) (f : Code → Code) : (modifyCur s f).state = s.state := rfl
@[simp] theorem modifyCur_preambleCount (s : State) (f : Code → Code) :
    (modifyCur s f).preambleCount =
      s.preambleCount := rfl
@[simp] theorem modifyCur_slots (s : State) (f : Code → Code) :
    (modifyCur s f).slots =
      s.slots.modify s.writeIndex (fun sl => { sl with code := f sl.code }) := rfl
@[simp] theorem modifyCur_readIndex (s : State) (f : Code → Code) : (modifyCur s f).readIndex = s.readIndex := rfl
@[simp] theorem modifyCur_writeIndex (s : State) (f : Code → Code) :
    (modifyCur s f).writeIndex =
      s.writeIndex := rfl
@[simp] theorem modifyCur_cfg (s : State) (f : Code → Code) : (modifyCur s f).cfg = s.cfg := rfl
@[simp] theorem modifyCur_txBusy (s : State) (f : Code → Code) : (modifyCur s f).txBusy = s.txBusy := rfl
@[simp] theorem modifyCur_txPhase (s : State) (f : Code → Code) : (modifyCur s f).txPhase = s.txPhase := rfl
@[simp] theorem modifyCur_txSchedule (s : State) (f : Code → Code) :
    (modifyCur s f).txSchedule =
      s.txSchedule := rfl
@[simp] theorem modifyCur_txPin (s : State) (f : Code → Code) : (modifyCur s f).txPin = s.txPin := rfl
@[simp] theorem modifyCur_txStart (s : State) (f : Code → Code) : (modifyCur s f).txStart = s.txStart := rfl
@[simp] theorem modifyCur_inputs (s : State) (f : Code → Code) : (modifyCur s f).inputs = s.inputs := rfl
@[simp] theorem modifyCur_result (s : State) (f : Code → Code) : (modifyCur s f).result = s.result := rfl

@[simp] theorem deliver_params (r : Result) (s : State) : (deliver r s).params = s.params := rfl
@[simp] theorem deliver_lastEdgeTime (r : Result) (s : State) : (deliver r s).lastEdgeTime = s.lastEdgeTime := rfl
@[simp] theorem deliver_prePauseTime (r : Result) (s : State) : (deliver r s).prePauseTime = s.prePauseTime := rfl
@[simp] theorem deliver_zeroTime (r : Result) (s : State) : (deliver r s).zeroTime = s.zeroTime := rfl
@[simp] theorem deliver_oneTime (r : Result) (s : State) : (deliver r s).oneTime = s.oneTime := rfl
@[simp] theorem deliver_sampleMin (r : Result) (s : State) : (deliver r s).sampleMin = s.sampleMin := rfl
@[simp] theorem deliver_sampleMax (r : Result) (s : State) : (deliver r s).sampleMax = s.sampleMax := rfl
@[simp] theorem deliver_state (r : Result) (s : State) : (deliver r s).state = s.state := rfl
@[simp] theorem deliver_preambleCount (r : Result) (s : State) :
    (deliver r s).preambleCount =
      s.preambleCount := rfl
@[simp] theorem deliver_slots (r : Result) (s : State) : (deliver r s).slots = s.slots := rfl
@[simp] theorem deliver_readIndex (r : Result) (s : State) : (deliver r s).readIndex = s.readIndex := rfl
@[simp] theorem deliver_writeIndex (r : Result) (s : State) : (deliver r s).writeIndex = s.writeIndex := rfl
@[simp] theorem deliver_cfg (r : Result) (s : State) : (deliver r s).cfg = s.cfg := rfl
@[simp] theorem deliver_txBusy (r : Result) (s : State) : (deliver r s).txBusy = s.txBusy := rfl
@[simp] theorem deliver_txPhase (r : Result) (s : State) : (deliver r s).txPhase = s.txPhase := rfl
@[simp] theorem deliver_txSchedule (r : Result) (s : State) : (deliver r s).txSchedule = s.txSchedule := rfl
@[simp] theorem deliver_txPin (r : Result) (s : State) : (deliver r s).txPin = s.txPin := rfl
@[simp] theorem deliver_txStart (r : Result) (s : State) : (deliver r s).txStart = s.txStart := rfl
@[simp] theorem deliver_inputs (r : Result) (s : State) : (deliver r s).inputs = s.inputs := rfl
@[simp] theorem deliver_result (r : Result) (s : State) : (deliver r s).result = some r := rfl

@[simp] theorem beginMessage_params (d : Time) (shared : Bool) (s : State) :
    (beginMessage d shared s).params =
      s.params := rfl
@[simp] theorem beginMessage_lastEdgeTime (d : Time) (shared : Bool) (s : State) :
    (beginMessage d shared s).lastEdgeTime =
      s.lastEdgeTime := rfl
@[simp] theorem beginMessage_prePauseTime (d : Time) (shared : Bool) (s : State) :
    (beginMessage d shared s).prePauseTime =
      d := rfl
@[simp] theorem beginMessage_zeroTime (d : Time) (shared : Bool) (s : State) :
    (beginMessage d shared s).zeroTime =
      0#32 := rfl
@[simp] theorem beginMessage_oneTime (d : Time) (shared : Bool) (s : State) :
    (beginMessage d shared s).oneTime =
      0#32 := rfl
@[simp] theorem beginMessage_sampleMin (d : Time) (shared : Bool) (s : State) :
    (beginMessage d shared s).sampleMin =
      { at0 := Time.max, at1 := Time.max } := rfl
@[simp] theorem beginMessage_sampleMax (d : Time) (shared : Bool) (s : State) :
    (beginMessage d shared s).sampleMax =
      { at0 := 0#32, at1 := 0#32 } := rfl
@[simp] theorem beginMessage_state (d : Time) (shared : Bool) (s : State) :
    (beginMessage d shared s).state =
      .inPreamble := rfl
@[simp] theorem beginMessage_preambleCount (d : Time) (shared : Bool) (s : State) :
    (beginMessage d shared s).preambleCount =
      false := rfl
@[simp] theorem beginMessage_slots (d : Time) (shared : Bool) (s : State) :
    (beginMessage d shared s).slots =
      (modifyCur s (fun c => { c with prePauseStandalone := !shared })).slots := rfl
@[simp] theorem beginMessage_readIndex (d : Time) (shared : Bool) (s : State) :
    (beginMessage d shared s).readIndex =
      s.readIndex := rfl
@[simp] theorem beginMessage_writeIndex (d : Time) (shared : Bool) (s : State) :
    (beginMessage d shared s).writeIndex =
      s.writeIndex := rfl
@[simp] theorem beginMessage_cfg (d : Time) (shared : Bool) (s : State) :
    (beginMessage d shared s).cfg =
      s.cfg := rfl
@[simp] theorem beginMessage_txBusy (d : Time) (shared : Bool) (s : State) :
    (beginMessage d shared s).txBusy =
      s.txBusy := rfl
@[simp] theorem beginMessage_txPhase (d : Time) (shared : Bool) (s : State) :
    (beginMessage d shared s).txPhase =
      s.txPhase := rfl
@[simp] theorem beginMessage_txSchedule (d : Time) (shared : Bool) (s : State) :
    (beginMessage d shared s).txSchedule =
      s.txSchedule := rfl
@[simp] theorem beginMessage_txPin (d : Time) (shared : Bool) (s : State) :
    (beginMessage d shared s).txPin =
      s.txPin := rfl
@[simp] theorem beginMessage_txStart (d : Time) (shared : Bool) (s : State) :
    (beginMessage d shared s).txStart =
      s.txStart := rfl
@[simp] theorem beginMessage_inputs (d : Time) (shared : Bool) (s : State) :
    (beginMessage d shared s).inputs =
      s.inputs := rfl
@[simp] theorem beginMessage_result (d : Time) (shared : Bool) (s : State) :
    (beginMessage d shared s).result =
      s.result := rfl

@[simp] theorem swapRoles_params (s : State) : (swapRoles s).params = s.params := rfl
@[simp] theorem swapRoles_lastEdgeTime (s : State) : (swapRoles s).lastEdgeTime = s.lastEdgeTime := rfl
@[simp] theorem swapRoles_prePauseTime (s : State) : (swapRoles s).prePauseTime = s.prePauseTime := rfl
@[simp] theorem swapRoles_zeroTime (s : State) : (swapRoles s).zeroTime = s.zeroTime := rfl
@[simp] theorem swapRoles_oneTime (s : State) : (swapRoles s).oneTime = s.zeroTime := rfl
@[simp] theorem swapRoles_sampleMin (s : State) : (swapRoles s).sampleMin = s.sampleMin.swap := rfl
@[simp] theorem swapRoles_sampleMax (s : State) : (swapRoles s).sampleMax = s.sampleMax.swap := rfl
@[simp] theorem swapRoles_state (s : State) : (swapRoles s).state = s.state := rfl
@[simp] theorem swapRoles_preambleCount (s : State) : (swapRoles s).preambleCount = s.preambleCount := rfl
@[simp] theorem swapRoles_readIndex (s : State) : (swapRoles s).readIndex = s.readIndex := rfl
@[simp] theorem swapRoles_writeIndex (s : State) : (swapRoles s).writeIndex = s.writeIndex := rfl
@[simp] theorem swapRoles_cfg (s : State) : (swapRoles s).cfg = s.cfg := rfl
@[simp] theorem swapRoles_txBusy (s : State) : (swapRoles s).txBusy = s.txBusy := rfl
@[simp] theorem swapRoles_txPhase (s : State) : (swapRoles s).txPhase = s.txPhase := rfl
@[simp] theorem swapRoles_txSchedule (s : State) : (swapRoles s).txSchedule = s.txSchedule := rfl
@[simp] theorem swapRoles_txPin (s : State) : (swapRoles s).txPin = s.txPin := rfl
@[simp] theorem swapRoles_txStart (s : State) : (swapRoles s).txStart = s.txStart := rfl
@[simp] theorem swapRoles_inputs (s : State) : (swapRoles s).inputs = s.inputs := rfl
@[simp] theorem swapRoles_result (s : State) : (swapRoles s).result = s.result := rfl

@[simp] theorem withCurCode_params (s : State) (c : Code) : (withCurCode s c).params = s.params := rfl
@[simp] theorem withCurCode_lastEdgeTime (s : State) (c : Code) :
    (withCurCode s c).lastEdgeTime =
      s.lastEdgeTime := rfl
@[simp] theorem withCurCode_prePauseTime (s : State) (c : Code) :
    (withCurCode s c).prePauseTime =
      s.prePauseTime := rfl
@[simp] theorem withCurCode_zeroTime (s : State) (c : Code) : (withCurCode s c).zeroTime = s.zeroTime := rfl
@[simp] theorem withCurCode_oneTime (s : State) (c : Code) : (withCurCode s c).oneTime = s.oneTime := rfl
@[simp] theorem withCurCode_sampleMin (s : State) (c : Code) : (withCurCode s c).sampleMin = s.sampleMin := rfl
@[simp] theorem withCurCode_sampleMax (s : State) (c : Code) : (withCurCode s c).sampleMax = s.sampleMax := rfl
@[simp] theorem withCurCode_state (s : State) (c : Code) : (withCurCode s c).state = s.state := rfl
@[simp] theorem withCurCode_preambleCount (s : State) (c : Code) :
    (withCurCode s c).preambleCount =
      s.preambleCount := rfl
@[simp] theorem withCurCode_slots (s : State) (c : Code) :
    (withCurCode s c).slots =
      s.slots.set s.writeIndex { code := c, unread := unreadAt s s.writeIndex } := rfl
@[simp] theorem withCurCode_readIndex (s : State) (c : Code) : (withCurCode s c).readIndex = s.readIndex := rfl
@[simp] theorem withCurCode_writeIndex (s : State) (c : Code) : (withCurCode s c).writeIndex = s.writeIndex := rfl
@[simp] theorem withCurCode_cfg (s : State) (c : Code) : (withCurCode s c).cfg = s.cfg := rfl
@[simp] theorem withCurCode_txBusy (s : State) (c : Code) : (withCurCode s c).txBusy = s.txBusy := rfl
@[simp] theorem withCurCode_txPhase (s : State) (c : Code) : (withCurCode s c).txPhase = s.txPhase := rfl
@[simp] theorem withCurCode_txSchedule (s : State) (c : Code) : (withCurCode s c).txSchedule = s.txSchedule := rfl
@[simp] theorem withCurCode_txPin (s : State) (c : Code) : (withCurCode s c).txPin = s.txPin := rfl
@[simp] theorem withCurCode_txStart (s : State) (c : Code) : (withCurCode s c).txStart = s.txStart := rfl
@[simp] theorem withCurCode_inputs (s : State) (c : Code) : (withCurCode s c).inputs = s.inputs := rfl
@[simp] theorem withCurCode_result (s : State) (c : Code) : (withCurCode s c).result = s.result := rfl

@[simp] theorem sampled_params (b : Bool) (d : Time) (s : State) : (sampled b d s).params = s.params := rfl
@[simp] theorem sampled_lastEdgeTime (b : Bool) (d : Time) (s : State) :
    (sampled b d s).lastEdgeTime =
      s.lastEdgeTime := rfl
@[simp] theorem sampled_prePauseTime (b : Bool) (d : Time) (s : State) :
    (sampled b d s).prePauseTime =
      s.prePauseTime := rfl
@[simp] theorem sampled_zeroTime (b : Bool) (d : Time) (s : State) : (sampled b d s).zeroTime = s.zeroTime := rfl
@[simp] theorem sampled_oneTime (b : Bool) (d : Time) (s : State) : (sampled b d s).oneTime = s.oneTime := rfl
@[simp] theorem sampled_state (b : Bool) (d : Time) (s : State) : (sampled b d s).state = s.state := rfl
@[simp] theorem sampled_preambleCount (b : Bool) (d : Time) (s : State) :
    (sampled b d s).preambleCount =
      s.preambleCount := rfl
@[simp] theorem sampled_slots (b : Bool) (d : Time) (s : State) :
    (sampled b d s).slots =
      (withCurCode s (sampledCode b d (curCode s))).slots := rfl
@[simp] theorem sampled_readIndex (b : Bool) (d : Time) (s : State) :
    (sampled b d s).readIndex =
      s.readIndex := rfl
@[simp] theorem sampled_writeIndex (b : Bool) (d : Time) (s : State) :
    (sampled b d s).writeIndex =
      s.writeIndex := rfl
@[simp] theorem sampled_cfg (b : Bool) (d : Time) (s : State) : (sampled b d s).cfg = s.cfg := rfl
@[simp] theorem sampled_txBusy (b : Bool) (d : Time) (s : State) : (sampled b d s).txBusy = s.txBusy := rfl
@[simp] theorem sampled_txPhase (b : Bool) (d : Time) (s : State) : (sampled b d s).txPhase = s.txPhase := rfl
@[simp] theorem sampled_txSchedule (b : Bool) (d : Time) (s : State) :
    (sampled b d s).txSchedule =
      s.txSchedule := rfl
@[simp] theorem sampled_txPin (b : Bool) (d : Time) (s : State) : (sampled b d s).txPin = s.txPin := rfl
@[simp] theorem sampled_txStart (b : Bool) (d : Time) (s : State) : (sampled b d s).txStart = s.txStart := rfl
@[simp] theorem sampled_inputs (b : Bool) (d : Time) (s : State) : (sampled b d s).inputs = s.inputs := rfl
@[simp] theorem sampled_result (b : Bool) (d : Time) (s : State) : (sampled b d s).result = s.result := rfl

@[simp] theorem startedMessage_params (d : Time) (shared : Bool) (s : State) :
    (startedMessage d shared s).params =
      s.params := rfl
@[simp] theorem startedMessage_lastEdgeTime (d : Time) (shared : Bool) (s : State) :
    (startedMessage d shared s).lastEdgeTime =
      s.lastEdgeTime := rfl
@[simp] theorem startedMessage_prePauseTime (d : Time) (shared : Bool) (s : State) :
    (startedMessage d shared s).prePauseTime =
      d := rfl
@[simp] theorem startedMessage_zeroTime (d : Time) (shared : Bool) (s : State) :
    (startedMessage d shared s).zeroTime =
      0#32 := rfl
@[simp] theorem startedMessage_oneTime (d : Time) (shared : Bool) (s : State) :
    (startedMessage d shared s).oneTime =
      0#32 := rfl
@[simp] theorem startedMessage_sampleMin (d : Time) (shared : Bool) (s : State) :
    (startedMessage d shared s).sampleMin =
      { at0 := Time.max, at1 := Time.max } := rfl
@[simp] theorem startedMessage_sampleMax (d : Time) (shared : Bool) (s : State) :
    (startedMessage d shared s).sampleMax =
      { at0 := 0#32, at1 := 0#32 } := rfl
@[simp] theorem startedMessage_state (d : Time) (shared : Bool) (s : State) :
    (startedMessage d shared s).state =
      .inPreamble := rfl
@[simp] theorem startedMessage_preambleCount (d : Time) (shared : Bool) (s : State) :
    (startedMessage d shared s).preambleCount =
      false := rfl
@[simp] theorem startedMessage_slots (d : Time) (shared : Bool) (s : State) :
    (startedMessage d shared s).slots =
      s.slots.set s.writeIndex { code := { Code.empty with prePauseStandalone := !shared }, unread := false } := rfl
@[simp] theorem startedMessage_readIndex (d : Time) (shared : Bool) (s : State) :
    (startedMessage d shared s).readIndex =
      if unreadAt s s.writeIndex then (s.readIndex + 1) % s.params.n else s.readIndex := rfl
@[simp] theorem startedMessage_writeIndex (d : Time) (shared : Bool) (s : State) :
    (startedMessage d shared s).writeIndex =
      s.writeIndex := rfl
@[simp] theorem startedMessage_cfg (d : Time) (shared : Bool) (s : State) :
    (startedMessage d shared s).cfg =
      s.cfg := rfl
@[simp] theorem startedMessage_txBusy (d : Time) (shared : Bool) (s : State) :
    (startedMessage d shared s).txBusy =
      s.txBusy := rfl
@[simp] theorem startedMessage_txPhase (d : Time) (shared : Bool) (s : State) :
    (startedMessage d shared s).txPhase =
      s.txPhase := rfl
@[simp] theorem startedMessage_txSchedule (d : Time) (shared : Bool) (s : State) :
    (startedMessage d shared s).txSchedule =
      s.txSchedule := rfl
@[simp] theorem startedMessage_txPin (d : Time) (shared : Bool) (s : State) :
    (startedMessage d shared s).txPin =
      s.txPin := rfl
@[simp] theorem startedMessage_txStart (d : Time) (shared : Bool) (s : State) :
    (startedMessage d shared s).txStart =
      s.txStart := rfl
@[simp] theorem startedMessage_inputs (d : Time) (shared : Bool) (s : State) :
    (startedMessage d shared s).inputs =
      s.inputs := rfl
@[simp] theorem startedMessage_result (d : Time) (shared : Bool) (s : State) :
    (startedMessage d shared s).result =
      s.result := rfl

@[simp] theorem committedMessage_params (s : State) : (committedMessage s).params = s.params := rfl
@[simp] theorem committedMessage_lastEdgeTime (s : State) :
    (committedMessage s).lastEdgeTime =
      s.lastEdgeTime := rfl
@[simp] theorem committedMessage_prePauseTime (s : State) :
    (committedMessage s).prePauseTime =
      s.prePauseTime := rfl
@[simp] theorem committedMessage_zeroTime (s : State) : (committedMessage s).zeroTime = s.zeroTime := rfl
@[simp] theorem committedMessage_oneTime (s : State) : (committedMessage s).oneTime = s.oneTime := rfl
@[simp] theorem committedMessage_sampleMin (s : State) : (committedMessage s).sampleMin = s.sampleMin := rfl
@[simp] theorem committedMessage_sampleMax (s : State) : (committedMessage s).sampleMax = s.sampleMax := rfl
@[simp] theorem committedMessage_state (s : State) : (committedMessage s).state = s.state := rfl
@[simp] theorem committedMessage_preambleCount (s : State) :
    (committedMessage s).preambleCount =
      s.preambleCount := rfl
@[simp] theorem committedMessage_slots (s : State) :
    (committedMessage s).slots =
      s.slots.set s.writeIndex { code := completedCode (curCode s), unread := true } := rfl
@[simp] theorem committedMessage_readIndex (s : State) : (committedMessage s).readIndex = s.readIndex := rfl
@[simp] theorem committedMessage_writeIndex (s : State) :
    (committedMessage s).writeIndex =
      (s.writeIndex + 1) % s.params.n := rfl
@[simp] theorem committedMessage_cfg (s : State) : (committedMessage s).cfg = s.cfg := rfl
@[simp] theorem committedMessage_txBusy (s : State) : (committedMessage s).txBusy = s.txBusy := rfl
@[simp] theorem committedMessage_txPhase (s : State) : (committedMessage s).txPhase = s.txPhase := rfl
@[simp] theorem committedMessage_txSchedule (s : State) : (committedMessage s).txSchedule = s.txSchedule := rfl
@[simp] theorem committedMessage_txPin (s : State) : (committedMessage s).txPin = s.txPin := rfl
@[simp] theorem committedMessage_txStart (s : State) : (committedMessage s).txStart = s.txStart := rfl
@[simp] theorem committedMessage_inputs (s : State) : (committedMessage s).inputs = s.inputs := rfl
@[simp] theorem committedMessage_result (s : State) : (committedMessage s).result = s.result := rfl

@[simp] theorem presentRequest_params (r : Request) (s : State) : (presentRequest r s).params = s.params := rfl
@[simp] theorem presentRequest_lastEdgeTime (r : Request) (s : State) :
    (presentRequest r s).lastEdgeTime =
      s.lastEdgeTime := rfl
@[simp] theorem presentRequest_prePauseTime (r : Request) (s : State) :
    (presentRequest r s).prePauseTime =
      s.prePauseTime := rfl
@[simp] theorem presentRequest_zeroTime (r : Request) (s : State) :
    (presentRequest r s).zeroTime =
      s.zeroTime := rfl
@[simp] theorem presentRequest_oneTime (r : Request) (s : State) : (presentRequest r s).oneTime = s.oneTime := rfl
@[simp] theorem presentRequest_sampleMin (r : Request) (s : State) :
    (presentRequest r s).sampleMin =
      s.sampleMin := rfl
@[simp] theorem presentRequest_sampleMax (r : Request) (s : State) :
    (presentRequest r s).sampleMax =
      s.sampleMax := rfl
@[simp] theorem presentRequest_state (r : Request) (s : State) : (presentRequest r s).state = s.state := rfl
@[simp] theorem presentRequest_preambleCount (r : Request) (s : State) :
    (presentRequest r s).preambleCount =
      s.preambleCount := rfl
@[simp] theorem presentRequest_slots (r : Request) (s : State) : (presentRequest r s).slots = s.slots := rfl
@[simp] theorem presentRequest_readIndex (r : Request) (s : State) :
    (presentRequest r s).readIndex =
      s.readIndex := rfl
@[simp] theorem presentRequest_writeIndex (r : Request) (s : State) :
    (presentRequest r s).writeIndex =
      s.writeIndex := rfl
@[simp] theorem presentRequest_cfg (r : Request) (s : State) : (presentRequest r s).cfg = s.cfg := rfl
@[simp] theorem presentRequest_txBusy (r : Request) (s : State) :
    (presentRequest r s).txBusy =
      (s.txBusy && !foregroundRequest r) := rfl
@[simp] theorem presentRequest_txPhase (r : Request) (s : State) : (presentRequest r s).txPhase = s.txPhase := rfl
@[simp] theorem presentRequest_txSchedule (r : Request) (s : State) :
    (presentRequest r s).txSchedule =
      s.txSchedule := rfl
@[simp] theorem presentRequest_txPin (r : Request) (s : State) : (presentRequest r s).txPin = s.txPin := rfl
@[simp] theorem presentRequest_txStart (r : Request) (s : State) : (presentRequest r s).txStart = s.txStart := rfl
@[simp] theorem presentRequest_inputs (r : Request) (s : State) :
    (presentRequest r s).inputs =
      .request r :: s.inputs := rfl
@[simp] theorem presentRequest_result (r : Request) (s : State) : (presentRequest r s).result = s.result := rfl

@[simp] theorem endSegment_params (seg : Segment) (s : State) : (endSegment seg s).params = s.params := rfl
@[simp] theorem endSegment_lastEdgeTime (seg : Segment) (s : State) :
    (endSegment seg s).lastEdgeTime =
      s.lastEdgeTime := rfl
@[simp] theorem endSegment_prePauseTime (seg : Segment) (s : State) :
    (endSegment seg s).prePauseTime =
      s.prePauseTime := rfl
@[simp] theorem endSegment_zeroTime (seg : Segment) (s : State) : (endSegment seg s).zeroTime = s.zeroTime := rfl
@[simp] theorem endSegment_oneTime (seg : Segment) (s : State) : (endSegment seg s).oneTime = s.oneTime := rfl
@[simp] theorem endSegment_sampleMin (seg : Segment) (s : State) :
    (endSegment seg s).sampleMin =
      s.sampleMin := rfl
@[simp] theorem endSegment_sampleMax (seg : Segment) (s : State) :
    (endSegment seg s).sampleMax =
      s.sampleMax := rfl
@[simp] theorem endSegment_state (seg : Segment) (s : State) : (endSegment seg s).state = s.state := rfl
@[simp] theorem endSegment_preambleCount (seg : Segment) (s : State) :
    (endSegment seg s).preambleCount =
      s.preambleCount := rfl
@[simp] theorem endSegment_slots (seg : Segment) (s : State) : (endSegment seg s).slots = s.slots := rfl
@[simp] theorem endSegment_readIndex (seg : Segment) (s : State) :
    (endSegment seg s).readIndex =
      s.readIndex := rfl
@[simp] theorem endSegment_writeIndex (seg : Segment) (s : State) :
    (endSegment seg s).writeIndex =
      s.writeIndex := rfl
@[simp] theorem endSegment_cfg (seg : Segment) (s : State) : (endSegment seg s).cfg = s.cfg := rfl
@[simp] theorem endSegment_txBusy (seg : Segment) (s : State) :
    (endSegment seg s).txBusy =
      decide (s.txPhase + 1 ≠ s.txSchedule.length) := rfl
@[simp] theorem endSegment_txPhase (seg : Segment) (s : State) : (endSegment seg s).txPhase = s.txPhase + 1 := rfl
@[simp] theorem endSegment_txSchedule (seg : Segment) (s : State) :
    (endSegment seg s).txSchedule =
      s.txSchedule := rfl
@[simp] theorem endSegment_txPin (seg : Segment) (s : State) : (endSegment seg s).txPin = seg.level := rfl
@[simp] theorem endSegment_txStart (seg : Segment) (s : State) : (endSegment seg s).txStart = none := rfl
@[simp] theorem endSegment_inputs (seg : Segment) (s : State) : (endSegment seg s).inputs = s.inputs := rfl
@[simp] theorem endSegment_result (seg : Segment) (s : State) : (endSegment seg s).result = s.result := rfl

@[simp] theorem holdSegment_params (seg : Segment) (start : Time) (s : State) :
    (holdSegment seg start s).params =
      s.params := rfl
@[simp] theorem holdSegment_lastEdgeTime (seg : Segment) (start : Time) (s : State) :
    (holdSegment seg start s).lastEdgeTime =
      s.lastEdgeTime := rfl
@[simp] theorem holdSegment_prePauseTime (seg : Segment) (start : Time) (s : State) :
    (holdSegment seg start s).prePauseTime =
      s.prePauseTime := rfl
@[simp] theorem holdSegment_zeroTime (seg : Segment) (start : Time) (s : State) :
    (holdSegment seg start s).zeroTime =
      s.zeroTime := rfl
@[simp] theorem holdSegment_oneTime (seg : Segment) (start : Time) (s : State) :
    (holdSegment seg start s).oneTime =
      s.oneTime := rfl
@[simp] theorem holdSegment_sampleMin (seg : Segment) (start : Time) (s : State) :
    (holdSegment seg start s).sampleMin =
      s.sampleMin := rfl
@[simp] theorem holdSegment_sampleMax (seg : Segment) (start : Time) (s : State) :
    (holdSegment seg start s).sampleMax =
      s.sampleMax := rfl
@[simp] theorem holdSegment_state (seg : Segment) (start : Time) (s : State) :
    (holdSegment seg start s).state =
      s.state := rfl
@[simp] theorem holdSegment_preambleCount (seg : Segment) (start : Time) (s : State) :
    (holdSegment seg start s).preambleCount =
      s.preambleCount := rfl
@[simp] theorem holdSegment_slots (seg : Segment) (start : Time) (s : State) :
    (holdSegment seg start s).slots =
      s.slots := rfl
@[simp] theorem holdSegment_readIndex (seg : Segment) (start : Time) (s : State) :
    (holdSegment seg start s).readIndex =
      s.readIndex := rfl
@[simp] theorem holdSegment_writeIndex (seg : Segment) (start : Time) (s : State) :
    (holdSegment seg start s).writeIndex =
      s.writeIndex := rfl
@[simp] theorem holdSegment_cfg (seg : Segment) (start : Time) (s : State) :
    (holdSegment seg start s).cfg =
      s.cfg := rfl
@[simp] theorem holdSegment_txBusy (seg : Segment) (start : Time) (s : State) :
    (holdSegment seg start s).txBusy =
      s.txBusy := rfl
@[simp] theorem holdSegment_txPhase (seg : Segment) (start : Time) (s : State) :
    (holdSegment seg start s).txPhase =
      s.txPhase := rfl
@[simp] theorem holdSegment_txSchedule (seg : Segment) (start : Time) (s : State) :
    (holdSegment seg start s).txSchedule =
      s.txSchedule := rfl
@[simp] theorem holdSegment_txPin (seg : Segment) (start : Time) (s : State) :
    (holdSegment seg start s).txPin =
      seg.level := rfl
@[simp] theorem holdSegment_txStart (seg : Segment) (start : Time) (s : State) :
    (holdSegment seg start s).txStart =
      some start := rfl
@[simp] theorem holdSegment_inputs (seg : Segment) (start : Time) (s : State) :
    (holdSegment seg start s).inputs =
      s.inputs := rfl
@[simp] theorem holdSegment_result (seg : Segment) (start : Time) (s : State) :
    (holdSegment seg start s).result =
      s.result := rfl

end Sys2Proof.Machine
end

