-- ==== Sys2Proof/Laws/Code.lean ====
section
/-! SUPPORT. The small lemmas of the two-place record, the Code primitives and the classifier. -/

namespace Sys2Proof

@[simp] theorem Two.get_false {α : Type} (x : Two α) : x.get false = x.at0 := rfl

@[simp] theorem Two.get_true {α : Type} (x : Two α) : x.get true = x.at1 := rfl

@[simp] theorem Two.set_false {α : Type} (x : Two α) (v : α) : x.set false v = { x with at0 := v } := rfl

@[simp] theorem Two.set_true {α : Type} (x : Two α) (v : α) : x.set true v = { x with at1 := v } := rfl

@[simp] theorem Two.swap_at0 {α : Type} (x : Two α) : x.swap.at0 = x.at1 := rfl

@[simp] theorem Two.swap_at1 {α : Type} (x : Two α) : x.swap.at1 = x.at0 := rfl

theorem Two.get_set_same {α : Type} (x : Two α) (b : Bool) (v : α) : (x.set b v).get b = v := by
  cases b <;> rfl

theorem Two.get_set_other {α : Type} (x : Two α) (b c : Bool) (v : α) (h : c ≠ b) :
    (x.set b v).get c = x.get c := by
  cases b <;> cases c <;> simp_all [Two.get, Two.set]

theorem Two.get_swap {α : Type} (x : Two α) (b : Bool) : x.swap.get b = x.get (!b) := by
  cases b <;> rfl

@[simp] theorem Code.length_mk (bits : List Bool) (tot cnt : Two Nat) (pre : Two Time) (sa post v f : Bool)
    (bt : Two Time) : Code.length ⟨bits, tot, cnt, pre, sa, post, v, f, bt⟩ = bits.length := rfl

theorem Code.fits_iff (p : Params) (c : Code) : c.fits p = true ↔ c.length ≤ p.bufBits := by
  simp [Code.fits]

end Sys2Proof

namespace Sys2Proof.Machine

/-- `push_bit` with room: the bit is appended and nothing else changes. -/
theorem pushBit_some (p : Params) (c : Code) (b : Bool) (h : c.length < p.bufBits) :
    pushBit p c b = some { c with bits := c.bits ++ [b] } := by
  simp [pushBit, h]

/-- What `push_bit` can answer. -/
theorem pushBit_cases (p : Params) (c c' : Code) (b : Bool) (h : pushBit p c b = some c') :
    c.length < p.bufBits ∧ c' = { c with bits := c.bits ++ [b] } := by
  unfold pushBit at h
  split at h
  · exact ⟨‹_›, (Option.some.inj h).symm⟩
  · cases h

/-- What the fold shift can answer. -/
theorem foldShift_cases (p : Params) (c c' : Code) (b0 b1 : Bool) (h : foldShift p c b0 b1 = some c') :
    c.length + 2 ≤ p.bufBits ∧ c' = { c with bits := b0 :: b1 :: c.bits } := by
  unfold foldShift at h
  split at h
  · exact ⟨‹_›, (Option.some.inj h).symm⟩
  · cases h

/-- Inversion keeps the length. -/
@[simp] theorem invertBits_length (c : Code) : (invertBits c).length = c.length := by
  simp [invertBits, Code.length]

/-- Inversion exchanges the numbers of zeros and ones. -/
theorem invertBits_count (c : Code) (b : Bool) : (invertBits c).bits.count b = c.bits.count (!b) := by
  simp only [invertBits]
  induction c.bits with
  | nil => rfl
  | cons x xs ih => cases x <;> cases b <;> simp_all

theorem inRange_iff (d : Time) (lo hi : Nat) : inRange d lo hi = true ↔ lo ≤ d.toNat ∧ d.toNat ≤ hi := by
  simp [inRange]

theorem looksLikeOne_iff (p : Params) (a b : Time) :
    looksLikeOne p a b = true ↔ scale p b p.minRelativeDuration ≤ a.toNat := by
  simp [looksLikeOne]

theorem isPause_iff (p : Params) (prior d : Time) : isPause p prior d = true ↔
    scale p prior p.minPauseNum ≤ d.toNat ∧ d.toNat ≤ scale p prior p.maxPauseNum := by
  rw [isPause, inRange_iff]
  rfl

theorem isZero_iff (p : Params) (zeroTime d : Time) : isZero p zeroTime d = true ↔
    scale p zeroTime p.minZeroNum ≤ d.toNat ∧ d.toNat ≤ scale p zeroTime p.maxZeroNum := by
  rw [isZero, inRange_iff]
  rfl

theorem isOne_iff (p : Params) (oneTime d : Time) : isOne p oneTime d = true ↔
    scale p oneTime p.minOneNum ≤ d.toNat ∧ d.toNat ≤ scale p oneTime p.maxOneNum := by
  rw [isOne, inRange_iff]
  rfl

theorem consistent_iff (s : State) : consistent s = true ↔
    scale s.params s.zeroTime s.params.minZeroNum ≤ s.sampleMin.at0.toNat
      ∧ s.sampleMax.at0.toNat ≤ scale s.params s.zeroTime s.params.maxZeroNum
      ∧ scale s.params s.oneTime s.params.minOneNum ≤ s.sampleMin.at1.toNat
      ∧ s.sampleMax.at1.toNat ≤ scale s.params s.oneTime s.params.maxOneNum := by
  simp only [consistent, Bool.and_eq_true, decide_eq_true_eq, and_assoc]
  rfl

theorem ratioBroken_iff (s : State) : ratioBroken s = true ↔
    s.oneTime ≠ 0#32 ∧ s.oneTime.toNat < scale s.params s.zeroTime s.params.minRelativeDuration := by
  simp [ratioBroken, looksLikeOne]

theorem startsMessage_iff (p : Params) (d : Time) : startsMessage p d = true ↔ p.minPrePauseUs ≤ d.toNat := by
  simp [startsMessage]

/-- A ratio above one does not lower a time. -/
theorem le_scale (p : Params) (x : Time) (num : Nat) (hd : 0 < p.divisor) (h : p.divisor ≤ num) :
    x.toNat ≤ scale p x num := by
  unfold scale
  exact (Nat.le_div_iff_mul_le hd).2 (Nat.mul_le_mul_left _ h)

/-- A ratio below one does not raise a time. -/
theorem scale_le (p : Params) (x : Time) (num : Nat) (h : num ≤ p.divisor) : scale p x num ≤ x.toNat := by
  unfold scale
  exact Nat.div_le_of_le_mul (by rw [Nat.mul_comm p.divisor]; exact Nat.mul_le_mul_left _ h)

/-- The average of two times is exact: the sum does not wrap. -/
theorem movingAverage_toNat (a b : Time) : (movingAverage a b).toNat = (a.toNat + b.toNat) / 2 := by
  have ha := a.isLt
  have hb := b.isLt
  unfold movingAverage
  rw [BitVec.toNat_ofNat, Nat.mod_eq_of_lt (by omega)]

/-- What a well-formed configuration gives of its divisor and counts. -/
theorem wellFormed_facts (p : Params) (h : p.wellFormed = true) :
    0 < p.divisor ∧ p.divisor < p.minRelativeDuration ∧ 1 ≤ p.minPrePauseUs ∧ 1 ≤ p.minSamples
      ∧ p.minSamples ≤ p.maxSamples ∧ p.maxSamples ≤ p.maxLength ∧ p.minLength ≤ p.maxLength ∧ 1 ≤ p.n
      ∧ p.maxLength + 3 ≤ p.bufBits := by
  simp only [Params.wellFormed, Params.divisorOk, Params.lengthsOk, Params.ratiosOk, Bool.and_eq_true,
    decide_eq_true_eq, beq_iff_eq] at h
  have hd : 0 < p.divisor := by
    rcases Nat.eq_zero_or_pos p.divisor with h0 | h0
    · rw [h0] at h
      simp at h
    · exact h0
  refine ⟨hd, ?_, ?_, ?_, ?_, ?_, ?_, ?_, ?_⟩ <;> omega

end Sys2Proof.Machine
end

