-- ==== Sys2Proof/Laws/Ops.lean ====
section
/-! SUPPORT. For each shared operation one lemma that says what it answers. -/

namespace Sys2Proof.Machine

@[simp] theorem andThen_next (s : State) (k : State → Answer) : andThen (.next s) k = k s := rfl

@[simp] theorem andThen_fault (f : Fault) (k : State → Answer) : andThen (.fault f) k = .fault f := rfl

@[simp] theorem andThen_refused (r : Refusal) (k : State → Answer) : andThen (.refused r) k = .refused r := rfl

/-- Two sub-steps answer a next state only through a state between them. -/
theorem andThen_cases (a : Answer) (k : State → Answer) (t : State) (h : andThen a k = .next t) :
    ∃ u, a = .next u ∧ k u = .next t := by
  cases a with
  | next s => exact ⟨s, rfl, h⟩
  | fault f => cases h
  | refused r => cases h

theorem andThen_assoc (a : Answer) (f g : State → Answer) :
    andThen (andThen a f) g = andThen a (fun s => andThen (f s) g) := by
  cases a <;> rfl

/-- A run of one more step is that step after the run. -/
theorem runSteps_succ (k : Nat) (s : State) : runSteps (k + 1) s = andThen (runSteps k s) step := by
  induction k generalizing s with
  | zero =>
    simp only [runSteps, andThen_next]
    cases step s <;> rfl
  | succ k ih =>
    rw [runSteps, runSteps, andThen_assoc]
    congr 1
    funext t
    exact ih t

/-- A slot there is, read through the two views of it. -/
theorem slot_of_lt (s : State) (i : Nat) (h : i < s.slots.length) :
    s.slots[i]? = some { code := codeAt s i, unread := unreadAt s i } := by
  rw [List.getElem?_eq_getElem h]
  simp [codeAt, unreadAt, List.getElem?_eq_getElem h]

theorem withSlot_of_lt (s : State) (i : Nat) (k : Slot → Answer) (h : i < s.slots.length) :
    withSlot s i k = k { code := codeAt s i, unread := unreadAt s i } := by
  simp [withSlot, slot_of_lt s i h]

/-- A slot read that answers a next state had a slot to read. -/
theorem withSlot_cases (s t : State) (i : Nat) (k : Slot → Answer) (h : withSlot s i k = .next t) :
    i < s.slots.length ∧ k { code := codeAt s i, unread := unreadAt s i } = .next t := by
  by_cases hi : i < s.slots.length
  · rw [withSlot_of_lt s i k hi] at h
    exact ⟨hi, h⟩
  · rw [withSlot, List.getElem?_eq_none (by omega)] at h
    cases h

theorem withCur_of_lt (s : State) (k : Code → Answer) (h : s.writeIndex < s.slots.length) :
    withCur s k = k (curCode s) := by
  simp [withCur, withSlot_of_lt s _ _ h, curCode]

theorem modify_eq_set (m : Memory) (i : Nat) (sl : Slot) (f : Slot → Slot) (h : m[i]? = some sl) :
    m.modify i f = m.set i (f sl) := by
  induction m generalizing i with
  | nil => simp at h
  | cons x xs ih => cases i <;> simp_all

/-- A write of `cur` is the write of one slot. -/
theorem modifyCur_of_lt (s : State) (f : Code → Code) (h : s.writeIndex < s.slots.length) :
    modifyCur s f = withCurCode s (f (curCode s)) := by
  unfold modifyCur withCurCode
  rw [modify_eq_set _ _ _ _ (slot_of_lt s _ h)]
  rfl

/-- A written slot reads as written; every other slot reads as before. -/
theorem codeAt_set (s : State) (i j : Nat) (sl : Slot) :
    codeAt { s with slots := s.slots.set i sl } j =
      if i = j ∧ j < s.slots.length then sl.code else codeAt s j := by
  by_cases hj : j < s.slots.length
  · by_cases h : i = j
    · simp [codeAt, h, hj]
    · simp [codeAt, h]
  · simp [codeAt, hj]

theorem unreadAt_set (s : State) (i j : Nat) (sl : Slot) :
    unreadAt { s with slots := s.slots.set i sl } j =
      if i = j ∧ j < s.slots.length then sl.unread else unreadAt s j := by
  by_cases hj : j < s.slots.length
  · by_cases h : i = j
    · simp [unreadAt, h, hj]
    · simp [unreadAt, h]
  · simp [unreadAt, hj]

/-- What two states hold in their slots depends on the slots alone. -/
theorem codeAt_congr (s t : State) (i : Nat) (h : s.slots = t.slots) : codeAt s i = codeAt t i := by
  simp [codeAt, h]

theorem unreadAt_congr (s t : State) (i : Nat) (h : s.slots = t.slots) : unreadAt s i = unreadAt t i := by
  simp [unreadAt, h]

/-- CLAIM, all it does. -/
theorem claim_of_lt (s : State) (h : s.writeIndex < s.slots.length) :
    claim s = .next { s with
      slots := s.slots.set s.writeIndex Slot.empty
      readIndex := if unreadAt s s.writeIndex then (s.readIndex + 1) % s.params.n else s.readIndex } := by
  rw [claim, withSlot_of_lt s _ _ h]
  rfl

/-- COMMIT, all it does. -/
theorem commit_of_lt (s : State) (h : s.writeIndex < s.slots.length) :
    commit s = .next { s with
      slots := s.slots.set s.writeIndex { code := committed (curCode s), unread := true }
      writeIndex := (s.writeIndex + 1) % s.params.n } := by
  rw [commit, withSlot_of_lt s _ _ h]
  rfl

/-- The message-start check, all it does. -/
theorem startCheck_of_lt (d : Time) (shared : Bool) (s : State) (h : s.writeIndex < s.slots.length) :
    startCheck d shared s = .next (afterStartCheck d shared s) := by
  unfold startCheck afterStartCheck
  by_cases hd : s.params.minPrePauseUs ≤ d.toNat
  · rw [if_pos ((startsMessage_iff _ _).2 hd), if_pos hd, claim_of_lt s h, andThen_next]
    congr 1
    unfold beginMessage startedMessage
    rw [modifyCur_of_lt _ _ (by simpa using h)]
    simp [withCurCode, curCode, codeAt, unreadAt, h, Slot.empty]
  · rw [if_neg (by simpa [startsMessage_iff] using hd), if_neg hd]

/-- ABORT, all it does. -/
theorem abort_of_lt (cause : AbortCause) (d : Time) (s : State) (h : s.writeIndex < s.slots.length) :
    abort cause d s = .next (afterStartCheck d (decide (cause = .decTooShort)) s) := by
  rw [abort, startCheck_of_lt _ _ { s with state := .awaitPause } h]
  rfl

/-- The guard of the foreground operations lets one through exactly while no transmission is in progress. -/
theorem whenIdle_of_idle (s : State) (a : Answer) (h : s.txBusy = false) : whenIdle s a = a := by
  simp [whenIdle, h]

theorem whenIdle_cases (s t : State) (a : Answer) (h : whenIdle s a = .next t) :
    s.txBusy = false ∧ a = .next t := by
  unfold whenIdle at h
  split at h
  · cases h
  · exact ⟨Bool.eq_false_iff.2 ‹_›, h⟩

end Sys2Proof.Machine
end

