-- ==== Sys2Proof/Laws/Memory.lean ====
section
/-! SUPPORT. The form of the slot space: every operation on it keeps the form, and reset has it. -/

namespace Sys2Proof.Machine

theorem Memory.wf_iff (p : Params) (m : Memory) :
    Memory.wf p m = true ↔ m.length = p.n ∧ ∀ sl ∈ m, sl.code.length ≤ p.bufBits := by
  simp [Memory.wf, Code.fits_iff]

/-- A write of one slot whose Code fits keeps the form. -/
theorem Memory.wf_set (p : Params) (m : Memory) (i : Nat) (sl : Slot) (h : Memory.wf p m = true)
    (hc : sl.code.length ≤ p.bufBits) : Memory.wf p (m.set i sl) = true := by
  rw [Memory.wf_iff] at h ⊢
  refine ⟨by simpa using h.1, fun x hx => ?_⟩
  rcases List.mem_or_eq_of_mem_set hx with hx | rfl
  · exact h.2 x hx
  · exact hc

/-- A change of one Code that keeps it within the buffer keeps the form. -/
theorem Memory.wf_modify (p : Params) (m : Memory) (i : Nat) (f : Slot → Slot) (h : Memory.wf p m = true)
    (hf : ∀ sl ∈ m, (f sl).code.length ≤ p.bufBits) : Memory.wf p (m.modify i f) = true := by
  cases hi : m[i]? with
  | none => rwa [List.modify_eq_self (by simpa using hi)]
  | some sl =>
    rw [modify_eq_set m i sl f hi]
    exact Memory.wf_set p m i _ h (hf sl (List.mem_of_getElem? hi))

/-- The slots after reset have the form. -/
theorem Memory.wf_reset (p : Params) : Memory.wf p (State.resetWith p).slots = true := by
  rw [Memory.wf_iff]
  refine ⟨by simp [State.resetWith], fun sl hsl => ?_⟩
  rw [State.resetWith, List.mem_replicate] at hsl
  rw [hsl.2]
  exact Nat.zero_le _

/-- A Code in a slot fits its buffer. -/
theorem codeAt_fits (s : State) (i : Nat) (h : Memory.wf s.params s.slots = true) :
    (codeAt s i).length ≤ s.params.bufBits := by
  unfold codeAt
  split
  · exact ((Memory.wf_iff _ _).1 h).2 _ (List.mem_of_getElem? ‹_›)
  · exact Nat.zero_le _

end Sys2Proof.Machine
end

