-- ==== Sys2Proof/Laws/Assembler.lean ====
section
/-! SUPPORT. For each sub-step of the edge handler one lemma that says what it answers. -/

namespace Sys2Proof.Machine

/-- APPEND, all it does. -/
theorem append_of_lt (b : Bool) (d : Time) (s : State) (h : s.writeIndex < s.slots.length)
    (hl : (curCode s).length < s.params.bufBits) : append b d s = .next (sampled b d s) := by
  rw [append, withCur_of_lt _ _ h, pushBit_some _ _ _ hl]
  simp only [modifyCur_of_lt _ _ h]
  simp [sampled, countSample, sampledCode, leastTime, greatestTime, withCurCode]

/-- COMPLETE, all it does. -/
theorem complete_of_lt (d : Time) (s : State) (h : s.writeIndex < s.slots.length)
    (h2 : (s.writeIndex + 1) % s.params.n < s.slots.length) :
    complete d s = .next (afterStartCheck d true (committedMessage s)) := by
  rw [complete, modifyCur_of_lt _ _ h, commit_of_lt _ (by simpa using h), andThen_next,
    startCheck_of_lt _ _ _ (by simpa using h2)]
  simp [afterStartCheck, committedMessage, withCurCode, curCode, h, committed, completedCode, startedMessage,
    codeAt, unreadAt]

/-- PREAMBLE, all it does. -/
theorem preamble_of_lt (d : Time) (s : State) (h : s.writeIndex < s.slots.length) :
    preamble d s = .next { withCurCode s
        { curCode s with preambleTime := (curCode s).preambleTime.set s.preambleCount d } with
      preambleCount := true
      state := if s.preambleCount then .calibrating else s.state } := by
  rw [preamble, withCur_of_lt _ _ h, modifyCur_of_lt _ _ h]
  cases hp : s.preambleCount <;> simp [withCurCode, hp]

/-- SWAP_ROLES, all it does. -/
theorem swapRoles_of_lt (s : State) (h : s.writeIndex < s.slots.length) :
    swapRoles s = { withCurCode s
        { invertBits (curCode s) with
          bitTotalTime := (curCode s).bitTotalTime.swap
          bitCount := (curCode s).bitCount.swap } with
      oneTime := s.zeroTime
      sampleMin := s.sampleMin.swap
      sampleMax := s.sampleMax.swap } := by
  simp [swapRoles, modifyCur_of_lt _ _ h, withCurCode]

/-- CONVERGE, all it does. -/
theorem converge_of_lt (d : Time) (s : State) (h : s.writeIndex < s.slots.length) :
    converge d s = .next
      (if converged (curCode s) s then { s with state := .decoding }
      else if s.params.maxSamples ≤ (curCode s).length then afterStartCheck d false s else s) := by
  rw [converge, withCur_of_lt _ _ h, abort_of_lt _ _ _ h]
  split
  · rfl
  · split <;> rfl

/-- What learning leaves alone: everything but the two estimates, and, in a role swap, the stored bits'
values and the statistics. -/
theorem learn_frame (d : Time) (s t : State) (b : Bool) (h : learn d s = some (b, t)) :
    t.params = s.params ∧ t.lastEdgeTime = s.lastEdgeTime ∧ t.prePauseTime = s.prePauseTime
      ∧ t.state = s.state ∧ t.preambleCount = s.preambleCount ∧ t.readIndex = s.readIndex
      ∧ t.writeIndex = s.writeIndex ∧ t.cfg = s.cfg ∧ t.txBusy = s.txBusy ∧ t.txPhase = s.txPhase
      ∧ t.txSchedule = s.txSchedule ∧ t.txPin = s.txPin ∧ t.txStart = s.txStart ∧ t.inputs = s.inputs
      ∧ t.result = s.result
      ∧ t.slots.length = s.slots.length ∧ (∀ i, i ≠ s.writeIndex → t.slots[i]? = s.slots[i]?)
      ∧ (curCode t).length = (curCode s).length := by
  unfold learn at h
  split at h
  · cases h
    simp [curCode, codeAt]
  · split at h
    · cases h
      simp [curCode, codeAt]
    · split at h
      · split at h
        · cases h
          by_cases hw : s.writeIndex < s.slots.length
          · rw [swapRoles_of_lt s hw]
            simp +contextual [withCurCode, curCode, codeAt, hw, eq_comm, Code.length, invertBits]
          · have : s.slots.modify s.writeIndex = fun _ => s.slots := by
              funext f
              exact List.modify_eq_self (by omega)
            simp [swapRoles, modifyCur, curCode, codeAt, this]
        · cases h
      · cases h
        simp [curCode, codeAt]

theorem handle_awaitPause (d : Time) (s : State) (h : s.state = .awaitPause) :
    handle d s = startCheck d false s := by
  unfold handle
  rw [h]

theorem handle_inPreamble (d : Time) (s : State) (h : s.state = .inPreamble) : handle d s = preamble d s := by
  unfold handle
  rw [h]

theorem handle_calibrating (d : Time) (s : State) (h : s.state = .calibrating) : handle d s = calibrate d s := by
  unfold handle
  rw [h]

theorem handle_decoding (d : Time) (s : State) (h : s.state = .decoding) : handle d s = decodeDuration d s := by
  unfold handle
  rw [h]

/-- The Code in progress after the append of a sample. -/
theorem curCode_sampled (b : Bool) (d : Time) (s : State) (h : s.writeIndex < s.slots.length) :
    curCode (sampled b d s) = sampledCode b d (curCode s) := by
  simp [curCode, codeAt, sampled, withCurCode, h]

/-- The Code in progress after a write of it. -/
theorem curCode_withCurCode (s : State) (c : Code) (h : s.writeIndex < s.slots.length) :
    curCode (withCurCode s c) = c := by
  simp [curCode, codeAt, withCurCode, h]

/-- CALIBRATING, all it does. -/
theorem calibrate_of_lt (d : Time) (s : State) (h : s.writeIndex < s.slots.length)
    (hl : (curCode s).length < s.params.bufBits) :
    calibrate d s = .next
      (match learn d s with
      | none => afterStartCheck d false s
      | some (b, u) =>
        if ratioBroken u then afterStartCheck d false u
        else if converged (curCode (sampled b d u)) (sampled b d u) then
          { sampled b d u with state := .decoding }
        else if s.params.maxSamples ≤ (curCode (sampled b d u)).length then
          afterStartCheck d false (sampled b d u)
        else sampled b d u) := by
  rw [calibrate, withCur_of_lt _ _ h]
  cases hL : learn d s with
  | none => exact abort_of_lt _ _ _ h
  | some bu =>
    obtain ⟨b, u⟩ := bu
    obtain ⟨hp, -, -, -, -, -, hw, -, -, -, -, -, -, -, -, hs, -, hc⟩ := learn_frame _ _ _ _ hL
    have hu : u.writeIndex < u.slots.length := by rw [hw, hs]; exact h
    simp only
    by_cases hr : ratioBroken u = true
    · rw [if_pos hr, if_pos hr]
      exact abort_of_lt _ _ _ hu
    · rw [if_neg hr, if_neg hr, append_of_lt _ _ _ hu (by rw [hc, hp]; exact hl), andThen_next,
        converge_of_lt _ _ (by simpa using hu)]
      simp [hp]

/-- DECODING, all it does. -/
theorem decodeDuration_of_lt (d : Time) (s : State) (h : s.writeIndex < s.slots.length)
    (h2 : (s.writeIndex + 1) % s.params.n < s.slots.length) (hb : s.params.maxLength ≤ s.params.bufBits) :
    decodeDuration d s = .next
      (if isPause s.params s.prePauseTime d then
        if s.params.minLength ≤ (curCode s).length then afterStartCheck d true (committedMessage s)
        else afterStartCheck d true s
      else
        match dataBit d s with
        | none => afterStartCheck d false s
        | some b =>
          if s.params.maxLength ≤ (curCode s).length then afterStartCheck d false s else sampled b d s) := by
  rw [decodeDuration, withCur_of_lt _ _ h, complete_of_lt _ _ h h2, abort_of_lt _ _ _ h, abort_of_lt _ _ _ h,
    abort_of_lt _ _ _ h]
  split
  · split <;> rfl
  · cases dataBit d s with
    | none => rfl
    | some b =>
      by_cases hm : s.params.maxLength ≤ (curCode s).length
      · simp only [if_pos hm]
        rfl
      · simp only [if_neg hm]
        exact append_of_lt _ _ _ h (by omega)

end Sys2Proof.Machine
end

