-- ==== Sys2Proof/Laws/Edge.lean ====
section
/-! SUPPORT. What the sub-steps of the edge handler can answer in any state, whether or not the write index names a
slot, and what they leave alone. -/

namespace Sys2Proof.Machine

/-- Everything an EDGE leaves alone: the foreground's side, the configuration, the number of slots and, in the
handler, the time stamp just stored. -/
def SameOutside (s t : State) : Prop :=
  t.cfg = s.cfg ∧ t.txBusy = s.txBusy ∧ t.txPhase = s.txPhase ∧ t.txSchedule = s.txSchedule
    ∧ t.txPin = s.txPin ∧ t.params = s.params ∧ t.inputs = s.inputs ∧ t.result = s.result
    ∧ t.slots.length = s.slots.length ∧ t.lastEdgeTime = s.lastEdgeTime ∧ t.txStart = s.txStart

theorem SameOutside.refl (s : State) : SameOutside s s := 
  ⟨rfl, rfl, rfl, rfl, rfl, rfl, rfl, rfl, rfl, rfl, rfl⟩

theorem SameOutside.trans {s t u : State} (h : SameOutside s t) (g : SameOutside t u) : SameOutside s u := by
  obtain ⟨a1, a2, a3, a4, a5, a6, a7, a8, a9, a10, a11⟩ := h
  obtain ⟨b1, b2, b3, b4, b5, b6, b7, b8, b9, b10, b11⟩ := g
  exact ⟨b1.trans a1, b2.trans a2, b3.trans a3, b4.trans a4, b5.trans a5, b6.trans a6, b7.trans a7, b8.trans a8,
    b9.trans a9, b10.trans a10, b11.trans a11⟩

theorem withCur_cases {s t : State} {k : Code → Answer} (h : withCur s k = .next t) :
    s.writeIndex < s.slots.length ∧ k (curCode s) = .next t :=
  withSlot_cases _ _ _ _ h

/-- The message-start check answers its one state; a message start needed its slot. -/
theorem startCheck_cases {d : Time} {shared : Bool} {s t : State} (h : startCheck d shared s = .next t) :
    t = afterStartCheck d shared s ∧ (s.params.minPrePauseUs ≤ d.toNat → s.writeIndex < s.slots.length) := by
  by_cases hd : s.params.minPrePauseUs ≤ d.toNat
  · have h' := h
    rw [startCheck, if_pos ((startsMessage_iff _ _).2 hd)] at h'
    obtain ⟨u, hu, -⟩ := andThen_cases _ _ _ h'
    have hw := (withSlot_cases _ _ _ _ hu).1
    rw [startCheck_of_lt _ _ _ hw] at h
    exact ⟨(Host.Outcome.next.inj h).symm, fun _ => hw⟩
  · rw [startCheck, if_neg (by rw [startsMessage_iff]; exact hd)] at h
    cases h
    exact ⟨by rw [afterStartCheck, if_neg hd], fun h => absurd h hd⟩

theorem append_cases {b : Bool} {d : Time} {s t : State} (h : append b d s = .next t) :
    s.writeIndex < s.slots.length ∧ (curCode s).length < s.params.bufBits ∧ t = sampled b d s := by
  obtain ⟨hw, h2⟩ := withCur_cases h
  cases hp : pushBit s.params (curCode s) b with
  | none =>
    rw [hp] at h2
    cases h2
  | some c' =>
    have hl := (pushBit_cases _ _ _ _ hp).1
    rw [append_of_lt _ _ _ hw hl] at h
    exact ⟨hw, hl, (Host.Outcome.next.inj h).symm⟩

/-- The frame of the message-start check. -/
theorem afterStartCheck_frame (d : Time) (shared : Bool) (s : State) :
    SameOutside s (afterStartCheck d shared s)
      ∧ ∀ i, i ≠ s.writeIndex → (afterStartCheck d shared s).slots[i]? = s.slots[i]? := by
  unfold afterStartCheck
  split
  · exact ⟨⟨rfl, rfl, rfl, rfl, rfl, rfl, rfl, rfl, by simp [startedMessage], rfl, rfl⟩,
      fun i hi => by simp [startedMessage, hi.symm]⟩
  · exact ⟨SameOutside.refl s, fun i _ => rfl⟩

/-- The frame of the append of a sample. -/
theorem sampled_frame (b : Bool) (d : Time) (s : State) :
    SameOutside s (sampled b d s) ∧ ∀ i, i ≠ s.writeIndex → (sampled b d s).slots[i]? = s.slots[i]? :=
  ⟨⟨rfl, rfl, rfl, rfl, rfl, rfl, rfl, rfl, by simp [sampled, withCurCode], rfl, rfl⟩,
    fun i hi => by simp [sampled, withCurCode, hi.symm]⟩

/-- The frame of learning. -/
theorem learn_sameOutside {d : Time} {s t : State} {b : Bool} (h : learn d s = some (b, t)) :
    SameOutside s t ∧ ∀ i, i ≠ s.writeIndex → t.slots[i]? = s.slots[i]? := by
  obtain ⟨h1, h2, -, -, -, -, -, h8, h9, h10, h11, h12, h13, h14, h15, h16, h17, -⟩ :=
    learn_frame _ _ _ _ h
  exact ⟨⟨h8, h9, h10, h11, h12, h1, h14, h15, h16, h2, h13⟩, h17⟩

end Sys2Proof.Machine
end

