-- ==== Sys2Proof/Laws/Encoding.lean ====
section
/-! SUPPORT. The three fields of a REQ word: reading them back, and words agreeing field by field. -/

namespace Sys2Proof

@[simp] theorem reqSel_reqWord (sel idx : BitVec 4) (data : BitVec 32) : reqSel (reqWord sel idx data) = sel := by
  unfold reqSel reqWord
  ext i hi
  rw [BitVec.getElem_extractLsb', BitVec.getLsbD_append, if_neg (by omega), BitVec.getLsbD_append,
    if_neg (by omega), show 36 + i - 32 - 4 = i by omega, BitVec.getLsbD_eq_getElem hi]

@[simp] theorem reqIdx_reqWord (sel idx : BitVec 4) (data : BitVec 32) : reqIdx (reqWord sel idx data) = idx := by
  unfold reqIdx reqWord
  ext i hi
  rw [BitVec.getElem_extractLsb', BitVec.getLsbD_append, if_neg (by omega), BitVec.getLsbD_append,
    if_pos (by omega), show 32 + i - 32 = i by omega, BitVec.getLsbD_eq_getElem hi]

@[simp] theorem reqData_reqWord (sel idx : BitVec 4) (data : BitVec 32) :
    reqData (reqWord sel idx data) = data := by
  unfold reqData reqWord
  ext i hi
  rw [BitVec.getElem_extractLsb', BitVec.getLsbD_append, if_pos (by omega), Nat.zero_add,
    BitVec.getLsbD_eq_getElem hi]

/-- A REQ word is its three fields. -/
theorem reqWord_eta (w : BitVec 40) : reqWord (reqSel w) (reqIdx w) (reqData w) = w := by
  unfold reqSel reqIdx reqData reqWord
  ext i hi
  simp only [BitVec.getElem_append, BitVec.getElem_extractLsb']
  split
  · simp [BitVec.getLsbD_eq_getElem hi]
  · split
    · rw [show 32 + (i - 32) = i by omega, BitVec.getLsbD_eq_getElem hi]
    · rw [show 36 + (i - 32 - 4) = i by omega, BitVec.getLsbD_eq_getElem hi]

theorem reqWord_inj {a b c d : BitVec 4} {x y : BitVec 32} :
    reqWord a b x = reqWord c d y ↔ a = c ∧ b = d ∧ x = y := by
  refine ⟨fun h => ⟨?_, ?_, ?_⟩, fun ⟨h1, h2, h3⟩ => by rw [h1, h2, h3]⟩
  · rw [← reqSel_reqWord a b x, h, reqSel_reqWord]
  · rw [← reqIdx_reqWord a b x, h, reqIdx_reqWord]
  · rw [← reqData_reqWord a b x, h, reqData_reqWord]

/-- A mask acts on the three fields apart. -/
theorem reqWord_and (a b c d : BitVec 4) (x y : BitVec 32) :
    reqWord a b x &&& reqWord c d y = reqWord (a &&& c) (b &&& d) (x &&& y) := by
  apply BitVec.eq_of_getLsbD_eq
  intro i hi
  rw [BitVec.getLsbD_and]
  simp only [reqWord, BitVec.getLsbD_append]
  split
  · rw [BitVec.getLsbD_and]
  · split <;> rw [BitVec.getLsbD_and]

/-! The three masks of `Instr.usedBits`. -/

theorem reqWord_mask_data (sel : BitVec 4) (data : BitVec 32) :
    reqWord sel 0#4 data &&& 0xF0FFFFFFFF#40 = reqWord sel 0#4 data := by
  rw [show (0xF0FFFFFFFF#40) = reqWord (BitVec.allOnes 4) 0#4 (BitVec.allOnes 32) by decide, reqWord_and,
    BitVec.and_allOnes, BitVec.and_allOnes, BitVec.and_self]

theorem reqWord_mask_all (sel idx : BitVec 4) (data : BitVec 32) :
    reqWord sel idx data &&& 0xFFFFFFFFFF#40 = reqWord sel idx data := by
  rw [show (0xFFFFFFFFFF#40) = BitVec.allOnes 40 by decide, BitVec.and_allOnes]

theorem reqWord_mask_selector (sel : BitVec 4) :
    reqWord sel 0#4 0#32 &&& 0xF000000000#40 = reqWord sel 0#4 0#32 := by
  rw [show (0xF000000000#40) = reqWord (BitVec.allOnes 4) 0#4 0#32 by decide, reqWord_and, BitVec.and_allOnes,
    BitVec.and_self, BitVec.and_self]

end Sys2Proof
end

