-- ==== Sys2Proof/Laws/Foreground.lean ====
section
/-! SUPPORT. The shared operations of the foreground and of the agents: which input is taken, what finalize and the
schedule can answer, and how the decoders' values read bits. -/

namespace Sys2Proof.Machine

/-! ### The agents -/

/-- The input taken does not wait for the foreground while a transmission is in progress. -/
theorem takeInput_takes {b : Bool} {xs rest : List Input} {x : Input} (h : takeInput b xs = some (x, rest)) :
    b = true → waitsForForeground x = false := by
  induction xs generalizing rest with
  | nil => cases h
  | cons y ys ih =>
    intro hb
    rw [takeInput] at h
    split at h
    · rw [Option.map_eq_some_iff] at h
      obtain ⟨⟨a, c⟩, h1, h2⟩ := h
      cases h2
      exact ih h1 hb
    · cases h
      simp_all

/-- Behind inputs that all wait, the first that does not is taken. -/
theorem takeInput_behind (waiting rest : List Input) (x : Input) (hw : ∀ y ∈ waiting, waitsForForeground y = true)
    (hx : waitsForForeground x = false) :
    takeInput true (waiting ++ x :: rest) = some (x, waiting ++ rest) := by
  induction waiting with
  | nil => simp [takeInput, hx]
  | cons y ys ih => simp [takeInput, hw y (by simp), ih fun z hz => hw z (by simp [hz])]

/-- Where all inputs wait none is taken. -/
theorem takeInput_none (waiting : List Input) (hw : ∀ y ∈ waiting, waitsForForeground y = true) :
    takeInput true waiting = none := by
  induction waiting with
  | nil => rfl
  | cons y ys ih => simp [takeInput, hw y (by simp), ih fun z hz => hw z (by simp [hz])]

/-- A request that names an operation is ignored exactly when it is a CFG_GET of an index 8 to 15 where the
configuration says so. -/
theorem ignoredRequest_iff {p : Params} {r : Request} {i : Instr} (h : decode r = .ok i) :
    ignoredRequest p r = true ↔ p.cfgGetIndex = .reserved ∧ i = .cfgGet ∧ 8 ≤ (reqIdx r.word).toNat := by
  have hs : reqSel r.word = 0x9#4 ↔ i = .cfgGet := by
    rw [← BitVec.toNat_inj]
    unfold decode at h
    split at h <;> first | (cases h; simp_all) | cases h
  simp [ignoredRequest, hs, and_assoc]

/-- An operation's canonical request is never ignored: its unused `idx` is 0. -/
theorem ignoredRequest_encode (p : Params) (i : Instr) : ignoredRequest p (encode i) = false := by
  cases i <;> simp [ignoredRequest, encode, plainRequest]

/-- What a request can lead to: nothing, where it names no operation or is ignored, or the operation it names. -/
theorem runRequest_cases {r : Request} {s t : State} (h : runRequest r s = .next t) :
    (t = s ∧ ((∃ e, decode r = .error e) ∨ ignoredRequest s.params r = true))
      ∨ ∃ i, decode r = .ok i ∧ ignoredRequest s.params r = false ∧ i.wellFormed s.params = true
        ∧ exec i s = .next t := by
  unfold runRequest at h
  split at h
  · split at h
    · cases h
      exact .inl ⟨rfl, .inr (by assumption)⟩
    · split at h
      · exact .inr ⟨_, by assumption, Bool.eq_false_of_not_eq_true (by assumption), by assumption, h⟩
      · cases h
  · cases h
    exact .inl ⟨rfl, .inl ⟨_, by assumption⟩⟩

/-! ### Finalize -/

/-- What the fold can answer: the Code as it was, or both preamble bits first and the preamble cleared. -/
theorem foldPreamble_cases {p : Params} {c c' : Code} (h : foldPreamble p c = some c') :
    (preambleBits p c = none ∧ c' = c)
      ∨ ∃ b0 b1, preambleBits p c = some (b0, b1) ∧ c.length + 2 ≤ p.bufBits
        ∧ c' = { c with
            bits := b0 :: b1 :: c.bits
            preambleTime := { at0 := 0#32, at1 := 0#32 } } := by
  unfold foldPreamble at h
  split at h
  · cases h
    exact .inl ⟨by assumption, rfl⟩
  · rename_i b0 b1 hb
    rw [Option.map_eq_some_iff] at h
    obtain ⟨x, hx, rfl⟩ := h
    obtain ⟨h1, rfl⟩ := foldShift_cases _ _ _ _ _ hx
    exact .inr ⟨b0, b1, hb, h1, rfl⟩

/-- The class of a preamble duration as a data bit. -/
theorem dataBit_iff (x : PreambleClass) (b : Bool) :
    x.dataBit = some b ↔ (if b then x = .one else x = .zero) := by
  cases x <;> cases b <;> simp [PreambleClass.dataBit]

/-- The preamble of a Code with its averages folds exactly where R133 says so. -/
theorem preambleBits_isSome_iff (p : Params) (c : Code) :
    (preambleBits p c).isSome = true ↔ Folds p c c.bitTime.at0 c.bitTime.at1 := by
  unfold preambleBits Folds
  split
  · rename_i h
    obtain ⟨h1, h2, h3, h4⟩ := h
    cases pclass p c.preambleTime.at0 c.bitTime.at0 c.bitTime.at1 <;>
      cases pclass p c.preambleTime.at1 c.bitTime.at0 c.bitTime.at1 <;>
      simp [PreambleClass.dataBit, h1, h2, h3, h4]
  · rename_i h
    exact ⟨fun h2 => by simp at h2, fun h2 => absurd ⟨h2.1, h2.2.1, h2.2.2.1, h2.2.2.2.1⟩ h⟩

/-! ### The schedule -/

theorem toggled_length (b : Bool) (l : List Time) : (toggled b l).length = l.length := by
  induction l generalizing b with
  | nil => rfl
  | cons d l ih => simp [toggled, ih]

/-- Pulse `k` has the first level exactly when `k` is even. -/
theorem toggled_getElem? (b : Bool) (l : List Time) (k : Nat) :
    (toggled b l)[k]? = (l[k]?).map (fun d => { level := if k % 2 = 0 then b else !b, duration := d }) := by
  induction l generalizing b k with
  | nil => simp [toggled]
  | cons d l ih =>
    cases k with
    | zero => simp [toggled]
    | succ k =>
      simp only [toggled, List.getElem?_cons_succ, ih]
      congr 1
      funext d
      rcases Nat.mod_two_eq_zero_or_one k with h | h <;>
        simp [h, show (k + 1) % 2 = if k % 2 = 0 then 1 else 0 by split <;> omega]

theorem toggled_durations (b : Bool) (l : List Time) : (toggled b l).map (fun seg => seg.duration) = l := by
  induction l generalizing b with
  | nil => rfl
  | cons d l ih => simp [toggled, ih]

theorem repetition_length (c : Code) (cfg : TxConfig) (i : Nat) :
    (repetition c cfg i).length = (pulses c cfg).length + if i = 0 then 0 else 1 := by
  simp only [repetition, List.length_append, toggled_length]
  split <;> simp
  omega

theorem repetitions_length (c : Code) (cfg : TxConfig) (n : Nat) :
    ((List.range n).flatMap (repetition c cfg)).length = n * (pulses c cfg).length + (n - 1) := by
  induction n with
  | zero => simp
  | succ n ih =>
    rw [List.range_succ, List.flatMap_append, List.length_append, ih]
    simp only [List.flatMap_cons, List.flatMap_nil, List.append_nil, repetition_length]
    rw [Nat.succ_mul]
    split
    · subst_vars
      simp
    · omega

/-- A segment of repetition `i`, found in the whole. -/
theorem repetitions_getElem? (c : Code) (cfg : TxConfig) (n i j : Nat) (hi : i < n)
    (hj : j < (repetition c cfg i).length) :
    ((List.range n).flatMap (repetition c cfg))[i * (pulses c cfg).length + (i - 1) + j]? =
      (repetition c cfg i)[j]? := by
  induction n with
  | zero => omega
  | succ n ih =>
    rw [List.range_succ, List.flatMap_append]
    simp only [List.flatMap_cons, List.flatMap_nil, List.append_nil]
    rcases Nat.lt_or_ge i n with h | h
    · rw [List.getElem?_append_left, ih h]
      have hm : (i + 1) * (pulses c cfg).length ≤ n * (pulses c cfg).length := Nat.mul_le_mul_right _ h
      rw [Nat.succ_mul] at hm
      rw [repetitions_length]
      rw [repetition_length] at hj
      split at hj <;> omega
    · have hin : i = n := by omega
      subst hin
      rw [List.getElem?_append_right (by rw [repetitions_length]; omega), repetitions_length,
        Nat.add_sub_cancel_left]

/-- The last segment of every schedule is the post-pause. -/
theorem schedule_getLast? (c : Code) (cfg : TxConfig) :
    (schedule c cfg).getLast? = some { level := false, duration := cfg.postPause } := by
  simp [schedule, List.getLast?_cons]

theorem totalTime_cons (d : Time) (l : List Time) : totalTime (d :: l) = d.toNat + totalTime l := by
  simp [totalTime]

theorem totalTime_append (l m : List Time) : totalTime (l ++ m) = totalTime l + totalTime m := by
  simp [totalTime]

/-! ### The decoders -/

/-- One more bit, the least significant. -/
theorem bitsValue_append (l : List Bool) (b : Bool) : bitsValue (l ++ [b]) = 2 * bitsValue l + b.toNat := by
  simp [bitsValue]

/-- One more bit, the least significant, in front. -/
theorem v2aValue_cons (b : Bool) (l : List Bool) : v2aValue (b :: l) = b.toNat + 2 * v2aValue l := by
  rw [v2aValue, List.reverse_cons, bitsValue_append, v2aValue]
  omega

/-- Data bit `k` is bit `k` of the value. -/
theorem v2aValue_testBit (l : List Bool) (k : Nat) : (v2aValue l).testBit k = l.getD k false := by
  induction l generalizing k with
  | nil => simp [v2aValue, bitsValue]
  | cons b l ih =>
    rw [v2aValue_cons]
    cases k with
    | zero => cases b <;> simp [Nat.testBit_zero]
    | succ k =>
      rw [Nat.testBit_succ, List.getD_cons_succ, ← ih]
      congr 1
      cases b
      · simp
      · simp
        omega

/-- A bit of the sequence within its length, by the default read and by the optional one. -/
theorem codeBit_eq_false_iff {c : Code} {j : Nat} (hj : j < c.length) :
    codeBit c j = false ↔ c.bits[j]? = some false := by
  have h : j < c.bits.length := hj
  rw [codeBit, List.getD_eq_getElem _ _ h, List.getElem?_eq_getElem h]
  simp

/-- A table lookup over a list answers exactly where it does on every element. -/
theorem mapM_isSome {α β : Type} (f : α → Option β) (l : List α) :
    (l.mapM f).isSome = true ↔ ∀ x ∈ l, (f x).isSome = true := by
  induction l with
  | nil => simp
  | cons a l ih =>
    rw [List.mapM_cons]
    cases h : f a with
    | none => simp [h]
    | some b =>
      cases h2 : l.mapM f with
      | none =>
        rw [h2] at ih
        simp [h]
        simpa using ih
      | some c =>
        rw [h2] at ih
        simp [h]
        simpa using ih

end Sys2Proof.Machine
end

