-- ==== Sys2Proof/Laws/Ring.lean ====
section
/-! SUPPORT. The ring as a queue: how many unread Codes there are, and what CLAIM, COMMIT and POP do to them. -/

namespace Sys2Proof.Machine

/-- Two offsets below `n` from one start name one slot only if they are equal. -/
theorem offset_inj (n r i j : Nat) (hi : i < n) (hj : j < n) (h : (r + i) % n = (r + j) % n) : i = j := by
  have h' : i % n = j % n := Nat.ModEq.add_left_cancel' r h
  rwa [Nat.mod_eq_of_lt hi, Nat.mod_eq_of_lt hj] at h'

/-- Every slot is some offset from a start. -/
theorem exists_offset (n r i : Nat) (hr : r < n) (hi : i < n) : ∃ j < n, (r + j) % n = i := by
  refine ⟨(i + n - r) % n, Nat.mod_lt _ (by omega), ?_⟩
  rw [Nat.add_mod_mod, show r + (i + n - r) = i + n by omega, Nat.add_mod_right, Nat.mod_eq_of_lt hi]

/-- The ring holds `k` unread Codes from `readIndex` on (R175). -/
structure RingHolds (s : State) (k : Nat) : Prop where
  read : s.readIndex < s.params.n
  count : k ≤ s.params.n
  write : s.writeIndex = (s.readIndex + k) % s.params.n
  unread : ∀ j < s.params.n, unreadAt s ((s.readIndex + j) % s.params.n) = decide (j < k)

/-- R175's formula counts the unread Codes. -/
theorem RingHolds.unreadCount_eq {s : State} {k : Nat} (h : RingHolds s k) : unreadCount s = k := by
  have hr := h.read
  have hk := h.count
  have h0 := h.unread 0 (by omega)
  rw [Nat.add_zero, Nat.mod_eq_of_lt hr] at h0
  rcases Nat.lt_or_ge k s.params.n with hlt | hge
  · have hne : ¬(unreadAt s s.readIndex = true ∧ s.readIndex = s.writeIndex) := by
      rintro ⟨hu, he⟩
      rw [h0, decide_eq_true_eq] at hu
      have := offset_inj s.params.n s.readIndex 0 k (by omega) hlt (by
        rw [← h.write, ← he, Nat.add_zero, Nat.mod_eq_of_lt hr])
      omega
    rw [unreadCount, if_neg hne, h.write]
    rcases Nat.lt_or_ge (s.readIndex + k) s.params.n with h1 | h1
    · rw [Nat.mod_eq_of_lt h1, show s.readIndex + k + s.params.n - s.readIndex = k + s.params.n by omega,
        Nat.add_mod_right, Nat.mod_eq_of_lt hlt]
    · rw [Nat.mod_eq_sub_mod h1, Nat.mod_eq_of_lt (a := s.readIndex + k - s.params.n) (by omega),
        show s.readIndex + k - s.params.n + s.params.n - s.readIndex = k by omega, Nat.mod_eq_of_lt hlt]
  · have hkn : k = s.params.n := by omega
    have hw : s.writeIndex = s.readIndex := by
      rw [h.write, hkn, Nat.add_mod_right, Nat.mod_eq_of_lt hr]
    rw [unreadCount, if_pos ⟨by rw [h0]; exact decide_eq_true (by omega), hw.symm⟩, hkn]

/-- The forms of the slots and of the ring say that the ring holds its `unreadCount` Codes. -/
theorem ringHolds_of_forms (s : State) (hs : SlotForm s) (hr : RingForm s) : RingHolds s (unreadCount s) := by
  obtain ⟨-, hread, hwrite, -⟩ := hs
  have hmod : (s.writeIndex + s.params.n - s.readIndex) % s.params.n < s.params.n := Nat.mod_lt _ (by omega)
  refine ⟨hread, ?_, ?_, hr⟩
  · unfold unreadCount
    split <;> omega
  · unfold unreadCount
    split
    · rename_i hfull
      rw [Nat.add_mod_right, Nat.mod_eq_of_lt hread]
      exact hfull.2.symm
    · rw [Nat.add_mod_mod, show s.readIndex + (s.writeIndex + s.params.n - s.readIndex)
        = s.writeIndex + s.params.n by omega, Nat.add_mod_right, Nat.mod_eq_of_lt hwrite]

/-- The unread Codes by their number. -/
theorem RingHolds.unreadCodes_eq {s : State} {k : Nat} (h : RingHolds s k) :
    unreadCodes s = (List.range k).map (fun j => codeAt s ((s.readIndex + j) % s.params.n)) := by
  rw [unreadCodes, h.unreadCount_eq]

/-- The write slot is unread exactly when the ring is full. -/
theorem RingHolds.write_unread {s : State} {k : Nat} (h : RingHolds s k) :
    unreadAt s s.writeIndex = decide (k = s.params.n) := by
  rcases Nat.lt_or_ge k s.params.n with hlt | hge
  · rw [h.write, h.unread k hlt]
    simp [Nat.ne_of_lt hlt]
  · have hk := h.count
    have hr := h.read
    have h0 := h.unread 0 (by omega)
    have hkn : k = s.params.n := by omega
    rw [h.write, hkn, Nat.add_mod_right]
    rw [Nat.add_zero] at h0
    rw [h0]
    simp
    omega

/-- A state with the ring's part of another. -/
theorem RingHolds.congr {s t : State} {k : Nat} (h : RingHolds s k) (hp : t.params = s.params)
    (hr : t.readIndex = s.readIndex) (hw : t.writeIndex = s.writeIndex)
    (hu : ∀ i, unreadAt t i = unreadAt s i) : RingHolds t k := by
  refine ⟨by rw [hr, hp]; exact h.read, by rw [hp]; exact h.count, by rw [hw, hr, hp]; exact h.write, ?_⟩
  intro j hj
  rw [hu, hr, hp]
  exact h.unread j (by rw [← hp]; exact hj)

/-- A write of the Code in progress changes no unread Code. -/
theorem RingHolds.unreadCodes_of_write {s t : State} {k : Nat} (h : RingHolds s k)
    (hu : unreadAt s s.writeIndex = false) (ht : RingHolds t k) (hp : t.params = s.params)
    (hr : t.readIndex = s.readIndex) (hc : ∀ i, i ≠ s.writeIndex → codeAt t i = codeAt s i) :
    unreadCodes t = unreadCodes s := by
  rw [ht.unreadCodes_eq, h.unreadCodes_eq, hr, hp]
  apply List.map_congr_left
  intro j hj
  rw [List.mem_range] at hj
  apply hc
  intro he
  have hk := h.count
  have := h.unread j (by omega)
  rw [he, hu, decide_eq_true hj] at this
  cases this

/-- A step of the read index past the oldest Code. -/
theorem map_succ_offset (f : Nat → Code) (n r k : Nat) :
    (List.range k).map (fun j => f (((r + 1) % n + j) % n)) =
      ((List.range (k + 1)).map (fun j => f ((r + j) % n))).tail := by
  rw [List.range_succ_eq_map]
  simp only [List.map_cons, List.tail_cons, List.map_map]
  apply List.map_congr_left
  intro j _
  simp only [Function.comp, Nat.mod_add_mod]
  congr 2
  omega

/-- CLAIM on the ring (R171): with all slots unread the oldest Code goes; otherwise nothing does. -/
theorem RingHolds.claim {s t : State} {k : Nat} (h : RingHolds s k) (sl : Slot) (hsl : sl.unread = false)
    (hlen : s.slots.length = s.params.n) (hp : t.params = s.params) (hw : t.writeIndex = s.writeIndex)
    (hs : t.slots = s.slots.set s.writeIndex sl)
    (hr : t.readIndex = if unreadAt s s.writeIndex then (s.readIndex + 1) % s.params.n else s.readIndex) :
    RingHolds t (if k = s.params.n then k - 1 else k) ∧ unreadAt t t.writeIndex = false
      ∧ unreadCodes t = dropIfFull s.params.n (unreadCodes s) := by
  have hk := h.count
  have hread := h.read
  have hwlt : s.writeIndex < s.params.n := by rw [h.write]; exact Nat.mod_lt _ (by omega)
  have hun : ∀ i, unreadAt t i = if s.writeIndex = i then false else unreadAt s i := by
    intro i
    rw [unreadAt_congr t { s with slots := s.slots.set s.writeIndex sl } i hs, unreadAt_set]
    by_cases he : s.writeIndex = i
    · rw [if_pos ⟨he, by omega⟩, if_pos he, hsl]
    · rw [if_neg (by tauto), if_neg he]
  have hco : ∀ i, i ≠ s.writeIndex → codeAt t i = codeAt s i := by
    intro i he
    rw [codeAt_congr t { s with slots := s.slots.set s.writeIndex sl } i hs, codeAt_set, if_neg (by tauto)]
  have hlenq : (unreadCodes s).length = k := by simp [h.unreadCodes_eq]
  by_cases hf : k = s.params.n
  · rw [h.write_unread, if_pos (decide_eq_true hf)] at hr
    have hwr : s.writeIndex = s.readIndex := by
      rw [h.write, hf, Nat.add_mod_right, Nat.mod_eq_of_lt hread]
    have hring : RingHolds t (k - 1) := by
      refine ⟨by rw [hr, hp]; exact Nat.mod_lt _ (by omega), by rw [hp]; omega, ?_, ?_⟩
      · rw [hw, hr, hp, Nat.mod_add_mod, show s.readIndex + 1 + (k - 1) = s.readIndex + k by omega]
        exact h.write
      · intro j hj
        rw [hp] at hj
        rw [hr, hp, Nat.mod_add_mod, hun]
        rcases Nat.lt_or_ge (j + 1) s.params.n with h1 | h1
        · have hne : s.writeIndex ≠ (s.readIndex + 1 + j) % s.params.n := by
            intro he
            have := offset_inj s.params.n s.readIndex 0 (j + 1) (by omega) h1 (by
              rw [Nat.add_zero, Nat.mod_eq_of_lt hread, ← hwr, he]
              congr 1
              omega)
            omega
          rw [if_neg hne, show s.readIndex + 1 + j = s.readIndex + (j + 1) by omega, h.unread _ h1]
          exact decide_eq_decide.2 (by omega)
        · rw [if_pos (by
            rw [hwr, show s.readIndex + 1 + j = s.readIndex + s.params.n by omega, Nat.add_mod_right,
              Nat.mod_eq_of_lt hread])]
          exact (decide_eq_false (by omega)).symm
    refine ⟨by rw [if_pos hf]; exact hring, by rw [hun, hw, if_pos rfl], ?_⟩
    rw [dropIfFull, if_pos (by rw [hlenq, hf]), hring.unreadCodes_eq, h.unreadCodes_eq, hp, hr,
      show (List.range k) = List.range (k - 1 + 1) by rw [show k - 1 + 1 = k by omega],
      ← map_succ_offset (codeAt s)]
    apply List.map_congr_left
    intro j hj
    rw [List.mem_range] at hj
    apply hco
    intro he
    rw [Nat.mod_add_mod, hwr, show s.readIndex + 1 + j = s.readIndex + (j + 1) by omega] at he
    have := offset_inj s.params.n s.readIndex 0 (j + 1) (by omega) (by omega)
      (by rw [he, Nat.add_zero, Nat.mod_eq_of_lt hread])
    omega
  · have hfull : unreadAt s s.writeIndex = false := by rw [h.write_unread]; exact decide_eq_false hf
    rw [hfull] at hr
    have hring : RingHolds t k := by
      refine h.congr hp hr hw fun i => ?_
      rw [hun]
      split
      · rename_i he
        rw [← he, hfull]
      · rfl
    refine ⟨by rw [if_neg hf]; exact hring, by rw [hun, hw, if_pos rfl], ?_⟩
    rw [dropIfFull, if_neg (by rw [hlenq]; exact hf)]
    exact h.unreadCodes_of_write hfull hring hp hr hco

/-- COMMIT on the ring (R172): the Code of the write slot becomes the newest unread one. -/
theorem RingHolds.commit {s t : State} {k : Nat} (h : RingHolds s k) (c : Code)
    (hu : unreadAt s s.writeIndex = false) (hlen : s.slots.length = s.params.n) (hp : t.params = s.params)
    (hr : t.readIndex = s.readIndex) (hw : t.writeIndex = (s.writeIndex + 1) % s.params.n)
    (hs : t.slots = s.slots.set s.writeIndex { code := c, unread := true }) :
    RingHolds t (k + 1) ∧ unreadCodes t = unreadCodes s ++ [c] := by
  have hk := h.count
  have hread := h.read
  have hwlt : s.writeIndex < s.params.n := by rw [h.write]; exact Nat.mod_lt _ (by omega)
  have hlt : k < s.params.n := by
    have := h.write_unread
    rw [hu] at this
    have := of_decide_eq_false this.symm
    omega
  have hun : ∀ i, unreadAt t i = if s.writeIndex = i then true else unreadAt s i := by
    intro i
    rw [unreadAt_congr t { s with slots := s.slots.set s.writeIndex ⟨c, true⟩ } i hs, unreadAt_set]
    by_cases he : s.writeIndex = i
    · rw [if_pos ⟨he, by omega⟩, if_pos he]
    · rw [if_neg (by tauto), if_neg he]
  have hco : ∀ i, codeAt t i = if s.writeIndex = i then c else codeAt s i := by
    intro i
    rw [codeAt_congr t { s with slots := s.slots.set s.writeIndex ⟨c, true⟩ } i hs, codeAt_set]
    by_cases he : s.writeIndex = i
    · rw [if_pos ⟨he, by omega⟩, if_pos he]
    · rw [if_neg (by tauto), if_neg he]
  have hring : RingHolds t (k + 1) := by
    refine ⟨by rw [hr, hp]; exact hread, by rw [hp]; omega, ?_, ?_⟩
    · rw [hw, hr, hp, h.write, Nat.mod_add_mod]
      congr 1
    · intro j hj
      rw [hp] at hj
      rw [hr, hp, hun]
      by_cases he : j = k
      · rw [if_pos (by rw [h.write, he])]
        exact (decide_eq_true (by omega)).symm
      · rw [if_neg (by
          intro hc
          rw [h.write] at hc
          exact he (offset_inj _ _ _ _ hlt hj hc).symm), h.unread j hj]
        exact decide_eq_decide.2 (by omega)
  refine ⟨hring, ?_⟩
  rw [hring.unreadCodes_eq, h.unreadCodes_eq, hr, hp, List.range_succ, List.map_append]
  congr 1
  · apply List.map_congr_left
    intro j hj
    rw [List.mem_range] at hj
    rw [hco, if_neg]
    intro hc
    rw [h.write] at hc
    have := offset_inj _ _ _ _ hlt (by omega) hc
    omega
  · simp [hco, h.write]

/-- POP on the ring (R174): the oldest unread Code goes. -/
theorem RingHolds.pop {s t : State} {k : Nat} (h : RingHolds s (k + 1)) (sl : Slot) (hsl : sl.unread = false)
    (hlen : s.slots.length = s.params.n) (hp : t.params = s.params) (hw : t.writeIndex = s.writeIndex)
    (hr : t.readIndex = (s.readIndex + 1) % s.params.n) (hs : t.slots = s.slots.set s.readIndex sl) :
    RingHolds t k ∧ unreadCodes s = codeAt s s.readIndex :: unreadCodes t := by
  have hk := h.count
  have hread := h.read
  have hun : ∀ i, unreadAt t i = if s.readIndex = i then false else unreadAt s i := by
    intro i
    rw [unreadAt_congr t { s with slots := s.slots.set s.readIndex sl } i hs, unreadAt_set]
    by_cases he : s.readIndex = i
    · rw [if_pos ⟨he, by omega⟩, if_pos he, hsl]
    · rw [if_neg (by tauto), if_neg he]
  have hco : ∀ i, i ≠ s.readIndex → codeAt t i = codeAt s i := by
    intro i he
    rw [codeAt_congr t { s with slots := s.slots.set s.readIndex sl } i hs, codeAt_set, if_neg (by tauto)]
  have hring : RingHolds t k := by
    refine ⟨by rw [hr, hp]; exact Nat.mod_lt _ (by omega), by rw [hp]; omega, ?_, ?_⟩
    · rw [hw, hr, hp, Nat.mod_add_mod, h.write]
      congr 1
      omega
    · intro j hj
      rw [hp] at hj
      rw [hr, hp, Nat.mod_add_mod, hun, show s.readIndex + 1 + j = s.readIndex + (j + 1) by omega]
      rcases Nat.lt_or_ge (j + 1) s.params.n with h1 | h1
      · rw [if_neg, h.unread _ h1]
        · exact decide_eq_decide.2 (by omega)
        · intro he
          have := offset_inj s.params.n s.readIndex 0 (j + 1) (by omega) h1 (by
            rw [Nat.add_zero, Nat.mod_eq_of_lt hread, ← he])
          omega
      · rw [if_pos (by
          rw [show s.readIndex + (j + 1) = s.readIndex + s.params.n by omega, Nat.add_mod_right,
            Nat.mod_eq_of_lt hread])]
        exact (decide_eq_false (by omega)).symm
  refine ⟨hring, ?_⟩
  rw [hring.unreadCodes_eq, h.unreadCodes_eq, hp, hr]
  have htail : (List.range k).map (fun j => codeAt t (((s.readIndex + 1) % s.params.n + j) % s.params.n)) =
      (List.range k).map (fun j => codeAt s (((s.readIndex + 1) % s.params.n + j) % s.params.n)) := by
    apply List.map_congr_left
    intro j hj
    rw [List.mem_range] at hj
    apply hco
    intro he
    rw [Nat.mod_add_mod, show s.readIndex + 1 + j = s.readIndex + (j + 1) by omega] at he
    have := offset_inj s.params.n s.readIndex 0 (j + 1) (by omega) (by omega)
      (by rw [he, Nat.add_zero, Nat.mod_eq_of_lt hread])
    omega
  rw [htail, map_succ_offset (codeAt s)]
  rw [List.range_succ_eq_map]
  simp [Nat.mod_eq_of_lt hread]

end Sys2Proof.Machine
end

