-- ==== Sys2Proof/Laws/Invariant.lean ====
section
/-! SUPPORT. What each sub-step of the edge handler keeps of the block's invariant, and what it does to the queue of
unread Codes. -/

namespace Sys2Proof.Machine

/-- The part of the invariant that holds whatever the assembler's state is. -/
structure Base (s : State) : Prop where
  config : s.params.wellFormed = true
  slots : SlotForm s
  ring : RingForm s
  send : SendForm s

theorem base_of_inv {s : State} (h : BlockInv s) : Base s := ⟨h.config, h.slots, h.ring, h.send⟩

theorem Base.holds {s : State} (h : Base s) : RingHolds s (unreadCount s) :=
  ringHolds_of_forms s h.slots h.ring

theorem Base.length_slots {s : State} (h : Base s) : s.slots.length = s.params.n :=
  ((Memory.wf_iff _ _).1 h.slots.1).1

theorem Base.write_lt {s : State} (h : Base s) : s.writeIndex < s.slots.length := by
  rw [h.length_slots]
  exact h.slots.2.2.1

theorem Base.next_lt {s : State} (h : Base s) : (s.writeIndex + 1) % s.params.n < s.slots.length := by
  rw [h.length_slots]
  exact Nat.mod_lt _ (wellFormed_facts _ h.config).2.2.2.2.2.2.2.1

theorem RingHolds.form {s : State} {k : Nat} (h : RingHolds s k) : RingForm s := by
  intro j hj
  rw [h.unreadCount_eq]
  exact h.unread j hj

/-- A write of one slot that fits keeps the form of the slots. -/
theorem slotForm_of_set {s t : State} {i : Nat} {sl : Slot} (h : SlotForm s) (hp : t.params = s.params)
    (hs : t.slots = s.slots.set i sl) (hf : sl.code.length ≤ s.params.bufBits)
    (hv : sl.unread = true → sl.code.valid = true) (hr : t.readIndex < s.params.n)
    (hw : t.writeIndex < s.params.n) : SlotForm t := by
  refine ⟨by rw [hp, hs]; exact Memory.wf_set _ _ _ _ h.1 hf, by rw [hp]; exact hr, by rw [hp]; exact hw, ?_⟩
  intro x hx hu
  rw [hs] at hx
  rcases List.mem_or_eq_of_mem_set hx with hx | rfl
  · exact h.2.2.2 x hx hu
  · exact hv hu

theorem curCode_startedMessage (d : Time) (shared : Bool) (s : State) (h : s.writeIndex < s.slots.length) :
    curCode (startedMessage d shared s) = { Code.empty with prePauseStandalone := !shared } := by
  simp [curCode, codeAt, startedMessage, h]

/-- A message start keeps the invariant and drops the oldest Code of a full ring. -/
theorem startedMessage_keeps {s : State} (h : Base s) (d : Time) (shared : Bool) :
    BlockInv (startedMessage d shared s)
      ∧ unreadCodes (startedMessage d shared s) = dropIfFull s.params.n (unreadCodes s) := by
  have hc := curCode_startedMessage d shared s h.write_lt
  obtain ⟨h1, h2, h3⟩ := h.holds.claim (t := startedMessage d shared s)
    { code := { Code.empty with prePauseStandalone := !shared }, unread := false } rfl h.length_slots rfl rfl rfl rfl
  refine ⟨⟨h.config, ?_, h1.form, fun _ => ?_, ?_, h.send⟩, h3⟩
  · exact slotForm_of_set (i := s.writeIndex) h.slots rfl rfl (Nat.zero_le _) (by simp) h1.read h.slots.2.2.1
  · refine ⟨h2, ?_⟩
    rw [hc]
    refine ⟨⟨rfl, rfl, rfl⟩, fun h => absurd rfl h, ?_, ?_, fun h => absurd rfl h, fun h => absurd rfl h⟩
    · intro b
      cases b <;> rfl
    · intro b
      cases b <;> exact Nat.zero_le _
  · exact ⟨fun _ => ⟨rfl, rfl, by rw [hc]; rfl⟩, fun h => by simp [startedMessage] at h,
      fun h => by simp [startedMessage] at h⟩

theorem awaitPause_keeps {s : State} (h : Base s) : BlockInv { s with state := .awaitPause } :=
  ⟨h.config, h.slots, h.ring, fun h => absurd rfl h,
    ⟨fun h => by simp at h, fun h => by simp at h, fun h => by simp at h⟩, h.send⟩

/-- The message-start check keeps the invariant. -/
theorem afterStartCheck_keeps {s : State} (h : Base s) (d : Time) (shared : Bool) :
    BlockInv (afterStartCheck d shared s) := by
  unfold afterStartCheck
  split
  · exact (startedMessage_keeps h d shared).1
  · exact awaitPause_keeps h

theorem unreadCodes_afterStartCheck {s : State} (h : Base s) (d : Time) (shared : Bool) :
    unreadCodes (afterStartCheck d shared s) =
      if s.params.minPrePauseUs ≤ d.toNat then dropIfFull s.params.n (unreadCodes s) else unreadCodes s := by
  unfold afterStartCheck
  split
  · exact (startedMessage_keeps h d shared).2
  · rfl

/-- While the write slot is not unread the ring is not full. -/
theorem dropIfFull_of_free {s : State} (h : Base s) (hu : unreadAt s s.writeIndex = false) :
    dropIfFull s.params.n (unreadCodes s) = unreadCodes s := by
  have hk := h.holds.write_unread
  rw [hu] at hk
  have hk := of_decide_eq_false hk.symm
  rw [dropIfFull, if_neg]
  rw [h.holds.unreadCodes_eq]
  simpa using hk

theorem unreadCodes_afterStartCheck_of_free {s : State} (h : Base s) (hu : unreadAt s s.writeIndex = false)
    (d : Time) (shared : Bool) : unreadCodes (afterStartCheck d shared s) = unreadCodes s := by
  rw [unreadCodes_afterStartCheck h, dropIfFull_of_free h hu]
  simp

theorem unreadAt_withCurCode {s : State} (c : Code) (i : Nat) : unreadAt (withCurCode s c) i = unreadAt s i := by
  simp only [withCurCode]
  rw [unreadAt_set]
  split
  · rename_i h
    rw [h.1]
  · rfl

/-- A state that differs in the Code in progress and in registers the ring does not read. -/
theorem base_of_curCode {s t : State} {c : Code} (h : Base s) (hp : t.params = s.params)
    (hr : t.readIndex = s.readIndex) (hw : t.writeIndex = s.writeIndex)
    (hs : t.slots = (withCurCode s c).slots) (hsend : SendForm t) (hu : unreadAt s s.writeIndex = false)
    (hc : c.length ≤ s.params.bufBits) :
    Base t ∧ curCode t = c ∧ unreadAt t t.writeIndex = false ∧ unreadCodes t = unreadCodes s := by
  have hun : ∀ i, unreadAt t i = unreadAt s i := fun i => by
    rw [unreadAt_congr t (withCurCode s c) i hs, unreadAt_withCurCode]
  have hR := h.holds.congr hp hr hw hun
  refine ⟨⟨by rw [hp]; exact h.config, ?_, hR.form, hsend⟩, ?_, by rw [hw, hun, hu], ?_⟩
  · exact slotForm_of_set (i := s.writeIndex) h.slots hp hs hc (by rw [hu]; simp)
      (by rw [hr]; exact h.slots.2.1) (by rw [hw]; exact h.slots.2.2.1)
  · rw [curCode, hw, codeAt_congr t (withCurCode s c) _ hs]
    exact curCode_withCurCode s c h.write_lt
  · refine h.holds.unreadCodes_of_write hu hR hp hr fun i hi => ?_
    rw [codeAt_congr t (withCurCode s c) _ hs]
    simp only [withCurCode]
    rw [codeAt_set, if_neg (by tauto)]

/-- A state that differs in registers the ring does not read. -/
theorem base_of_slots {s t : State} (h : Base s) (hp : t.params = s.params) (hr : t.readIndex = s.readIndex)
    (hw : t.writeIndex = s.writeIndex) (hs : t.slots = s.slots) (hsend : SendForm t) :
    Base t ∧ curCode t = curCode s ∧ unreadAt t t.writeIndex = unreadAt s s.writeIndex
      ∧ unreadCodes t = unreadCodes s := by
  have hun : ∀ i, unreadAt t i = unreadAt s i := fun i => unreadAt_congr t s i hs
  have hR := h.holds.congr hp hr hw hun
  refine ⟨⟨by rw [hp]; exact h.config, ?_, hR.form, hsend⟩, ?_, by rw [hw, hun], ?_⟩
  · obtain ⟨a, b, c, d⟩ := h.slots
    exact ⟨by rw [hp, hs]; exact a, by rw [hp, hr]; exact b, by rw [hp, hw]; exact c, by rw [hs]; exact d⟩
  · rw [curCode, hw, codeAt_congr t s _ hs, curCode]
  · rw [hR.unreadCodes_eq, h.holds.unreadCodes_eq, hr, hp]
    exact List.map_congr_left fun i _ => codeAt_congr t s _ hs

/-- What the invariant says of the Code in progress, for estimates `z` and `o`. -/
def CodeForm (z o : Time) (c : Code) : Prop :=
  (c.valid = false ∧ c.finalized = false ∧ c.postPausePresent = false)
    ∧ (∀ b : Bool, c.bitCount.get b = c.bits.count b)
    ∧ (∀ b : Bool, c.bitTotalTime.get b ≤ c.bitCount.get b * (2 ^ 32 - 1))
    ∧ (z ≠ 0#32 → 0 < c.bitCount.at0)
    ∧ (o ≠ 0#32 → 0 < c.bitCount.at1)

theorem codeForm_of_message {s : State} (h : MessageForm s) : CodeForm s.zeroTime s.oneTime (curCode s) :=
  ⟨h.2.1, h.2.2.2⟩

theorem message_of_codeForm {s : State} (hu : unreadAt s s.writeIndex = false)
    (hm : CodeForm s.zeroTime s.oneTime (curCode s))
    (hr : s.oneTime ≠ 0#32 → scale s.params s.zeroTime s.params.minRelativeDuration ≤ s.oneTime.toNat) :
    MessageForm s :=
  ⟨hu, hm.1, hr, hm.2⟩

/-- Learning keeps the invariant's base, but for the estimate whose first sample is yet to be appended. -/
theorem learn_keeps {d : Time} {s t : State} {b : Bool} (hs : Base s) (hu : unreadAt s s.writeIndex = false)
    (hm : CodeForm s.zeroTime s.oneTime (curCode s)) (h : learn d s = some (b, t)) :
    Base t ∧ unreadAt t t.writeIndex = false ∧ unreadCodes t = unreadCodes s
      ∧ CodeForm (if b then t.zeroTime else 0#32) (if b then 0#32 else t.oneTime) (curCode t) := by
  have hfit := codeAt_fits s s.writeIndex hs.slots.1
  obtain ⟨m1, m2, m3, m4, m5⟩ := hm
  unfold learn at h
  split at h
  · cases h
    obtain ⟨e1, e2, e3, e4⟩ := base_of_slots (t := { s with zeroTime := d }) hs rfl rfl rfl rfl hs.send
    exact ⟨e1, by rw [e3]; exact hu, e4, by rw [e2]; exact ⟨m1, m2, m3, fun h => absurd rfl h, m5⟩⟩
  · split at h
    · cases h
      obtain ⟨e1, e2, e3, e4⟩ := base_of_slots
        (t := { s with oneTime := if s.oneTime = 0#32 then d else movingAverage s.oneTime d }) hs rfl rfl rfl rfl
        hs.send
      exact ⟨e1, by rw [e3]; exact hu, e4, by rw [e2]; exact ⟨m1, m2, m3, m4, fun h => absurd rfl h⟩⟩
    · split at h
      · split at h
        · cases h
          rw [swapRoles_of_lt s hs.write_lt]
          obtain ⟨e1, e2, e3, e4⟩ := base_of_curCode
            (t := { ({ withCurCode s
                { invertBits (curCode s) with
                  bitTotalTime := (curCode s).bitTotalTime.swap
                  bitCount := (curCode s).bitCount.swap } with
                oneTime := s.zeroTime
                sampleMin := s.sampleMin.swap
                sampleMax := s.sampleMax.swap } : State) with zeroTime := d })
            hs rfl rfl rfl rfl hs.send hu
            (show (invertBits (curCode s)).length ≤ _ by rw [invertBits_length]; exact hfit)
          refine ⟨e1, e3, e4, ?_⟩
          rw [e2]
          refine ⟨m1, fun b => ?_, fun b => ?_, fun h => absurd rfl h, fun h => m4 h⟩
          · show (curCode s).bitCount.swap.get b = _
            rw [Two.get_swap, m2, invertBits_count]
          · show (curCode s).bitTotalTime.swap.get b ≤ (curCode s).bitCount.swap.get b * _
            rw [Two.get_swap, Two.get_swap]
            exact m3 _
        · cases h
      · cases h
        obtain ⟨e1, e2, e3, e4⟩ := base_of_slots (t := { s with zeroTime := movingAverage s.zeroTime d })
          hs rfl rfl rfl rfl hs.send
        exact ⟨e1, by rw [e3]; exact hu, e4, by rw [e2]; exact ⟨m1, m2, m3, fun h => absurd rfl h, m5⟩⟩

/-- The append of a sample keeps the invariant's base and its form of the Code in progress. -/
theorem sampled_keeps {d : Time} {s : State} {b : Bool} (hs : Base s) (hu : unreadAt s s.writeIndex = false)
    (hl : (curCode s).length < s.params.bufBits)
    (hm : CodeForm (if b then s.zeroTime else 0#32) (if b then 0#32 else s.oneTime) (curCode s)) :
    Base (sampled b d s) ∧ unreadAt (sampled b d s) (sampled b d s).writeIndex = false
      ∧ unreadCodes (sampled b d s) = unreadCodes s
      ∧ CodeForm s.zeroTime s.oneTime (curCode (sampled b d s)) := by
  obtain ⟨e1, e2, e3, e4⟩ := base_of_curCode (t := sampled b d s) (c := sampledCode b d (curCode s)) hs rfl rfl rfl
    rfl hs.send hu (by
      simp only [sampledCode, Code.length, List.length_append, List.length_singleton] at hl ⊢
      omega)
  refine ⟨e1, e3, e4, ?_⟩
  rw [e2]
  obtain ⟨m1, m2, m3, m4, m5⟩ := hm
  refine ⟨m1, fun c => ?_, fun c => ?_, fun hz => ?_, fun hz => ?_⟩
  · have := m2 c
    cases b <;> cases c <;> simp_all [sampledCode, Two.get, Two.set]
  · have := m3 c
    have hd := d.isLt
    cases b <;> cases c <;> simp_all [sampledCode, Two.get, Two.set] <;> omega
  · cases b <;> simp_all [sampledCode, Two.get, Two.set]
  · cases b <;> simp_all [sampledCode, Two.get, Two.set]

/-- COMPLETE's commit keeps the base and appends the message to the queue. -/
theorem committedMessage_keeps {s : State} (h : Base s) (hu : unreadAt s s.writeIndex = false) :
    Base (committedMessage s)
      ∧ unreadCodes (committedMessage s) = unreadCodes s ++ [completedCode (curCode s)] := by
  obtain ⟨h1, h2⟩ := h.holds.commit (t := committedMessage s) (completedCode (curCode s)) hu h.length_slots rfl rfl
    rfl rfl
  refine ⟨⟨h.config, ?_, h1.form, h.send⟩, h2⟩
  exact slotForm_of_set (i := s.writeIndex) h.slots rfl rfl (codeAt_fits s s.writeIndex h.slots.1) (fun _ => rfl)
    h.slots.2.1 (Nat.mod_lt _ (wellFormed_facts _ h.config).2.2.2.2.2.2.2.1)

end Sys2Proof.Machine
end

