-- ==== Sys2Proof/Laws/PerInstr.lean ====
section
/-! SUPPORT. The statements made for every operation of the table, one lemma per operation. -/

namespace Sys2Proof.Laws.Selector

/-- R71, R72: the encoded request carries the operation's selector in bits 39:36, and nothing outside the fields the
operation reads. -/
def Statement (i : Instr) : Prop :=
  reqSel (encode i).word = i.selector ∧ (encode i).word &&& i.usedBits = (encode i).word

theorem edge (ts : Time) : Statement (.edge ts) := ⟨reqSel_reqWord _ _ _, reqWord_mask_data _ _⟩

theorem push (c : Code) : Statement (.push c) := ⟨reqSel_reqWord _ _ _, reqWord_mask_selector _⟩

theorem pop : Statement .pop := ⟨reqSel_reqWord _ _ _, reqWord_mask_selector _⟩

theorem finalize (c : Code) : Statement (.finalize c) :=
  ⟨reqSel_reqWord _ _ _, reqWord_mask_selector _⟩

theorem decodeV1a (c : Code) : Statement (.decodeV1a c) :=
  ⟨reqSel_reqWord _ _ _, reqWord_mask_selector _⟩

theorem decodeV2a (c : Code) : Statement (.decodeV2a c) :=
  ⟨reqSel_reqWord _ _ _, reqWord_mask_selector _⟩

theorem transmit (c : Code) : Statement (.transmit c) :=
  ⟨reqSel_reqWord _ _ _, reqWord_mask_selector _⟩

theorem cfgSet (idx : BitVec 4) (value : BitVec 32) : Statement (.cfgSet idx value) :=
  ⟨reqSel_reqWord _ _ _, reqWord_mask_all _ _ _⟩

theorem cfgGet : Statement .cfgGet := ⟨reqSel_reqWord _ _ _, reqWord_mask_selector _⟩

theorem preset (n : BitVec 32) : Statement (.preset n) := ⟨reqSel_reqWord _ _ _, reqWord_mask_data _ _⟩

end Sys2Proof.Laws.Selector
end

