-- ==== Sys2Proof/Laws/Sender.lean ====
section
/-! SUPPORT. What each operation of the transmitter can answer, what it keeps of the invariant, and the waveform one
segment at a time. -/

namespace Sys2Proof.Machine

/-! ### The sequencer -/

theorem withSegment_of_present {s : State} {seg : Segment} (k : Segment → Answer)
    (h : s.txSchedule[s.txPhase]? = some seg) : withSegment s k = k seg := by
  rw [withSegment, h]

/-- A sub-step on the present segment that answered a next state had one. -/
theorem withSegment_cases {s t : State} {k : Segment → Answer} (h : withSegment s k = .next t) :
    ∃ seg, s.txSchedule[s.txPhase]? = some seg ∧ k seg = .next t := by
  unfold withSegment at h
  split at h
  · exact ⟨_, by assumption, h⟩
  · cases h

/-- A sequencer step emits the present segment. -/
theorem txStep_cases {s t : State} (h : txStep s = .next t) :
    ∃ seg, s.txSchedule[s.txPhase]? = some seg ∧ t = endSegment seg s := by
  obtain ⟨seg, h1, h2⟩ := withSegment_cases h
  exact ⟨seg, h1, by cases h2; rfl⟩

/-- A clock reading emits the present segment when its hold has ended, and holds it on otherwise. -/
theorem txClock_cases {now : Time} {s t : State} (h : txClock now s = .next t) :
    ∃ seg, s.txSchedule[s.txPhase]? = some seg
      ∧ ((holdEnded (s.txStart.getD now) now seg.duration = true ∧ t = endSegment seg s)
        ∨ (holdEnded (s.txStart.getD now) now seg.duration = false
          ∧ t = holdSegment seg (s.txStart.getD now) s)) := by
  obtain ⟨seg, h1, h2⟩ := withSegment_cases h
  refine ⟨seg, h1, ?_⟩
  cases he : holdEnded (s.txStart.getD now) now seg.duration <;> simp_all

/-- Without a clock reading a hold that is being timed goes on, and any other segment is emitted whole. -/
theorem txIdleStep_cases {s t : State} (h : txIdleStep s = .next t) :
    (s.txStart ≠ none ∧ t = s)
      ∨ (s.txStart = none ∧ ∃ seg, s.txSchedule[s.txPhase]? = some seg ∧ t = endSegment seg s) := by
  unfold txIdleStep at h
  split at h
  · exact .inr ⟨by assumption, txStep_cases h⟩
  · cases h
    exact .inl ⟨by assumption, rfl⟩

/-- The hold has ended when the time since `start`, mod 2^32, is at least its duration (R185). -/
theorem holdEnded_iff (start now dur : Time) :
    holdEnded start now dur = true ↔ dur.toNat ≤ (now.toNat + 2 ^ 32 - start.toNat) % 2 ^ 32 := by
  rw [holdEnded, decide_eq_true_iff, BitVec.toNat_sub]
  have := start.isLt
  rw [show 2 ^ 32 - start.toNat + now.toNat = now.toNat + 2 ^ 32 - start.toNat by omega]

/-- A hold of no length ends at the reading at its pin write (R185). -/
theorem holdEnded_zero (start : Time) : holdEnded start start 0#32 = true := by
  simp [holdEnded]

/-- The end of a segment keeps the transmitter's form: after the last one, which is low, nothing is sent. -/
theorem endSegment_keeps {seg : Segment} {s : State} (h : SendForm s) (hb : s.txBusy = true)
    (hseg : s.txSchedule[s.txPhase]? = some seg) : SendForm (endSegment seg s) := by
  obtain ⟨h1, h2, -⟩ := h.1 hb
  by_cases hl : s.txPhase + 1 = s.txSchedule.length
  · have hlast : s.txSchedule.getLast? = some seg := by
      rw [List.getLast?_eq_getElem?, ← hl, Nat.add_sub_cancel, hseg]
    rw [hlast] at h2
    exact ⟨fun h => by simp [hl] at h, fun _ => ⟨by simpa using h2, rfl⟩⟩
  · exact ⟨fun _ => ⟨by simp; omega, h2, fun h => absurd rfl h⟩, fun h => by simp [hl] at h⟩

/-- A hold that goes on keeps the transmitter's form: the pin has the segment's level. -/
theorem holdSegment_keeps {seg : Segment} {start : Time} {s : State} (h : SendForm s) (hb : s.txBusy = true)
    (hseg : s.txSchedule[s.txPhase]? = some seg) : SendForm (holdSegment seg start s) := by
  obtain ⟨h1, h2, -⟩ := h.1 hb
  exact ⟨fun _ => ⟨h1, h2, fun _ => by simp [hseg]⟩, fun h => by simp [hb] at h⟩

/-! ### The waveform -/

/-- One segment more in front: it lengthens the first piece of its level, or is a piece of its own; and the
waveform of a schedule begins with the level of its first segment. -/
theorem waveform_cons_cons (a b : Segment) (rest : List Segment) :
    ∃ w ws, waveform (b :: rest) = w :: ws ∧ w.level = b.level
      ∧ waveform (a :: b :: rest) =
        if a.level = b.level then { w with duration := a.duration.toNat + w.duration } :: ws
        else segmentPiece a :: w :: ws := by
  obtain ⟨w, ws, h, hl⟩ : ∃ w ws, waveform (b :: rest) = w :: ws ∧ w.level = b.level := by
    rw [waveform]
    split
    · exact ⟨_, _, rfl, rfl⟩
    · split
      · exact ⟨_, _, rfl, by assumption⟩
      · exact ⟨_, _, rfl, rfl⟩
  refine ⟨w, ws, h, hl, ?_⟩
  rw [waveform, h]
  simp only [hl, eq_comm, segmentPiece]

/-- A piece in front of a list of pieces. -/
theorem levelAt_cons (w : Piece) (ws : List Piece) (t : Nat) :
    levelAt (w :: ws) t = if t < w.duration then some w.level else levelAt ws (t - w.duration) := rfl

/-- The levels of a list of pieces behind a first one that is lengthened in front. -/
theorem levelAt_lengthen (w : Piece) (ws : List Piece) (d t : Nat) :
    levelAt ({ w with duration := d + w.duration } :: ws) t =
      if t < d then some w.level else levelAt (w :: ws) (t - d) := by
  simp only [levelAt]
  split_ifs <;> first | rfl | omega | skip
  rw [Nat.sub_sub]

end Sys2Proof.Machine
end

