-- ==== Sys2Proof/Tests/Slice0.lean ====
section
/-! SUPPORT. The model's own tests: the well-formedness checks, the encodings word by word, one or two steps of every
operation with the results the spec's vectors give, and for every statement with hypotheses a state that meets
them. -/

namespace Sys2Proof.Tests

open Sys2Proof Sys2Proof.Machine

/-- The answer is a next state of which `f` holds. -/
def nextWith (a : Answer) (f : State → Bool) : Bool :=
  match a with
  | .next s => f s
  | .fault _ => false
  | .refused _ => false

/-! ### The well-formedness checks -/

theorem test_ref_is_wellFormed : Params.ref.wellFormed = true := by decide

theorem test_refuses_divisor_not_power :
    { Params.ref with divisor := 12, minRelativeDuration := 30 }.divisorOk = false := by decide

theorem test_refuses_divisor_zero : { Params.ref with divisor := 0 }.divisorOk = false := by decide

theorem test_refuses_min_pre_pause : { Params.ref with minPrePauseUs := 0 }.lengthsOk = false := by decide

theorem test_refuses_min_samples : { Params.ref with minSamples := 0 }.lengthsOk = false := by decide

theorem test_refuses_samples_order : { Params.ref with minSamples := 17 }.lengthsOk = false := by decide

theorem test_refuses_max_samples : { Params.ref with maxSamples := 161 }.lengthsOk = false := by decide

theorem test_refuses_min_length : { Params.ref with minLength := 161 }.lengthsOk = false := by decide

theorem test_refuses_no_slot : { Params.ref with n := 0 }.lengthsOk = false := by decide

theorem test_refuses_small_buffer : { Params.ref with bufBits := 162 }.lengthsOk = false := by decide

theorem test_refuses_relative_duration : { Params.ref with minRelativeDuration := 8 }.ratiosOk = false := by decide

theorem test_refuses_zero_range :
    { Params.ref with minZeroNum := 9 }.ratiosOk = false ∧ { Params.ref with maxZeroNum := 7 }.ratiosOk = false := by
  decide

theorem test_refuses_one_range :
    { Params.ref with minOneNum := 9 }.ratiosOk = false ∧ { Params.ref with maxOneNum := 7 }.ratiosOk = false := by
  decide

theorem test_refuses_pause_range :
    { Params.ref with minPauseNum := 9 }.ratiosOk = false
      ∧ { Params.ref with maxPauseNum := 7 }.ratiosOk = false := by
  decide

theorem test_refuses_preamble_range :
    { Params.ref with preMinZeroNum := 5 }.ratiosOk = false
      ∧ { Params.ref with preMaxZeroNum := 10 }.ratiosOk = false
      ∧ { Params.ref with preMinOneNum := 7 }.ratiosOk = false
      ∧ { Params.ref with preMaxOneNum := 10 }.ratiosOk = false := by
  decide

/-- A configuration whose Code records hold three bits; no rule asks it to be well-formed here. -/
def threeBits : Params := { Params.ref with bufBits := 3, n := 1 }

/-- One bit more than the buffer holds. -/
def tooLong : Code := { Code.empty with bits := [true, true, true, true] }

theorem test_refuses_long_operands :
    (Instr.push tooLong).wellFormed threeBits = false ∧ (Instr.finalize tooLong).wellFormed threeBits = false
      ∧ (Instr.decodeV1a tooLong).wellFormed threeBits = false
      ∧ (Instr.decodeV2a tooLong).wellFormed threeBits = false
      ∧ (Instr.transmit tooLong).wellFormed threeBits = false := by
  decide

theorem test_memory_form :
    Memory.wf Params.ref State.reset.slots = true ∧ Memory.wf Params.ref [] = false
      ∧ Memory.wf threeBits [{ code := tooLong, unread := false }] = false := by
  decide

/-! ### The encodings, each word written out from R71 and R72 -/

theorem test_decode_edge :
    decode (plainRequest 0b0001_0000_00000000000000000000111110100000#40) = .ok (.edge 4000#32) := by decide

theorem test_decode_push :
    decode (plainRequest 0b0010_0000_00000000000000000000000000000000#40) = .ok (.push Code.empty) := by decide

theorem test_decode_pop :
    decode (plainRequest 0b0011_1111_00010010001101000101011001111000#40) = .ok .pop := by decide

theorem test_decode_finalize :
    decode (plainRequest 0b0100_0000_00000000000000000000000000000000#40) = .ok (.finalize Code.empty) := by decide

theorem test_decode_decode_v1a :
    decode (plainRequest 0b0101_0000_00000000000000000000000000000000#40) = .ok (.decodeV1a Code.empty) := by
  decide

theorem test_decode_decode_v2a :
    decode (plainRequest 0b0110_0000_00000000000000000000000000000000#40) = .ok (.decodeV2a Code.empty) := by
  decide

theorem test_decode_transmit :
    decode (plainRequest 0b0111_0000_00000000000000000000000000000000#40) = .ok (.transmit Code.empty) := by decide

theorem test_decode_cfg_set :
    decode (plainRequest 0b1000_0101_00000000000000000000000101011110#40) = .ok (.cfgSet 5#4 350#32) := by decide

theorem test_decode_cfg_get :
    decode (plainRequest 0b1001_0000_00000000000000000000000000000000#40) = .ok .cfgGet := by decide

theorem test_decode_preset :
    decode (plainRequest 0b1010_0000_00000000000000000000000000000001#40) = .ok (.preset 1#32) := by decide

theorem test_decode_refuses_reserved :
    decode (plainRequest 0x0000000000#40) = .error (.selector 0x0#4)
      ∧ decode (plainRequest 0xB000000000#40) = .error (.selector 0xB#4)
      ∧ decode (plainRequest 0xF0FFFFFFFF#40) = .error (.selector 0xF#4) := by
  decide

/-- The mask and match columns of the opcode table. -/
def tableRows : List (BitVec 40 × BitVec 40) :=
  [(0xF000000000#40, 0x1000000000#40), (0xF000000000#40, 0x2000000000#40), (0xF000000000#40, 0x3000000000#40),
    (0xF000000000#40, 0x4000000000#40), (0xF000000000#40, 0x5000000000#40), (0xF000000000#40, 0x6000000000#40),
    (0xF000000000#40, 0x7000000000#40), (0xF000000000#40, 0x8000000000#40), (0xF000000000#40, 0x9000000000#40),
    (0xF000000000#40, 0xA000000000#40)]

theorem test_rows_do_not_overlap :
    tableRows.Pairwise (fun a b => a.2 &&& b.1 ≠ b.2 &&& a.1) := by decide

/-- R72: the decoder ignores CFG_GET's `idx` (log entry 26). -/
theorem test_cfg_get_ignores_idx : decode (plainRequest 0x9F00000000#40) = .ok .cfgGet := by decide

theorem test_table_word : decodeTableWord 40 0x8700000103 = some (.cfgSet 7#4 259#32) := by decide

theorem test_fetch_runs_table_word :
    nextWith (step (State.reset.withFetchWord 40 0x8600000384)) (fun t => t.cfg.bitTime.at1 == 900#32) = true := by
  decide

/-- U9: CFG_GET of index 8 changes nothing and returns nothing, and of index 7 it is a CFG_GET (R72). -/
theorem test_cfg_get_reserved_index :
    nextWith (step { State.reset with inputs := [.request (plainRequest 0x9800000000#40)] })
        (fun t => t == State.reset) = true
      ∧ nextWith (step { State.reset with inputs := [.request (plainRequest 0x9700000000#40)] })
        (fun t => t.result == some (.config TxConfig.ref)) = true := by
  decide

/-- Log entry 26: index 8 in a configuration that reads R72 alone. -/
theorem test_cfg_get_ignored_index :
    nextWith (step { State.resetWith { Params.ref with cfgGetIndex := .ignored } with
        inputs := [.request (plainRequest 0x9800000000#40)] })
      (fun t => t.result == some (.config TxConfig.ref)) = true := by
  decide

/-! ### Small states -/

/-- REF with a ring of two slots. -/
def small : Params := { Params.ref with n := 2 }

def fresh : State := State.resetWith small

/-- The Code in progress of V5: six samples, alternating. -/
def sixSamples : Code :=
  { Code.empty with
    bits := [false, true, false, true, false, true]
    bitTotalTime := { at0 := 900, at1 := 2700 }
    bitCount := { at0 := 3, at1 := 3 }
    preambleTime := { at0 := 300#32, at1 := 300#32 }
    prePauseStandalone := true }

/-- A message in progress, with the estimates 300 and 900, in a state of the assembler. -/
def during (st : Phase) (c : Code) : State :=
  { fresh with
    state := st
    prePauseTime := 4000#32
    zeroTime := 300#32
    oneTime := 900#32
    sampleMin := { at0 := 300#32, at1 := 900#32 }
    sampleMax := { at0 := 300#32, at1 := 900#32 }
    slots := [{ code := c, unread := false }, Slot.empty] }

/-- The state V5 starts from. -/
def decoding : State := during .decoding sixSamples

/-- V5's message with two samples more, so that it is long enough to complete. -/
def eightSamples : Code :=
  { sixSamples with
    bits := sixSamples.bits ++ [false, true]
    bitTotalTime := { at0 := 1200, at1 := 3600 }
    bitCount := { at0 := 4, at1 := 4 } }

/-- A message of MAX_LENGTH bits (V6). -/
def fullMessage : Code :=
  { Code.empty with
    bits := List.replicate 80 false ++ List.replicate 80 true
    bitTotalTime := { at0 := 24000, at1 := 72000 }
    bitCount := { at0 := 80, at1 := 80 } }

/-- CALIBRATING with one sample of 900 (V2, fourth row). -/
def oneLong : State :=
  { during .calibrating
      { Code.empty with
        bits := [false]
        bitTotalTime := { at0 := 900, at1 := 0 }
        bitCount := { at0 := 1, at1 := 0 } } with
    zeroTime := 900#32
    oneTime := 0#32
    sampleMin := { at0 := 900#32, at1 := Time.max }
    sampleMax := { at0 := 900#32, at1 := 0#32 } }

/-- CALIBRATING with the samples 300 and 900 (V4). -/
def twoSamples : State :=
  during .calibrating
    { Code.empty with
      bits := [false, true]
      bitTotalTime := { at0 := 300, at1 := 900 }
      bitCount := { at0 := 1, at1 := 1 } }

/-- CALIBRATING with five samples (P1, before row 9). -/
def fiveSamples : State :=
  { during .calibrating
      { Code.empty with
        bits := List.replicate 5 false
        bitTotalTime := { at0 := 1500, at1 := 0 }
        bitCount := { at0 := 5, at1 := 0 } } with
    oneTime := 0#32
    sampleMin := { at0 := 300#32, at1 := Time.max }
    sampleMax := { at0 := 300#32, at1 := 0#32 } }

/-- CALIBRATING with fifteen equal samples. -/
def fifteenSamples : State :=
  { fiveSamples with
    slots :=
      [{ code := { Code.empty with
          bits := List.replicate 15 false
          bitTotalTime := { at0 := 4500, at1 := 0 }
          bitCount := { at0 := 15, at1 := 0 } }, unread := false }, Slot.empty] }

/-- The first sample is yet to come. -/
def noSample : State :=
  { during .calibrating Code.empty with
    zeroTime := 0#32
    oneTime := 0#32
    sampleMin := { at0 := Time.max, at1 := Time.max }
    sampleMax := { at0 := 0#32, at1 := 0#32 } }

def inPreamble : State := { noSample with state := .inPreamble }

/-- Five bits of a number. -/
def numbered (k : Nat) : Code := { Code.empty with bits := (List.range 5).map (fun i => k.testBit (4 - i)) }

/-- Both slots unread. -/
def fullRing : State :=
  { fresh with
    slots := [{ code := committed (numbered 1), unread := true }, { code := committed (numbered 2), unread := true }] }

/-- The state after reset where the bit buffer has a given number of places. -/
def withPlaces (k : Nat) : State := { fresh with params := { small with bufBits := k } }

/-- Busy, at the last of two segments. -/
def sending : State :=
  { fresh with
    txBusy := true
    txPhase := 1
    txSchedule := [{ level := true, duration := 300#32 }, { level := false, duration := 4000#32 }]
    txPin := true }

/-- The hold of that segment is being timed, since the reading 100. -/
def holding : State := { sending with txPin := false, txStart := some 100#32 }

/-! ### One step, by the spec's vectors -/

/-- V1 row 1. -/
theorem test_edge_noise :
    nextWith (exec (.edge 3999#32) fresh) (fun t => t == { fresh with lastEdgeTime := 3999#32 }) = true := by decide

/-- V2: the swap. -/
theorem test_edge_swaps :
    nextWith (exec (.edge 300#32) oneLong) (fun t => t.zeroTime == 300#32 && t.oneTime == 900#32
      && (curCode t).bits == [true, false] && (curCode t).bitTotalTime == { at0 := 300, at1 := 900 }
      && (curCode t).bitCount == { at0 := 1, at1 := 1 }) = true := by
  decide

/-- V11: PUSH from reset. -/
theorem test_push_first :
    nextWith (exec (.push (numbered 3)) fresh) (fun t => t.writeIndex == 1 && t.readIndex == 0
      && unreadCodes t == [committed (numbered 3)]) = true := by
  decide

/-- P2: one Code too many drops the first. -/
theorem test_push_drops_oldest :
    nextWith (exec (.push (numbered 3)) fullRing) (fun t => t.writeIndex == 1 && t.readIndex == 1
      && unreadCodes t == [committed (numbered 2), committed (numbered 3)]) = true := by
  decide

theorem test_pop_oldest :
    nextWith (exec .pop fullRing) (fun t => t.readIndex == 1 && t.writeIndex == 0
      && t.result == some (.popped (some (committed (numbered 1))))) = true := by
  decide

/-- V11: POP from reset. -/
theorem test_pop_nothing :
    nextWith (exec .pop fresh) (fun t => t == { fresh with result := some (.popped none) }) = true := by decide

/-- R139. -/
theorem test_finalize_worked_example :
    (finalizeCode Params.ref
      { Code.empty with
        bits := [false, false, false, false, false, true, false, false, true]
        bitTotalTime := { at0 := 2100, at1 := 1800 }
        bitCount := { at0 := 7, at1 := 2 }
        preambleTime := { at0 := 300#32, at1 := 300#32 }
        valid := true }).map (fun c => (c.bits, c.bitTime, c.preambleTime, c.valid, c.finalized)) =
      some ([false, false, false, false, false, false, false, true, false, false, true, false],
        { at0 := 300#32, at1 := 900#32 }, { at0 := 0#32, at1 := 0#32 }, true, true) := by
  decide

/-- V9: the empty Code; and bits 101 with no statistics. -/
theorem test_finalize_without_statistics :
    finalizeCode Params.ref Code.empty = some { Code.empty with finalized := true }
      ∧ finalizeCode Params.ref (literalCode [true, false, true] none) =
        some { literalCode [true, false, true, true] none with finalized := true } := by
  decide

/-- The bits of hex digits, a finalized and valid Code. -/
def hexCode (digits : List (BitVec 4)) (trailing : List Bool) : Code :=
  { literalCode (literalBits digits trailing) none with finalized := true }

/-- The Code of R155. -/
def v1aExample : Code := hexCode [5, 6, 5, 6, 5, 5, 6, 6, 5, 6, 6, 5] [false]

/-- The Code of R159. -/
def v2aExample : Code :=
  hexCode ((List.range 32).map (fun i => if i = 0 ∨ i = 2 ∨ i = 27 ∨ i = 28 then 4 else 1)) [false]

/-- The Code of R159 with four nibbles more. -/
def v2aDimExample : Code :=
  hexCode ((List.range 36).map (fun i => if i = 0 ∨ i = 2 ∨ i = 27 ∨ i = 28 ∨ 32 ≤ i then 4 else 1)) [false]

/-- R83: the hex digits and trailing bits of a literal are those its Code reads back. -/
theorem test_literal_digits :
    nibbles (hexCode [9, 1] [false]) = [9#4, 1#4] ∧ trailingBits (hexCode [9, 1] [false]) = [false]
      ∧ (hexCode [9, 1] [false]).bits = [true, false, false, true, false, false, false, true, false] := by
  decide

/-- R82: a line's tokens in order, the malformed one left out. -/
theorem test_console_line :
    lineInputs [.directive 5#4 350#32, .malformed, .query, .codeLiteral [5] [true] none] =
      [.request (encode (.cfgSet 5#4 350#32)), .request (encode .cfgGet),
        .request (encode (.transmit (literalCode [false, true, false, true, true] none)))] := by
  decide

/-- R155. -/
theorem test_decode_v1a_example :
    (decodeV1a Params.ref v1aExample).map (fun r => (r.group, r.device)) = some (some 5#4, some 3#4)
      ∧ (decodeV1a Params.ref (hexCode [5, 6, 5, 0xA, 5, 5, 6, 6, 5, 6, 6, 5] [false])).map
        (fun r => (r.group, r.device)) = some (none, some 3#4) := by
  decide

/-- R155, V10: not applicable. -/
theorem test_decode_v1a_refuses :
    (decodeV1a Params.ref (hexCode [5, 6, 5, 7, 5, 5, 6, 6, 5, 6, 6, 5] [false])).isNone = true
      ∧ (decodeV1a Params.ref (hexCode [5, 6, 5, 6, 5, 5, 6, 6, 5, 6, 6, 5] [true])).isNone = true
      ∧ (decodeV1a Params.ref (hexCode [5, 6, 5, 6, 5, 5, 6, 6, 5, 6, 6, 5] [])).isNone = true := by
  decide

/-- A table of V1A_ACTION that answers `on` for 0, 1, 1, 0 and `unknown` else. -/
def v1aTable : V1aActionTable :=
  let u : Three V1aAction := { at0 := .unknown, at1 := .unknown, at2 := .unknown }
  let v : Three (Three V1aAction) := { at0 := u, at1 := u, at2 := u }
  .given {
    at0 := { at0 := v, at1 := { at0 := u, at1 := { u with at0 := .on }, at2 := u }, at2 := v }
    at1 := { at0 := v, at1 := v, at2 := v }
    at2 := { at0 := v, at1 := v, at2 := v } }

/-- R155's action is the entry 0, 1, 1, 0 of the configuration's table (R154); entry 1, 0, 1, 0 is another. -/
theorem test_v1a_action_table :
    (decodeV1a { small with v1aAction := v1aTable } v1aExample).map (fun r => r.action) = some .on
      ∧ v1aActionOf { small with v1aAction := v1aTable } .one .zero .one .zero = .unknown := by
  decide

/-- A table of V2A_ACTION whose entries are all told apart. -/
def v2aTable : V2aActionTable :=
  .given {
    at0 := { at0 := { at0 := .off, at1 := .dim }, at1 := { at0 := .on, at1 := .other 0 } }
    at1 := { at0 := { at0 := .other 1, at1 := .other 2 }, at1 := { at0 := .other 3, at1 := .other 4 } } }

set_option maxRecDepth 20000 in
/-- R159's Codes have the group flag 0 and the state bit 1, without and with a dim level (R156). -/
theorem test_v2a_action_table :
    (decodeV2a { small with v2aAction := v2aTable } v2aExample).map (fun r => r.action) = some .on
      ∧ (decodeV2a { small with v2aAction := v2aTable } v2aDimExample).map (fun r => r.action) =
        some (.other 0) := by
  decide

set_option maxRecDepth 20000 in
/-- R159. -/
theorem test_decode_v2a_example :
    (decodeV2a Params.ref v2aExample).map (fun r => (r.group, r.groupFlag, r.stateBit, r.device, r.dimLevel)) =
      some (5#26, false, true, 1#4, none) := by
  decide

set_option maxRecDepth 20000 in
/-- R159 with a dim level; and a second trailing bit. -/
theorem test_decode_v2a_dim :
    (decodeV2a Params.ref v2aDimExample).map (fun r => (r.device, r.dimLevel, r.dimPercent)) =
      some (1#4, some 15#4, some 100)
      ∧ (decodeV2a Params.ref { v2aExample with bits := v2aExample.bits ++ [false] }).isNone = true := by
  decide

/-- V12 row 1. -/
theorem test_transmit_schedule :
    nextWith (exec (.transmit (literalCode [true, false, true] none))
      { fresh with cfg := { TxConfig.ref with repeatCount := 2#8 } })
      (fun t => t.txBusy && t.txSchedule.map (fun seg => (seg.level, seg.duration.toNat)) ==
        [(false, 4000), (true, 900), (false, 300), (true, 900), (false, 4000), (true, 900), (false, 300),
          (true, 900), (false, 4000)]) = true := by
  decide

/-- R185: the hold of 4000 that began at the reading 100 lasts through 4099 and ends at 4100. -/
theorem test_hold_keeps_start :
    nextWith (runSteps 2 { sending with inputs := [.clock 100#32, .clock 4099#32] }) (fun t => t == holding) = true
      ∧ nextWith (step { holding with inputs := [.clock 4100#32] })
        (fun t => !t.txBusy && t.txPhase == 2 && t.txStart == none) = true := by
  decide

/-- R185: a hold of 0 ends at once; and one that is being timed waits for a reading. -/
theorem test_hold_of_zero :
    nextWith (step { sending with
        txSchedule := [{ level := true, duration := 0#32 }, { level := false, duration := 0#32 }]
        inputs := [.clock 100#32] }) (fun t => !t.txBusy && !t.txPin) = true
      ∧ nextWith (step holding) (fun t => t == holding) = true := by
  decide

/-- V12 row 2: the Code has no preamble, the configuration has one; the waveform merges the last two. -/
theorem test_transmit_waveform :
    (waveform (schedule (literalCode [false, true] none)
      { TxConfig.ref with preambleTime := { at0 := 275#32, at1 := 2675#32 }, repeatCount := 1#8 })).map
      (fun w => (w.level, w.duration)) =
        [(false, 4000), (true, 275), (false, 2675), (true, 300), (false, 4900)] := by
  decide

/-- V14. -/
theorem test_cfg_set_field :
    nextWith (exec (.cfgSet 5#4 350#32) fresh)
      (fun t => configFields t.cfg == [4000, 4000, 4000, 0, 0, 350, 900, 3]) = true := by
  decide

/-- V14: `repeat` takes the low 8 bits, here of 259 + 1. -/
theorem test_cfg_set_repeat :
    nextWith (exec (.cfgSet 7#4 260#32) fresh)
      (fun t => configFields t.cfg == [4000, 4000, 4000, 0, 0, 300, 900, 4]) = true := by
  decide

/-- V14. -/
theorem test_cfg_get :
    nextWith (exec .cfgGet fresh) (fun t => t == { fresh with result := some (.config TxConfig.ref) }) = true := by
  decide

/-- V14: a known preset; an unknown one. -/
theorem test_preset :
    nextWith (exec (.preset 1#32)
      { fresh with params := { small with presets := [(1#32, { TxConfig.ref with repeatCount := 9#8 })] } })
      (fun t => t.cfg.repeatCount == 9#8) = true
      ∧ nextWith (exec (.preset 1#32) fresh) (fun t => t == fresh) = true := by
  decide

/-! ### For every statement with hypotheses, states and operands that meet them -/

theorem fresh_inv : BlockInv fresh :=
  ⟨by decide, by decide, by decide, by decide, by decide, by decide⟩

theorem fullRing_inv : BlockInv fullRing :=
  ⟨by decide, by decide, by decide, by decide, by decide, by decide⟩

theorem decoding_inv : BlockInv decoding :=
  ⟨by decide, by decide, by decide, by decide, by decide, by decide⟩

theorem eightSamples_inv : BlockInv (during .decoding eightSamples) :=
  ⟨by decide, by decide, by decide, by decide, by decide, by decide⟩

theorem twoSamples_inv : BlockInv twoSamples :=
  ⟨by decide, by decide, by decide, by decide, by decide, by decide⟩

theorem sending_inv : BlockInv sending :=
  ⟨by decide, by decide, by decide, by decide, by decide, by decide⟩

theorem holding_inv : BlockInv holding :=
  ⟨by decide, by decide, by decide, by decide, by decide, by decide⟩

/-- An EDGE request behind a waiting POP. -/
def popThenEdge : List Input := [.request (encode .pop), .request (encode (.edge 5#32))]

theorem witness_DecodeInvertsEncode :
    decode { word := 0x3F12345678#40, code := Code.empty } = .ok .pop
      ∧ decode { word := 0x1F00000005#40, code := Code.empty } = .ok (.edge 5#32) := by
  decide

theorem witness_StepRunsDecodedRequest :
    fresh.params.wellFormed = true ∧ decode (encode .pop) = .ok .pop
      ∧ takeInput { fresh with inputs := popThenEdge }.txBusy popThenEdge =
        some (.request (encode .pop), [.request (encode (.edge 5#32))])
      ∧ Instr.pop.wellFormed fresh.params = true ∧ fresh.txBusy = false
      ∧ sending.txBusy = true ∧ contextOf (.edge 5#32) = .interrupt
      ∧ small.cfgGetIndex = .reserved ∧ { small with cfgGetIndex := .ignored }.wellFormed = true
      ∧ decode (plainRequest 0x9800000000#40) = .ok .cfgGet ∧ (reqIdx 0x9800000000#40).toNat = 8 := by
  decide

theorem witness_IllFormedConfigurationRefused :
    { fresh with params := { small with n := 0 } }.params.wellFormed = false := by decide

theorem witness_ReservedRequestsAreIgnored :
    fresh.params.wellFormed = true ∧ fresh.txBusy = false
      ∧ reqSel 0x0000000000#40 = 0x0#4 ∧ 0xB ≤ (reqSel 0xB000000000#40).toNat
      ∧ (reqSel 0x8800000005#40 = 0x8#4 ∧ 8 ≤ (reqIdx 0x8800000005#40).toNat)
      ∧ (reqSel 0x9800000000#40 = 0x9#4 ∧ 8 ≤ (reqIdx 0x9800000000#40).toNat
        ∧ fresh.params.cfgGetIndex = .reserved)
      ∧ (reqSel 0xA000000001#40 = 0xA#4 ∧ fresh.params.presets.lookup (reqData 0xA000000001#40) = none) := by
  decide

theorem witness_ForegroundWaitsAndEdgeDoesNot :
    contextOf .pop = .foreground ∧ sending.params.wellFormed = true ∧ sending.txBusy = true
      ∧ sending.txStart = none ∧ holding.txBusy = true ∧ holding.txStart ≠ none
      ∧ ∀ x ∈ [Input.request (encode .pop), .request (encode .cfgGet)], waitsForForeground x = true := by
  decide

theorem witness_ResetLeavesTableValues :
    ∃ s : State, s.params.wellFormed = true ∧ s.inputs = [.reset] ∧ s.txBusy = true :=
  ⟨{ sending with inputs := [.reset] }, by decide, rfl, rfl⟩

theorem witness_ResetMeetsInvariant : Params.ref.wellFormed = true := by decide

theorem witness_EveryStepKeepsInvariant :
    BlockInv fullRing ∧ nextWith (step (presentRequest (encode (.edge 4000#32)) fullRing))
      (fun t => t.readIndex == 1) = true :=
  ⟨fullRing_inv, by decide⟩

theorem witness_NoStepFaults : BlockInv decoding ∧ BlockInv sending ∧ BlockInv holding :=
  ⟨decoding_inv, sending_inv, holding_inv⟩

/-- The invariant leaves a refusal that step can answer. -/
theorem witness_NoStepFaults_refusal :
    step (presentRequest (encode (.push Code.empty)) decoding) = .refused .pushDuringMessage := by
  rfl

theorem witness_ConfigurationIsFixed : ∃ t, step sending = .next t ∧ t.txBusy = false := ⟨_, rfl, by decide⟩

theorem witness_EdgeMeasuresModularDuration :
    ∃ t, exec (.edge 0x00000FA0#32) { fresh with lastEdgeTime := 0xFFFFF000#32 } = .next t
      ∧ t.prePauseTime = 8096#32 := ⟨_, rfl, by decide⟩

theorem witness_EdgeFrame :
    ∃ t, exec (.edge 412#32) decoding = .next t ∧ decoding.writeIndex = 0 ∧ decoding.state = .decoding
      ∧ (2 : Nat) ≠ (decoding.writeIndex + 1) % decoding.params.n := ⟨_, rfl, by decide⟩

theorem witness_NoiseIsIgnored :
    fresh.state = .awaitPause ∧ (edgeDuration fresh.lastEdgeTime 3999#32).toNat < fresh.params.minPrePauseUs := by
  decide

theorem witness_PauseStartsMessage :
    fullRing.state = .awaitPause ∧ fullRing.writeIndex < fullRing.slots.length
      ∧ fullRing.params.minPrePauseUs ≤ (edgeDuration fullRing.lastEdgeTime 4000#32).toNat := by
  decide

theorem witness_PreambleIsStored :
    inPreamble.state = .inPreamble ∧ inPreamble.writeIndex < inPreamble.slots.length
      ∧ inPreamble.preambleCount = false ∧ { inPreamble with preambleCount := true }.preambleCount = true := by
  decide

/-- Each branch at its boundary, for the estimates (300, 900), (900, 0) and (0, 0). -/
theorem witness_LearningBranches :
    noSample.zeroTime = 0#32 ∧ twoSamples.zeroTime ≠ 0#32 ∧ twoSamples.oneTime ≠ 0#32
      ∧ oneLong.zeroTime ≠ 0#32 ∧ oneLong.oneTime = 0#32
      ∧ scale small 300#32 small.minRelativeDuration = 525
      ∧ (524 < 525 ∧ scale small 172#32 small.minRelativeDuration = 301)
      ∧ scale small 171#32 small.minRelativeDuration = 299
      ∧ scale small 900#32 small.minRelativeDuration = 1575
      ∧ scale small 514#32 small.minRelativeDuration = 899 := by
  decide

theorem witness_SwapInvertsAndExchanges : oneLong.writeIndex < oneLong.slots.length := by decide

theorem witness_InversionFlipsAndFoldShifts :
    sixSamples.length = 6 ∧ { Code.empty with bits := [true] }.length + 2 = threeBits.bufBits := by decide

/-- The branches: a third class, a broken ratio, convergence with the sixth sample, no convergence with the sixteenth,
and one sample more. -/
theorem witness_EdgeCalibrates :
    (∀ s ∈ [twoSamples, oneLong, fiveSamples, fifteenSamples], s.state = .calibrating
      ∧ s.writeIndex < s.slots.length ∧ (curCode s).length < s.params.bufBits)
      ∧ (learn 171#32 twoSamples).isNone = true
      ∧ (learn 520#32 { twoSamples with oneTime := 600#32 }).map (fun x => ratioBroken x.2) = some true
      ∧ nextWith (exec (.edge 900#32) fiveSamples) (fun t => t.state == .decoding) = true
      ∧ nextWith (exec (.edge 300#32) fifteenSamples) (fun t => t.state == .awaitPause) = true
      ∧ nextWith (exec (.edge 300#32) oneLong) (fun t => t.state == .calibrating) = true := by
  decide

/-- The branches at the ends of their ranges: a short and a long enough message at the pause range's lower end, the
zero range's upper end, the one range's lower end, and a duration in no range. -/
theorem witness_EdgeDecodes :
    decoding.params.wellFormed = true ∧ decoding.state = .decoding ∧ decoding.writeIndex < decoding.slots.length
      ∧ (decoding.writeIndex + 1) % decoding.params.n < decoding.slots.length
      ∧ (scale small 4000#32 small.minPauseNum = 3000 ∧ scale small 300#32 small.maxZeroNum = 412
        ∧ scale small 900#32 small.minOneNum = 675)
      ∧ (curCode decoding).length < small.minLength ∧ (curCode (during .decoding eightSamples)).length = small.minLength
      ∧ nextWith (exec (.edge 3000#32) (during .decoding eightSamples)) (fun t => t.writeIndex == 1) = true
      ∧ nextWith (exec (.edge 3000#32) decoding) (fun t => t.state == .awaitPause) = true
      ∧ nextWith (exec (.edge 412#32) decoding) (fun t => (curCode t).length == 7) = true
      ∧ nextWith (exec (.edge 675#32) decoding) (fun t => (curCode t).length == 7) = true
      ∧ nextWith (exec (.edge 413#32) decoding) (fun t => t.state == .awaitPause) = true := by
  decide

set_option maxRecDepth 20000 in
/-- A message of MAX_LENGTH bits, which one bit more aborts and a pause completes (V6). -/
theorem witness_EdgeDecodes_tooLong :
    (curCode (during .decoding fullMessage)).length = small.maxLength
      ∧ nextWith (exec (.edge 300#32) (during .decoding fullMessage)) (fun t => t.state == .awaitPause) = true
      ∧ nextWith (exec (.edge 4000#32) (during .decoding fullMessage)) (fun t => t.writeIndex == 1) = true := by
  decide

theorem witness_StandaloneFlagMeaning :
    (∃ t, exec (.edge 4000#32) fresh = .next t ∧ fresh.state ≠ .inPreamble ∧ t.state = .inPreamble)
      ∧ ∃ t, exec (.edge 4000#32) decoding = .next t ∧ decoding.state ≠ .inPreamble ∧ t.state = .inPreamble
        ∧ (curCode t).prePauseStandalone = false :=
  ⟨⟨_, rfl, by decide, by decide⟩, ⟨_, rfl, by decide, by decide, by decide⟩⟩

theorem witness_AbortLeavesNoTrace :
    BlockInv decoding ∧ decoding.state ≠ .awaitPause
      ∧ (∃ t, abort .decTooShort 4000#32 decoding = .next t)
      ∧ ∃ t, abort .decInvalidDuration 3999#32 decoding = .next t :=
  ⟨decoding_inv, by decide, ⟨_, rfl⟩, ⟨_, rfl⟩⟩

theorem witness_EdgeAlwaysCompletes : BlockInv twoSamples ∧ BlockInv fullRing := ⟨twoSamples_inv, fullRing_inv⟩

theorem witness_EstimatesWrittenOnlyInCalibrating :
    (∃ t, exec (.edge 412#32) decoding = .next t ∧ decoding.state ≠ .calibrating ∧ t.state ≠ .inPreamble)
      ∧ (∃ t, exec (.edge 4000#32) fresh = .next t ∧ t.state = .inPreamble ∧ fresh.state ≠ .inPreamble)
      ∧ (∃ t, exec (.edge 300#32) inPreamble = .next t ∧ inPreamble.state = .inPreamble ∧ t.state = .inPreamble)
      ∧ ∃ t, exec .pop twoSamples = .next t ∧ ∀ ts : Time, Instr.pop ≠ .edge ts :=
  ⟨⟨_, rfl, by decide, by decide⟩, ⟨_, rfl, by decide, by decide⟩, ⟨_, rfl, by decide, by decide⟩,
    ⟨_, rfl, fun ts h => by cases h⟩⟩

theorem witness_BitTimingRatioHolds :
    (BlockInv twoSamples ∧ ∃ t, exec (.edge 525#32) twoSamples = .next t ∧ t.state = .calibrating ∧ t.oneTime ≠ 0#32)
      ∧ BlockInv decoding ∧ ∃ t, exec (.edge 412#32) decoding = .next t ∧ t.state = .decoding ∧ t.oneTime ≠ 0#32 :=
  ⟨⟨twoSamples_inv, _, rfl, by decide, by decide⟩, decoding_inv, _, rfl, by decide, by decide⟩

/-- Long first, and MIN_SAMPLES samples (V2). -/
theorem witness_SwapInvariant :
    noSample.params.wellFormed = true ∧ noSample.state = .calibrating ∧ noSample.zeroTime = 0#32
      ∧ noSample.oneTime = 0#32 ∧ (curCode noSample).bits = []
      ∧ (300#32 : Time).toNat < scale noSample.params 300#32 noSample.params.minRelativeDuration
      ∧ scale noSample.params 300#32 noSample.params.minRelativeDuration ≤ (900#32 : Time).toNat
      ∧ [900#32, 300#32, 300#32, 900#32, 300#32, 300#32].length = noSample.params.minSamples
      ∧ nextWith (edgeDurations [900#32, 300#32, 300#32, 900#32, 300#32, 300#32] noSample)
        (fun t => t.state == .decoding && (curCode t).bits == [true, false, false, true, false, false]) = true
      ∧ nextWith (edgeDurations [300#32, 525#32] noSample) (fun t => t.state == .calibrating) = true := by
  decide

theorem witness_PushCommitsItsCode :
    (fresh.state = .awaitPause ∧ fresh.writeIndex < fresh.slots.length)
      ∧ fullRing.state = .awaitPause ∧ fullRing.writeIndex < fullRing.slots.length := by
  decide

theorem witness_PushRefusedDuringMessage :
    decoding.state ≠ .awaitPause ∧ twoSamples.state ≠ .awaitPause ∧ inPreamble.state ≠ .awaitPause := by decide

theorem witness_PopTakesReadSlot :
    (fresh.txBusy = false ∧ fresh.readIndex < fresh.slots.length ∧ unreadAt fresh fresh.readIndex = false)
      ∧ fullRing.txBusy = false ∧ fullRing.readIndex < fullRing.slots.length
      ∧ unreadAt fullRing fullRing.readIndex = true := by
  decide

theorem witness_RingIsDropOldestQueue :
    BlockInv fullRing ∧ (numbered 3).fits fullRing.params = true
      ∧ (∃ t, exec (.push (numbered 3)) fullRing = .next t) ∧ ∃ t, exec .pop fullRing = .next t :=
  ⟨fullRing_inv, by decide, ⟨_, rfl⟩, ⟨_, rfl⟩⟩

/-- Each case: noise and a start with a full ring, a completion without and with a start, an append. -/
theorem witness_EdgeEffectOnQueue :
    (BlockInv fullRing ∧ (∃ t, exec (.edge 3999#32) fullRing = .next t)
        ∧ ∃ t, exec (.edge 4000#32) fullRing = .next t)
      ∧ (BlockInv (during .decoding eightSamples)
        ∧ isPause small 4000#32 3000#32 = true ∧ small.minLength ≤ eightSamples.length
        ∧ (∃ t, exec (.edge 3000#32) (during .decoding eightSamples) = .next t)
        ∧ ∃ t, exec (.edge 4000#32) (during .decoding eightSamples) = .next t)
      ∧ BlockInv decoding ∧ ∃ t, exec (.edge 412#32) decoding = .next t :=
  ⟨⟨fullRing_inv, ⟨_, rfl⟩, ⟨_, rfl⟩⟩, ⟨eightSamples_inv, by decide, by decide, ⟨_, rfl⟩, ⟨_, rfl⟩⟩,
    decoding_inv, ⟨_, rfl⟩⟩

theorem witness_DropOldestLaw :
    BlockInv fresh ∧ fresh.state = .awaitPause ∧ fresh.txBusy = false ∧ unreadCodes fresh = []
      ∧ [numbered 0, numbered 1, numbered 2].length = fresh.params.n + 1
      ∧ ∀ c ∈ [numbered 0, numbered 1, numbered 2], c.fits fresh.params = true :=
  ⟨fresh_inv, by decide, by decide, by decide, by decide, by decide⟩

/-- Nothing appended (a finalized Code, an empty one); a bit without a fold; a fold: each with the last place it needs
there and then not there. -/
theorem witness_FinalizeDelivers :
    (fresh.txBusy = false ∧ finalizeRoom small { sixSamples with finalized := true } = 0
        ∧ finalizeRoom small Code.empty = 0)
      ∧ ((withPlaces 6).txBusy = false ∧ finalizeRoom (withPlaces 6).params (numbered 3) = 1
        ∧ (numbered 3).length + 1 = (withPlaces 6).params.bufBits
        ∧ (withPlaces 5).params.bufBits < (numbered 3).length + finalizeRoom (withPlaces 5).params (numbered 3))
      ∧ finalizeRoom (withPlaces 9).params sixSamples = 3 ∧ sixSamples.length + 3 = (withPlaces 9).params.bufBits
      ∧ (withPlaces 8).params.bufBits < sixSamples.length + finalizeRoom (withPlaces 8).params sixSamples := by
  decide

theorem witness_FinalizeIsIdempotent :
    ∃ t c', exec (.finalize sixSamples) fresh = .next t ∧ t.result = some (.finalized c') := ⟨_, _, rfl, rfl⟩

/-- A fold; no fold and no bit; no fold and a bit. -/
theorem witness_FinalizeFoldsAndInfers :
    (sixSamples.finalized = false ∧ (finalizeCode small sixSamples).map (fun c => c.length) = some 9
        ∧ averageTime 900 3 = 300#32 ∧ averageTime 2700 3 = 900#32 ∧ pclass small 300#32 300#32 900#32 = .zero)
      ∧ (Code.empty.finalized = false ∧ (finalizeCode small Code.empty).isSome = true)
      ∧ (numbered 3).finalized = false ∧ (finalizeCode small (numbered 3)).isSome = true
      ∧ (numbered 3).bits ≠ [] := by
  decide

/-- The quotient at its greatest 32-bit value, and the empty class. -/
theorem witness_AverageIsFlooredQuotient :
    (0 < 2 ∧ (2 * 4294967295 + 1) / 2 < 2 ^ 32) ∧ averageTime 5 0 = 0#32 := by decide

theorem witness_AssembledAveragesAreExact : BlockInv decoding ∧ decoding.state = .decoding :=
  ⟨decoding_inv, by decide⟩

/-- V8: unanimous and not unanimous. -/
theorem witness_InferenceByUnanimousGroups :
    inferAt [false, true, false, true, false, true, false] 4 = some true
      ∧ inferAt [false, false, false, false, false, true, false, false, true] 4 = none
      ∧ inferReference [false, false, false, false, false, true, false, false, true] = false := by
  decide

/-- The classes of the averages 300 and 900 at their boundaries (V7). -/
theorem witness_PreambleClassBoundaries :
    300 * small.preMinZeroNum / small.divisor = 112 ∧ 300 * small.preMaxZeroNum / small.divisor = 450
      ∧ 900 * small.preMinOneNum / small.divisor = 562 ∧ 900 * small.preMaxOneNum / small.divisor = 1462
      ∧ [111#32, 112#32, 450#32, 451#32, 561#32, 562#32, 1462#32, 1463#32].map
        (fun d => pclass small d 300#32 900#32) =
          [.short, .zero, .zero, .medium, .medium, .one, .one, .long] := by
  decide

theorem witness_NibblesAndBytesReadFirstBitHigh :
    4 * 0 + 3 < sixSamples.length ∧ readNibble sixSamples 0 = 5#4 ∧ packedByte sixSamples 0 = 0x54#8 := by decide

theorem witness_DecodersDeliver : fresh.txBusy = false := by decide

/-- The symbols of R155's example. -/
def exampleSymbols (i : Nat) : Symbol :=
  [Symbol.zero, .one, .zero, .one, .zero, .zero, .one, .one, .zero, .one, .one, .zero].getD i .two

theorem witness_V1aApplicability :
    (decodeV1a Params.ref v1aExample).map (fun r => r.group) = some (some 5#4) := by decide

/-- With no table and with one. -/
theorem witness_V1aFieldValues_tables :
    small.v1aAction = .unprinted ∧ small.v2aAction = .unprinted
      ∧ (∃ table, v1aTable = .given table) ∧ ∃ table, v2aTable = .given table :=
  ⟨rfl, rfl, ⟨_, rfl⟩, ⟨_, rfl⟩⟩

theorem witness_V1aFieldValues :
    v1aExample.valid = true ∧ v1aExample.finalized = true ∧ v1aExample.length = 49
      ∧ v1aExample.bits[48]? = some false
      ∧ ∀ i < 12, symbolOf (readNibble v1aExample i) = some (exampleSymbols i) := by
  decide

set_option maxRecDepth 20000 in
/-- R159's Codes, with 32 and with 36 nibbles. -/
theorem witness_V2aFieldValues :
    (v2aExample.valid = true ∧ v2aExample.finalized = true ∧ 32 = v2aExample.length / 4
        ∧ v2aExample.length % 4 = 1 ∧ v2aExample.bits[v2aExample.length - 1]? = some false
        ∧ ∀ i < 32, Params.ref.v2aSymbol.lookup (readNibble v2aExample i) =
          some (decide (i = 0 ∨ i = 2 ∨ i = 27 ∨ i = 28)))
      ∧ v2aDimExample.valid = true ∧ v2aDimExample.finalized = true ∧ 36 = v2aDimExample.length / 4
      ∧ v2aDimExample.length % 4 = 1 ∧ v2aDimExample.bits[v2aDimExample.length - 1]? = some false
      ∧ ∀ i < 36, Params.ref.v2aSymbol.lookup (readNibble v2aDimExample i) =
        some (decide (i = 0 ∨ i = 2 ∨ i = 27 ∨ i = 28 ∨ 32 ≤ i)) := by
  decide

set_option maxRecDepth 20000 in
/-- Three trailing bits are applicable too. -/
theorem witness_V2aFieldValues_threeTrailing :
    { v2aExample with bits := v2aExample.bits ++ [false, false] }.length % 4 = 3 := by decide

set_option maxRecDepth 20000 in
theorem witness_V2aApplicability :
    (decodeV2a Params.ref v2aExample).map (fun r => r.stateBit) = some true := by
  decide

theorem witness_AtMostOneDecoderApplies :
    (decodeV1a Params.ref v1aExample).map (fun r => r.device) = some (some 3#4) := by decide

theorem witness_TransmitStarts : fresh.txBusy = false := by decide

theorem witness_ScheduleSegments :
    0 < TxConfig.ref.repeatCount.toNat ∧ 1 < TxConfig.ref.repeatCount.toNat
      ∧ 5 < (pulses sixSamples TxConfig.ref).length := by
  decide

theorem witness_ScheduleDuration : 0 < TxConfig.ref.repeatCount.toNat := by decide

theorem witness_SequencerStep :
    sending.params.wellFormed = true ∧ sending.txBusy = true ∧ sending.inputs = []
      ∧ sending.txSchedule[sending.txPhase]? = some { level := false, duration := 4000#32 }
      ∧ { sending with txPhase := 0 }.txSchedule[0]? = some { level := true, duration := 300#32 }
      ∧ sending.txStart = none ∧ holding.inputs = [] ∧ holding.txStart ≠ none := by
  decide

theorem witness_TransmissionRunsToCompletion :
    fresh.params.wellFormed = true ∧ fresh.inputs = [] ∧ ∃ t, exec (.transmit (numbered 3)) fresh = .next t :=
  ⟨by decide, rfl, _, rfl⟩

/-- A reading at the pin write, and one during the hold. -/
theorem witness_HoldLastsItsDuration :
    (sending.params.wellFormed = true ∧ sending.txBusy = true ∧ sending.txStart = none
        ∧ sending.txSchedule[sending.txPhase]? = some { level := false, duration := 4000#32 })
      ∧ holding.params.wellFormed = true ∧ holding.txBusy = true ∧ holding.txStart = some 100#32
      ∧ holding.txSchedule[holding.txPhase]? = some { level := false, duration := 4000#32 } := by
  decide

/-- Just ended, just not, and across the clock's wrap; and two readings before the end. -/
theorem witness_HoldLastsItsDuration_readings :
    let since := fun start now : Time => (now.toNat + 2 ^ 32 - start.toNat) % 2 ^ 32
    since 100#32 4100#32 = 4000 ∧ since 100#32 4099#32 = 3999 ∧ since 0xFFFFFF00#32 0x00000EA0#32 = 4000
      ∧ ∀ now ∈ [100#32, 4099#32], since 100#32 now < 4000 := by
  simp

/-- Three runs, the last of two segments, one of no length. -/
theorem witness_WaveformMergesEqualLevels :
    waveform [⟨false, 4000#32⟩, ⟨true, 0#32⟩, ⟨false, 900#32⟩, ⟨false, 4000#32⟩] =
        [⟨false, 4000⟩, ⟨true, 0⟩, ⟨false, 4900⟩]
      ∧ [[⟨false, 4000#32⟩], [⟨true, 0#32⟩], [⟨false, 900#32⟩, ⟨false, 4000#32⟩]].flatten =
        [Segment.mk false 4000#32, ⟨true, 0#32⟩, ⟨false, 900#32⟩, ⟨false, 4000#32⟩]
      ∧ levelAt [⟨false, 4000⟩, ⟨true, 0⟩, ⟨false, 4900⟩] 8899 = some false
      ∧ levelAt [⟨false, 4000⟩, ⟨true, 0⟩, ⟨false, 4900⟩] 8900 = none := by
  decide

theorem witness_CfgSetWritesOneField :
    fresh.txBusy = false ∧ (7#4 : BitVec 4).toNat < 8 ∧ 8 ≤ (8#4 : BitVec 4).toNat := by decide

theorem witness_CfgGetReadsAllFields : fresh.txBusy = false := by decide

theorem witness_PresetLoadsConfiguration :
    fresh.txBusy = false ∧ fresh.params.presets.lookup 1#32 = none
      ∧ { small with presets := [(1#32, TxConfig.ref)] }.presets.lookup 1#32 = some TxConfig.ref := by
  decide

theorem witness_ForegroundLeavesReceiver :
    (contextOf .pop = .foreground ∧ ∃ t, exec .pop fullRing = .next t)
      ∧ contextOf (.cfgSet 0#4 0#32) = .foreground ∧ ∃ t, exec (.cfgSet 0#4 0#32) fresh = .next t :=
  ⟨⟨rfl, _, rfl⟩, rfl, _, rfl⟩

theorem witness_NeitherSideReadsTheOther :
    (∃ t, exec (.edge 4000#32) fullRing = .next t)
      ∧ contextOf .pop = .foreground ∧ ∃ t, exec .pop fullRing = .next t :=
  ⟨⟨_, rfl⟩, rfl, _, rfl⟩

end Sys2Proof.Tests
end

/-! One step of the block: the configuration check, the input taken, the request run (R10, R14, R61). -/

namespace Sys2Proof.Machine

/-! ### Which input is taken -/

/-- An input that stands first is taken unless it waits for a transmission in progress (R79). -/
theorem takeInput_first {busy : Bool} {x : Input} (rest : List Input)
    (h : busy = false ∨ waitsForForeground x = false) : takeInput busy (x :: rest) = some (x, rest) := by
  obtain hidle | hfree := h
  · simp [takeInput, hidle]
  · simp [takeInput, hfree]

/-- A request waits exactly when the operation it names is the foreground's (R79). -/
theorem waitsForForeground_of_decode {r : Request} {i : Instr} (h : decode r = .ok i) :
    waitsForForeground (.request r) = decide (contextOf i = .foreground) := by
  simp only [waitsForForeground, foregroundRequest, h]

/-! ### What a step does -/

/-- R10: outside the well-formed configurations there is no step. -/
theorem step_of_illFormed {s : State} (h : s.params.wellFormed = false) :
    step s = .refused .illFormedConfiguration := by
  simp only [step, h, Bool.false_eq_true, if_false]

/-- A step runs the input it takes. -/
theorem step_of_takeInput {s : State} {x : Input} {rest : List Input} (hwf : s.params.wellFormed = true)
    (h : takeInput s.txBusy s.inputs = some (x, rest)) : step s = runInput x { s with inputs := rest } := by
  simp only [step, agentStep, hwf, h, if_true]

/-- A request with a well-formed operation runs it, unless the request is ignored (R78, U9). -/
theorem runRequest_of_decode {r : Request} {i : Instr} {s : State} (h : decode r = .ok i)
    (hi : i.wellFormed s.params = true) :
    runRequest r s = if ignoredRequest s.params r = true then .next s else exec i s := by
  simp only [runRequest, h, hi, if_true]

/-! ### The obligations -/

/-- Settles O3: the step runs the input it takes, and a request taken runs its operation unless it is ignored. -/
theorem stepRunsDecodedRequest : Obligations.StepRunsDecodedRequest := by
  intro s r rest i hwf hdec
  refine ⟨fun htake hi => ?runs, fun hr hget => ?canonical, fun hfirst hctx => ?taken⟩
  case runs =>
    calc step s = runRequest r { s with inputs := rest } := step_of_takeInput hwf htake
      _ = if ignoredRequest s.params r = true then .next { s with inputs := rest }
          else exec i { s with inputs := rest } := runRequest_of_decode hdec hi
      _ = _ := by simp only [ignoredRequest_iff hdec]
  case canonical =>
    subst hr hget
    decide
  case taken =>
    have hfree : s.txBusy = false ∨ waitsForForeground (.request r) = false :=
      hctx.imp_right fun hint => by simp [waitsForForeground_of_decode hdec, hint]
    rw [hfirst]
    exact takeInput_first rest hfree

/-- Settles O4: the configuration is checked before any input is looked at. -/
theorem illFormedConfigurationRefused : Obligations.IllFormedConfigurationRefused :=
  fun _ h => step_of_illFormed h

end Sys2Proof.Machine

/-! What an EDGE can do to the state: the answers of the edge handler's sub-steps, for every state and whatever the
write index, and what follows for the learned bit times (R22) and for everything EDGE leaves alone (R62). -/

namespace Sys2Proof.Machine

/-! ### The answers of the sub-steps -/

/-- CLAIM answers its one state, and needed the write slot. -/
theorem claim_cases {s t : State} (h : claim s = .next t) : s.writeIndex < s.slots.length ∧
    t = { s with
      slots := s.slots.set s.writeIndex Slot.empty
      readIndex := if unreadAt s s.writeIndex then (s.readIndex + 1) % s.params.n else s.readIndex } := by
  obtain ⟨hw, -⟩ := withSlot_cases _ _ _ _ h
  rw [claim_of_lt s hw] at h
  exact ⟨hw, (Host.Outcome.next.inj h).symm⟩

/-- COMMIT answers its one state, and needed the write slot. -/
theorem commit_cases {s t : State} (h : commit s = .next t) : s.writeIndex < s.slots.length ∧
    t = { s with
      slots := s.slots.set s.writeIndex { code := committed (curCode s), unread := true }
      writeIndex := (s.writeIndex + 1) % s.params.n } := by
  obtain ⟨hw, -⟩ := withSlot_cases _ _ _ _ h
  rw [commit_of_lt s hw] at h
  exact ⟨hw, (Host.Outcome.next.inj h).symm⟩

/-- The message-start check writes the state register itself, whatever it was. -/
theorem afterStartCheck_of_awaitPause (d : Time) (shared : Bool) (s : State) :
    afterStartCheck d shared { s with state := .awaitPause } = afterStartCheck d shared s := rfl

/-- ABORT answers the state after its message-start check. -/
theorem abort_cases {cause : AbortCause} {d : Time} {s t : State} (h : abort cause d s = .next t) :
    t = afterStartCheck d (decide (cause = .decTooShort)) s := by
  rw [← afterStartCheck_of_awaitPause]
  exact (startCheck_cases h).1

/-- PREAMBLE answers its one state, and needed the write slot. -/
theorem preamble_cases {d : Time} {s t : State} (h : preamble d s = .next t) : s.writeIndex < s.slots.length ∧
    t = { withCurCode s { curCode s with preambleTime := (curCode s).preambleTime.set s.preambleCount d } with
      preambleCount := true
      state := if s.preambleCount then .calibrating else s.state } := by
  obtain ⟨hw, -⟩ := withCur_cases h
  rw [preamble_of_lt d s hw] at h
  exact ⟨hw, (Host.Outcome.next.inj h).symm⟩

/-- COMPLETE answers the state after the message-start check on the committed message. -/
theorem complete_cases {d : Time} {s t : State} (h : complete d s = .next t) :
    s.writeIndex < s.slots.length ∧ t = afterStartCheck d true (committedMessage s) := by
  obtain ⟨u, hcommit, hcheck⟩ := andThen_cases _ _ _ h
  obtain ⟨hw, rfl⟩ := commit_cases hcommit
  have hw : s.writeIndex < s.slots.length := by simpa using hw
  refine ⟨hw, ?_⟩
  rw [(startCheck_cases hcheck).1, afterStartCheck_of_awaitPause, modifyCur_of_lt s _ hw]
  simp [committedMessage, withCurCode, curCode, codeAt, hw, committed, completedCode]

/-- CONVERGE ends the calibration, aborts it, or lets it go on. -/
theorem converge_cases {d : Time} {s t : State} (h : converge d s = .next t) :
    t = { s with state := .decoding } ∨ t = afterStartCheck d false s ∨ t = s := by
  obtain ⟨hw, -⟩ := withCur_cases h
  rw [converge_of_lt d s hw] at h
  cases h
  split
  · exact .inl rfl
  · split
    · exact .inr (.inl rfl)
    · exact .inr (.inr rfl)

/-- CALIBRATING either ends in the message-start check, with the estimates as they were, learned, or learned with
the sample appended; or appends the sample and goes on, to DECODING or not (R106 to R111). -/
theorem calibrate_cases {d : Time} {s t : State} (h : calibrate d s = .next t) :
    t = afterStartCheck d false s
      ∨ ∃ b u, learn d s = some (b, u)
        ∧ (t = afterStartCheck d false u ∨ t = afterStartCheck d false (sampled b d u)
          ∨ t = { sampled b d u with state := .decoding } ∨ t = sampled b d u) := by
  obtain ⟨-, h⟩ := withCur_cases h
  split at h
  · exact .inl (abort_cases h)
  · rename_i b u hlearn
    refine .inr ⟨b, u, hlearn, ?_⟩
    split at h
    · exact .inl (abort_cases h)
    · obtain ⟨v, happend, hconverge⟩ := andThen_cases _ _ _ h
      obtain ⟨-, -, rfl⟩ := append_cases happend
      obtain hdec | habort | hon := converge_cases hconverge
      · exact .inr (.inr (.inl hdec))
      · exact .inr (.inl habort)
      · exact .inr (.inr (.inr hon))

/-- DECODING hands a pause to the message-start check as shared, the message committed or aborted; any other
duration is appended as the bit it is classified as, or aborts (R112 to R114). -/
theorem decodeDuration_cases {d : Time} {s t : State} (h : decodeDuration d s = .next t) :
    (isPause s.params s.prePauseTime d = true
        ∧ (t = afterStartCheck d true (committedMessage s) ∨ t = afterStartCheck d true s))
      ∨ (isPause s.params s.prePauseTime d = false
        ∧ (t = afterStartCheck d false s ∨ ∃ b, dataBit d s = some b ∧ t = sampled b d s)) := by
  obtain ⟨-, h⟩ := withCur_cases h
  split at h
  · rename_i hpause
    refine .inl ⟨hpause, ?_⟩
    split at h
    · exact .inl (complete_cases h).2
    · exact .inr (abort_cases h)
  · rename_i hpause
    refine .inr ⟨Bool.eq_false_of_not_eq_true hpause, ?_⟩
    split at h
    · exact .inl (abort_cases h)
    · rename_i b hbit
      split at h
      · exact .inl (abort_cases h)
      · exact .inr ⟨b, hbit, (append_cases h).2.2⟩

/-! ### What EDGE leaves alone -/

/-- The commit of the message in progress leaves the outside alone. -/
theorem committedMessage_sameOutside (s : State) : SameOutside s (committedMessage s) :=
  ⟨rfl, rfl, rfl, rfl, rfl, rfl, rfl, rfl, by simp, rfl, rfl⟩

theorem calibrate_sameOutside {d : Time} {s t : State} (h : calibrate d s = .next t) : SameOutside s t := by
  obtain rfl | ⟨b, u, hlearn, hend⟩ := calibrate_cases h
  · exact (afterStartCheck_frame d false s).1
  · have hu : SameOutside s u := (learn_sameOutside hlearn).1
    have hv : SameOutside s (sampled b d u) := hu.trans (sampled_frame b d u).1
    obtain rfl | rfl | rfl | rfl := hend
    · exact hu.trans (afterStartCheck_frame d false u).1
    · exact hv.trans (afterStartCheck_frame d false _).1
    · exact hv
    · exact hv

theorem decodeDuration_sameOutside {d : Time} {s t : State} (h : decodeDuration d s = .next t) :
    SameOutside s t := by
  obtain ⟨-, rfl | rfl⟩ | ⟨-, rfl | ⟨b, -, rfl⟩⟩ := decodeDuration_cases h
  · exact (committedMessage_sameOutside s).trans (afterStartCheck_frame d true _).1
  · exact (afterStartCheck_frame d true s).1
  · exact (afterStartCheck_frame d false s).1
  · exact (sampled_frame b d s).1

/-- The edge handler leaves the outside alone, in every state of the assembler. -/
theorem handle_sameOutside {d : Time} {s t : State} (h : handle d s = .next t) : SameOutside s t := by
  cases hstate : s.state with
  | awaitPause =>
    rw [handle_awaitPause d s hstate] at h
    rw [(startCheck_cases h).1]
    exact (afterStartCheck_frame d false s).1
  | inPreamble =>
    rw [handle_inPreamble d s hstate] at h
    obtain ⟨-, rfl⟩ := preamble_cases h
    exact ⟨rfl, rfl, rfl, rfl, rfl, rfl, rfl, rfl, by simp [withCurCode], rfl, rfl⟩
  | calibrating =>
    rw [handle_calibrating d s hstate] at h
    exact calibrate_sameOutside h
  | decoding =>
    rw [handle_decoding d s hstate] at h
    exact decodeDuration_sameOutside h

theorem exec_edge (ts : Time) (s : State) :
    exec (.edge ts) s = handle (edgeDuration s.lastEdgeTime ts) { s with lastEdgeTime := ts } := rfl

theorem exec_edge_params {ts : Time} {s t : State} (h : exec (.edge ts) s = .next t) : t.params = s.params := by
  rw [exec_edge] at h
  obtain ⟨-, -, -, -, -, hparams, -⟩ := handle_sameOutside h
  exact hparams

/-! ### The estimates under EDGE -/

/-- The two estimates are what they were. -/
def EstimatesKept (s t : State) : Prop := t.zeroTime = s.zeroTime ∧ t.oneTime = s.oneTime

/-- The two estimates are unknown, as at a message start (R103). -/
def EstimatesCleared (t : State) : Prop := t.zeroTime = 0#32 ∧ t.oneTime = 0#32

theorem afterStartCheck_cleared {d : Time} {shared : Bool} {s : State}
    (h : (afterStartCheck d shared s).state = .inPreamble) : EstimatesCleared (afterStartCheck d shared s) := by
  by_cases hd : s.params.minPrePauseUs ≤ d.toNat
  · rw [afterStartCheck, if_pos hd]
    exact ⟨rfl, rfl⟩
  · rw [afterStartCheck, if_neg hd] at h
    cases h

theorem afterStartCheck_kept {d : Time} {shared : Bool} {s : State}
    (h : (afterStartCheck d shared s).state ≠ .inPreamble) : EstimatesKept s (afterStartCheck d shared s) := by
  by_cases hd : s.params.minPrePauseUs ≤ d.toNat
  · rw [afterStartCheck, if_pos hd] at h
    exact absurd rfl h
  · rw [afterStartCheck, if_neg hd]
    exact ⟨rfl, rfl⟩

/-- PREAMBLE writes neither estimate. -/
theorem preamble_kept {d : Time} {s t : State} (h : preamble d s = .next t) : EstimatesKept s t := by
  obtain ⟨-, rfl⟩ := preamble_cases h
  exact ⟨rfl, rfl⟩

/-- A message that CALIBRATING starts, after an abort, has unknown estimates. -/
theorem calibrate_cleared {d : Time} {s t : State} (hs : s.state = .calibrating) (h : calibrate d s = .next t)
    (ht : t.state = .inPreamble) : EstimatesCleared t := by
  obtain rfl | ⟨b, u, hlearn, rfl | rfl | rfl | rfl⟩ := calibrate_cases h
  · exact afterStartCheck_cleared ht
  · exact afterStartCheck_cleared ht
  · exact afterStartCheck_cleared ht
  · cases ht
  · obtain ⟨-, -, -, hstate, -⟩ := learn_frame d s u b hlearn
    rw [sampled_state, hstate, hs] at ht
    cases ht

/-- A message that DECODING starts, after a commit or an abort, has unknown estimates. -/
theorem decodeDuration_cleared {d : Time} {s t : State} (hs : s.state = .decoding)
    (h : decodeDuration d s = .next t) (ht : t.state = .inPreamble) : EstimatesCleared t := by
  obtain ⟨-, rfl | rfl⟩ | ⟨-, rfl | ⟨b, -, rfl⟩⟩ := decodeDuration_cases h
  · exact afterStartCheck_cleared ht
  · exact afterStartCheck_cleared ht
  · exact afterStartCheck_cleared ht
  · rw [sampled_state, hs] at ht
    cases ht

/-- DECODING writes neither estimate unless it starts a message. -/
theorem decodeDuration_kept {d : Time} {s t : State} (h : decodeDuration d s = .next t)
    (ht : t.state ≠ .inPreamble) : EstimatesKept s t := by
  obtain ⟨-, rfl | rfl⟩ | ⟨-, rfl | ⟨b, -, rfl⟩⟩ := decodeDuration_cases h
  · exact afterStartCheck_kept ht
  · exact afterStartCheck_kept ht
  · exact afterStartCheck_kept ht
  · exact ⟨rfl, rfl⟩

/-- Outside CALIBRATING the edge handler writes an estimate only where it starts a message. -/
theorem handle_kept {d : Time} {s t : State} (h : handle d s = .next t) (hs : s.state ≠ .calibrating)
    (ht : s.state = .inPreamble ∨ t.state ≠ .inPreamble) : EstimatesKept s t := by
  cases hstate : s.state with
  | awaitPause =>
    rw [handle_awaitPause d s hstate] at h
    obtain ⟨rfl, -⟩ := startCheck_cases h
    exact afterStartCheck_kept (ht.resolve_left (by simp [hstate]))
  | inPreamble =>
    rw [handle_inPreamble d s hstate] at h
    exact preamble_kept h
  | calibrating => exact absurd hstate hs
  | decoding =>
    rw [handle_decoding d s hstate] at h
    exact decodeDuration_kept h (ht.resolve_left (by simp [hstate]))

/-- A message that the edge handler starts has unknown estimates. -/
theorem handle_cleared {d : Time} {s t : State} (h : handle d s = .next t) (hs : s.state ≠ .inPreamble)
    (ht : t.state = .inPreamble) : EstimatesCleared t := by
  cases hstate : s.state with
  | awaitPause =>
    rw [handle_awaitPause d s hstate] at h
    obtain ⟨rfl, -⟩ := startCheck_cases h
    exact afterStartCheck_cleared ht
  | inPreamble => exact absurd hstate hs
  | calibrating =>
    rw [handle_calibrating d s hstate] at h
    exact calibrate_cleared hstate h ht
  | decoding =>
    rw [handle_decoding d s hstate] at h
    exact decodeDuration_cleared hstate h ht

/-- Outside CALIBRATING an EDGE writes an estimate only where it starts a message (R22). -/
theorem exec_edge_kept {ts : Time} {s t : State} (h : exec (.edge ts) s = .next t) (hs : s.state ≠ .calibrating)
    (ht : s.state = .inPreamble ∨ t.state ≠ .inPreamble) : EstimatesKept s t := by
  rw [exec_edge] at h
  have hkept := handle_kept h
  exact hkept hs ht

/-- A message that an EDGE starts has unknown estimates (R22, R103). -/
theorem exec_edge_cleared {ts : Time} {s t : State} (h : exec (.edge ts) s = .next t) (hs : s.state ≠ .inPreamble)
    (ht : t.state = .inPreamble) : EstimatesCleared t := by
  rw [exec_edge] at h
  have hcleared := handle_cleared h
  exact hcleared hs ht

end Sys2Proof.Machine

/-! What the operations other than EDGE leave alone: the receiver's working registers and the configuration
(R39, R62). -/

namespace Sys2Proof.Machine

/-- The receiver's working registers and the configuration are what they were. -/
def SameReceiver (s t : State) : Prop := receiverOf s t = t ∧ t.params = s.params

theorem SameReceiver.refl (s : State) : SameReceiver s s := ⟨rfl, rfl⟩

theorem SameReceiver.params {s t : State} (h : SameReceiver s t) : t.params = s.params := h.2

theorem SameReceiver.state {s t : State} (h : SameReceiver s t) : t.state = s.state :=
  (congrArg State.state h.1).symm

theorem SameReceiver.estimatesKept {s t : State} (h : SameReceiver s t) : EstimatesKept s t :=
  ⟨(congrArg State.zeroTime h.1).symm, (congrArg State.oneTime h.1).symm⟩

theorem execPush_sameReceiver {c : Code} {s t : State} (h : execPush c s = .next t) : SameReceiver s t := by
  unfold execPush at h
  split at h
  · obtain ⟨u, hclaim, hcommit⟩ := andThen_cases _ _ _ h
    obtain ⟨-, rfl⟩ := claim_cases hclaim
    obtain ⟨-, rfl⟩ := commit_cases hcommit
    exact ⟨rfl, rfl⟩
  · cases h

theorem execPop_sameReceiver {s t : State} (h : execPop s = .next t) : SameReceiver s t := by
  obtain ⟨-, h⟩ := whenIdle_cases _ _ _ h
  obtain ⟨-, h⟩ := withSlot_cases _ _ _ _ h
  split at h <;> cases h <;> exact ⟨rfl, rfl⟩

theorem execFinalize_sameReceiver {c : Code} {s t : State} (h : execFinalize c s = .next t) :
    SameReceiver s t := by
  obtain ⟨-, h⟩ := whenIdle_cases _ _ _ h
  split at h
  · cases h
    exact ⟨rfl, rfl⟩
  · cases h

theorem execPreset_sameReceiver {n : BitVec 32} {s t : State} (h : execPreset n s = .next t) :
    SameReceiver s t := by
  obtain ⟨-, h⟩ := whenIdle_cases _ _ _ h
  split at h <;> cases h <;> exact ⟨rfl, rfl⟩

/-- An operation that, while idle, answers one state has the frame of that state. -/
theorem whenIdle_sameReceiver {s t u : State} (h : whenIdle s (.next u) = .next t) (hu : SameReceiver s u) :
    SameReceiver s t := by
  obtain ⟨-, h⟩ := whenIdle_cases _ _ _ h
  cases h
  exact hu

/-- No operation but EDGE writes the receiver's working registers (R62), and none of them the configuration. -/
theorem exec_sameReceiver {i : Instr} {s t : State} (hi : ∀ ts : Time, i ≠ .edge ts) (h : exec i s = .next t) :
    SameReceiver s t := by
  cases i with
  | edge ts => exact absurd rfl (hi ts)
  | push c => exact execPush_sameReceiver h
  | pop => exact execPop_sameReceiver h
  | finalize c => exact execFinalize_sameReceiver h
  | decodeV1a c => exact whenIdle_sameReceiver h ⟨rfl, rfl⟩
  | decodeV2a c => exact whenIdle_sameReceiver h ⟨rfl, rfl⟩
  | transmit c => exact whenIdle_sameReceiver h ⟨rfl, rfl⟩
  | cfgSet idx value => exact whenIdle_sameReceiver h ⟨rfl, rfl⟩
  | cfgGet => exact whenIdle_sameReceiver h ⟨rfl, rfl⟩
  | preset n => exact execPreset_sameReceiver h

end Sys2Proof.Machine

/-! The configuration over a step (R39), and where the estimates are written (R22). -/

namespace Sys2Proof.Machine

/-! ### What a step can do -/

/-- A step runs the input it takes; where it takes none, the sequencer moves while a transmission is in progress, and
else nothing does (R184, R230). -/
theorem step_cases {s t : State} (h : step s = .next t) : s.params.wellFormed = true ∧
    ((∃ x rest, takeInput s.txBusy s.inputs = some (x, rest) ∧ runInput x { s with inputs := rest } = .next t)
      ∨ (takeInput s.txBusy s.inputs = none
        ∧ ((s.txBusy = true ∧ txIdleStep s = .next t) ∨ (s.txBusy = false ∧ t = s)))) := by
  unfold step at h
  split at h
  · rename_i hwf
    refine ⟨hwf, ?_⟩
    unfold agentStep at h
    split at h
    · exact .inl ⟨_, _, by assumption, h⟩
    · refine .inr ⟨by assumption, ?_⟩
      split at h
      · exact .inl ⟨by assumption, h⟩
      · cases h
        exact .inr ⟨Bool.eq_false_of_not_eq_true (by assumption), rfl⟩
  · cases h

/-! ### The configuration -/

theorem exec_params {i : Instr} {s t : State} (h : exec i s = .next t) : t.params = s.params := by
  by_cases hi : ∃ ts, i = .edge ts
  · obtain ⟨ts, rfl⟩ := hi
    exact exec_edge_params h
  · exact (exec_sameReceiver (fun ts hts => hi ⟨ts, hts⟩) h).params

theorem txClock_params {now : Time} {s t : State} (h : txClock now s = .next t) : t.params = s.params := by
  obtain ⟨seg, -, ⟨-, rfl⟩ | ⟨-, rfl⟩⟩ := txClock_cases h
  · exact endSegment_params seg s
  · exact holdSegment_params seg _ s

theorem txIdleStep_params {s t : State} (h : txIdleStep s = .next t) : t.params = s.params := by
  obtain ⟨-, rfl⟩ | ⟨-, seg, -, rfl⟩ := txIdleStep_cases h
  · rfl
  · exact endSegment_params seg s

/-- No input changes the configuration, the reset signal included. -/
theorem runInput_params {x : Input} {s t : State} (h : runInput x s = .next t) : t.params = s.params := by
  cases x with
  | request r =>
    obtain ⟨rfl, -⟩ | ⟨i, -, -, -, hexec⟩ := runRequest_cases h
    · rfl
    · exact exec_params hexec
  | clock now =>
    simp only [runInput] at h
    split at h
    · exact txClock_params h
    · cases h
      rfl
  | reset =>
    cases h
    rfl

/-! ### The obligations -/

/-- Settles O12: neither an input nor the sequencer writes the configuration. -/
theorem configurationIsFixed : Obligations.ConfigurationIsFixed := by
  intro s t h
  obtain ⟨-, ⟨x, rest, -, hrun⟩ | ⟨-, ⟨-, hsend⟩ | ⟨-, rfl⟩⟩⟩ := step_cases h
  · have hparams := runInput_params hrun
    exact hparams
  · exact txIdleStep_params hsend
  · rfl

/-- Settles O26: EDGE writes the estimates in CALIBRATING and at a message start only, and the other operations do
not write them and start no message. -/
theorem estimatesWrittenOnlyInCalibrating : Obligations.EstimatesWrittenOnlyInCalibrating := by
  refine ⟨fun p => ⟨rfl, rfl⟩, fun s t i h => ?_⟩
  by_cases hi : ∃ ts, i = .edge ts
  · obtain ⟨ts, rfl⟩ := hi
    exact ⟨exec_edge_kept h, exec_edge_cleared h, fun hne => absurd rfl (hne ts)⟩
  · have hsame := exec_sameReceiver (fun ts hts => hi ⟨ts, hts⟩) h
    exact ⟨fun _ _ => hsame.estimatesKept, fun hs ht => absurd (hsame.state.symm.trans ht) hs,
      fun _ => hsame.estimatesKept⟩

end Sys2Proof.Machine

/-! Which stops a step can make (R51, R52, R173): from the block's invariant every EDGE completes, and a step answers a
next state or one of three refusals. -/

namespace Sys2Proof.Machine

/-! ### EDGE completes -/

/-- While calibrating the Code in progress has room for one more bit (R110). -/
theorem BlockInv.room_of_calibrating {s : State} (h : BlockInv s) (hs : s.state = .calibrating) :
    (curCode s).length < s.params.bufBits := by
  have hlen : (curCode s).length < s.params.maxSamples := h.phase.2.1 hs
  obtain ⟨-, -, -, -, -, hmax, -, -, hbuf⟩ := wellFormed_facts _ h.config
  omega

/-- The edge handler completes from every state of the invariant: every slot it touches is there, and the Code in
progress has room. -/
theorem handle_completes {s : State} (h : BlockInv s) (d : Time) : ∃ t, handle d s = .next t := by
  have hw := (base_of_inv h).write_lt
  cases hs : s.state with
  | awaitPause => exact ⟨_, (handle_awaitPause d s hs).trans (startCheck_of_lt d false s hw)⟩
  | inPreamble => exact ⟨_, (handle_inPreamble d s hs).trans (preamble_of_lt d s hw)⟩
  | calibrating =>
    exact ⟨_, (handle_calibrating d s hs).trans (calibrate_of_lt d s hw (h.room_of_calibrating hs))⟩
  | decoding =>
    obtain ⟨-, -, -, -, -, -, -, -, hbuf⟩ := wellFormed_facts _ h.config
    exact ⟨_, (handle_decoding d s hs).trans
      (decodeDuration_of_lt d s hw (base_of_inv h).next_lt (by omega))⟩

/-- The invariant reads neither the time stamp of the last edge nor the environment's inputs. -/
theorem BlockInv.withLastEdgeTime {s : State} (h : BlockInv s) (ts : Time) :
    BlockInv { s with lastEdgeTime := ts } :=
  ⟨h.config, h.slots, h.ring, h.message, h.phase, h.send⟩

theorem BlockInv.withInputs {s : State} (h : BlockInv s) (xs : List Input) : BlockInv { s with inputs := xs } :=
  ⟨h.config, h.slots, h.ring, h.message, h.phase, h.send⟩

theorem exec_edge_completes {s : State} (h : BlockInv s) (ts : Time) : ∃ t, exec (.edge ts) s = .next t := by
  rw [exec_edge]
  exact handle_completes (h.withLastEdgeTime ts) _

/-! ### The stops of an answer -/

/-- The answer is no fault, and a refusal only for an operand no record holds (R30), a PUSH during a message (R173) or
a Code too full to finalize (R52). -/
def OnlyNamedStops : Answer → Prop
  | .next _ => True
  | .fault _ => False
  | .refused r => r = .operandTooLong ∨ r = .pushDuringMessage ∨ r = .bitBufferFull

theorem OnlyNamedStops.no_fault {a : Answer} (h : OnlyNamedStops a) (f : Fault) : a ≠ .fault f := by
  rintro rfl
  exact h

theorem OnlyNamedStops.refusal {a : Answer} {r : Refusal} (h : OnlyNamedStops a) (hr : a = .refused r) :
    r = .operandTooLong ∨ r = .pushDuringMessage ∨ r = .bitBufferFull := by
  subst hr
  exact h

theorem OnlyNamedStops.of_next {a : Answer} (h : ∃ t, a = .next t) : OnlyNamedStops a := by
  obtain ⟨t, rfl⟩ := h
  exact trivial

/-- The guard of the foreground operations adds no stop while no transmission is in progress. -/
theorem OnlyNamedStops.whenIdle {s : State} {a : Answer} (hidle : s.txBusy = false) (h : OnlyNamedStops a) :
    OnlyNamedStops (whenIdle s a) := by
  rwa [whenIdle_of_idle s a hidle]

/-! ### The operations -/

/-- PUSH completes while no message is in progress, and is else refused as a PUSH during a message (R173). -/
theorem execPush_stops {s : State} (c : Code) (hw : s.writeIndex < s.slots.length) :
    OnlyNamedStops (execPush c s) := by
  unfold execPush
  split
  · rw [claim_of_lt s hw, andThen_next, commit_of_lt _ (by simpa using hw)]
    exact trivial
  · exact .inr (.inl rfl)

/-- POP completes: there is a slot to read. -/
theorem execPop_stops {s : State} (hidle : s.txBusy = false) (hr : s.readIndex < s.slots.length) :
    OnlyNamedStops (execPop s) := by
  refine OnlyNamedStops.whenIdle hidle ?_
  rw [withSlot_of_lt s _ _ hr]
  split <;> exact trivial

/-- FINALIZE completes or is refused for a full bit buffer (R52). -/
theorem execFinalize_stops {s : State} (c : Code) (hidle : s.txBusy = false) :
    OnlyNamedStops (execFinalize c s) := by
  refine OnlyNamedStops.whenIdle hidle ?_
  cases finalizeCode s.params c with
  | some c' => exact trivial
  | none => exact .inr (.inr rfl)

/-- PRESET completes, whether or not it knows the number (R78). -/
theorem execPreset_stops {s : State} (n : BitVec 32) (hidle : s.txBusy = false) :
    OnlyNamedStops (execPreset n s) := by
  refine OnlyNamedStops.whenIdle hidle ?_
  cases s.params.presets.lookup n <;> exact trivial

/-- From the invariant no operation makes another stop, as long as the foreground's are not asked for during a
transmission (R79). -/
theorem exec_stops {i : Instr} {s : State} (h : BlockInv s)
    (hidle : contextOf i = .foreground → s.txBusy = false) : OnlyNamedStops (exec i s) := by
  have hb := base_of_inv h
  cases i with
  | edge ts => exact .of_next (exec_edge_completes h ts)
  | push c => exact execPush_stops c hb.write_lt
  | pop => exact execPop_stops (hidle rfl) (by rw [hb.length_slots]; exact h.slots.2.1)
  | finalize c => exact execFinalize_stops c (hidle rfl)
  | decodeV1a c => exact OnlyNamedStops.whenIdle (hidle rfl) trivial
  | decodeV2a c => exact OnlyNamedStops.whenIdle (hidle rfl) trivial
  | transmit c => exact OnlyNamedStops.whenIdle (hidle rfl) trivial
  | cfgSet idx value => exact OnlyNamedStops.whenIdle (hidle rfl) trivial
  | cfgGet => exact OnlyNamedStops.whenIdle (hidle rfl) trivial
  | preset n => exact execPreset_stops n (hidle rfl)

/-! ### The agents -/

/-- A request that does not wait for a transmission in progress makes no other stop. -/
theorem runRequest_stops {r : Request} {s : State} (h : BlockInv s)
    (hfree : s.txBusy = true → waitsForForeground (.request r) = false) : OnlyNamedStops (runRequest r s) := by
  cases hdec : decode r with
  | error e =>
    simp only [runRequest, hdec]
    exact trivial
  | ok i =>
    have hidle : contextOf i = .foreground → s.txBusy = false := fun hctx =>
      Bool.eq_false_of_not_eq_true fun hbusy => by
        have hno := hfree hbusy
        simp [waitsForForeground_of_decode hdec, hctx] at hno
    simp only [runRequest, hdec]
    split
    · exact trivial
    · split
      · exact exec_stops h hidle
      · exact .inl rfl

/-- While a transmission is in progress a segment is present (R184). -/
theorem BlockInv.segment_present {s : State} (h : BlockInv s) (hbusy : s.txBusy = true) :
    ∃ seg, s.txSchedule[s.txPhase]? = some seg := by
  obtain ⟨hphase, -, -⟩ := h.send.1 hbusy
  exact ⟨_, List.getElem?_eq_getElem hphase⟩

theorem txClock_completes {s : State} (h : BlockInv s) (hbusy : s.txBusy = true) (now : Time) :
    ∃ t, txClock now s = .next t := by
  obtain ⟨seg, hseg⟩ := h.segment_present hbusy
  exact ⟨_, withSegment_of_present _ hseg⟩

theorem txIdleStep_completes {s : State} (h : BlockInv s) (hbusy : s.txBusy = true) :
    ∃ t, txIdleStep s = .next t := by
  obtain ⟨seg, hseg⟩ := h.segment_present hbusy
  unfold txIdleStep
  split
  · exact ⟨_, withSegment_of_present _ hseg⟩
  · exact ⟨s, rfl⟩

/-- An input that does not wait for a transmission in progress makes no other stop. -/
theorem runInput_stops {x : Input} {s : State} (h : BlockInv s)
    (hfree : s.txBusy = true → waitsForForeground x = false) : OnlyNamedStops (runInput x s) := by
  cases x with
  | request r => exact runRequest_stops h hfree
  | clock now =>
    rw [runInput]
    split
    · exact .of_next (txClock_completes h (by assumption) now)
    · exact trivial
  | reset => exact trivial

theorem step_stops {s : State} (h : BlockInv s) : OnlyNamedStops (step s) := by
  rw [step, if_pos h.config, agentStep]
  split
  · rename_i x rest htake
    exact runInput_stops (h.withInputs rest) (takeInput_takes htake)
  · split
    · exact .of_next (txIdleStep_completes h (by assumption))
    · exact trivial

/-! ### The obligation -/

/-- Settles O11: by the invariant every slot and segment a step asks for is there, and a foreground request is taken
only while the port is ready. -/
theorem noStepFaults : Obligations.NoStepFaults :=
  fun _ h => ⟨(step_stops h).no_fault, fun _ hr => (step_stops h).refusal hr⟩

end Sys2Proof.Machine

/-! What an operation leaves alone in the ring and on the other context's side (R62, R212): the slots under EDGE, and
the receiver and the ring under the foreground's operations. -/

namespace Sys2Proof.Machine

/-! ### The slots under EDGE -/

/-- CALIBRATING writes no slot but the write slot. -/
theorem calibrate_slots {d : Time} {s t : State} (h : calibrate d s = .next t) {i : Nat}
    (hi : i ≠ s.writeIndex) : t.slots[i]? = s.slots[i]? := by
  obtain rfl | ⟨b, u, hlearn, hend⟩ := calibrate_cases h
  · exact (afterStartCheck_frame d false s).2 i hi
  · obtain ⟨-, -, -, -, -, -, hwrite, -⟩ := learn_frame d s u b hlearn
    have hiu : i ≠ u.writeIndex := by rwa [hwrite]
    have hu : u.slots[i]? = s.slots[i]? := (learn_sameOutside hlearn).2 i hi
    have hv : (sampled b d u).slots[i]? = s.slots[i]? := ((sampled_frame b d u).2 i hiu).trans hu
    obtain rfl | rfl | rfl | rfl := hend
    · exact ((afterStartCheck_frame d false u).2 i hiu).trans hu
    · exact ((afterStartCheck_frame d false (sampled b d u)).2 i hiu).trans hv
    · exact hv
    · exact hv

/-- DECODING writes no slot but the write slot and, where a committed message's closing pause starts the next message,
the one after it (R113). -/
theorem decodeDuration_slots {d : Time} {s t : State} (h : decodeDuration d s = .next t) {i : Nat}
    (hi : i ≠ s.writeIndex) (hnext : i ≠ (s.writeIndex + 1) % s.params.n) : t.slots[i]? = s.slots[i]? := by
  obtain ⟨-, rfl | rfl⟩ | ⟨-, rfl | ⟨b, -, rfl⟩⟩ := decodeDuration_cases h
  · calc (afterStartCheck d true (committedMessage s)).slots[i]?
        = (committedMessage s).slots[i]? := (afterStartCheck_frame d true _).2 i hnext
      _ = s.slots[i]? := by rw [committedMessage_slots, List.getElem?_set_ne hi.symm]
  · exact (afterStartCheck_frame d true s).2 i hi
  · exact (afterStartCheck_frame d false s).2 i hi
  · exact (sampled_frame b d s).2 i hi

/-- The edge handler writes no slot but the write slot and, from DECODING, the one after it. -/
theorem handle_slots {d : Time} {s t : State} (h : handle d s = .next t) {i : Nat} (hi : i ≠ s.writeIndex)
    (hnext : ¬(s.state = .decoding ∧ i = (s.writeIndex + 1) % s.params.n)) : t.slots[i]? = s.slots[i]? := by
  cases hs : s.state with
  | awaitPause =>
    rw [handle_awaitPause d s hs] at h
    rw [(startCheck_cases h).1]
    exact (afterStartCheck_frame d false s).2 i hi
  | inPreamble =>
    rw [handle_inPreamble d s hs] at h
    obtain ⟨-, rfl⟩ := preamble_cases h
    simp [hi.symm]
  | calibrating =>
    rw [handle_calibrating d s hs] at h
    exact calibrate_slots h hi
  | decoding =>
    rw [handle_decoding d s hs] at h
    exact decodeDuration_slots h hi fun he => hnext ⟨hs, he⟩

/-- Settles O14: the foreground's side by the frame of the edge handler, the slots by what each of its states writes. -/
theorem edgeFrame : Obligations.EdgeFrame := by
  intro s t ts h
  rw [exec_edge] at h
  obtain ⟨hcfg, hbusy, hphase, hschedule, hpin, hparams, hinputs, hresult, hlength, -, hstart⟩ :=
    handle_sameOutside h
  exact ⟨hcfg, hbusy, hphase, hschedule, hpin, hstart, hparams, hinputs, hresult, hlength,
    fun i hi hnext => handle_slots h hi hnext⟩

/-! ### The ring under the foreground's operations -/

/-- Every operation of the foreground asks first whether the request port is ready (R79). -/
theorem exec_foreground_eq_whenIdle {i : Instr} (hi : contextOf i = .foreground) (s : State) :
    ∃ a, exec i s = whenIdle s a := by
  cases i with
  | edge ts => cases hi
  | push c => cases hi
  | pop => exact ⟨_, rfl⟩
  | finalize c => exact ⟨_, rfl⟩
  | decodeV1a c => exact ⟨_, rfl⟩
  | decodeV2a c => exact ⟨_, rfl⟩
  | transmit c => exact ⟨_, rfl⟩
  | cfgSet idx value => exact ⟨_, rfl⟩
  | cfgGet => exact ⟨_, rfl⟩
  | preset n => exact ⟨_, rfl⟩

/-- A foreground operation that answers a next state ran while no transmission was in progress. -/
theorem exec_foreground_idle {i : Instr} {s t : State} (hi : contextOf i = .foreground)
    (h : exec i s = .next t) : s.txBusy = false := by
  obtain ⟨a, ha⟩ := exec_foreground_eq_whenIdle hi s
  exact (whenIdle_cases s t a (ha.symm.trans h)).1

/-- The slots and both indexes are what they were. -/
def SameRing (s t : State) : Prop :=
  t.slots = s.slots ∧ t.readIndex = s.readIndex ∧ t.writeIndex = s.writeIndex

/-- An operation that, while idle, answers one state keeps the ring as that state does. -/
theorem whenIdle_sameRing {s t u : State} (h : whenIdle s (.next u) = .next t) (hu : SameRing s u) :
    SameRing s t := by
  obtain ⟨-, h⟩ := whenIdle_cases _ _ _ h
  cases h
  exact hu

theorem execFinalize_sameRing {c : Code} {s t : State} (h : execFinalize c s = .next t) : SameRing s t := by
  obtain ⟨-, h⟩ := whenIdle_cases _ _ _ h
  split at h
  · cases h
    exact ⟨rfl, rfl, rfl⟩
  · cases h

theorem execPreset_sameRing {n : BitVec 32} {s t : State} (h : execPreset n s = .next t) : SameRing s t := by
  obtain ⟨-, h⟩ := whenIdle_cases _ _ _ h
  split at h
  · cases h
    exact ⟨rfl, rfl, rfl⟩
  · cases h
    exact ⟨rfl, rfl, rfl⟩

/-- No foreground operation but POP writes the ring (R62). -/
theorem exec_foreground_sameRing {i : Instr} {s t : State} (hi : contextOf i = .foreground) (hpop : i ≠ .pop)
    (h : exec i s = .next t) : SameRing s t := by
  cases i with
  | edge ts => cases hi
  | push c => cases hi
  | pop => exact absurd rfl hpop
  | finalize c => exact execFinalize_sameRing h
  | decodeV1a c => exact whenIdle_sameRing h ⟨rfl, rfl, rfl⟩
  | decodeV2a c => exact whenIdle_sameRing h ⟨rfl, rfl, rfl⟩
  | transmit c => exact whenIdle_sameRing h ⟨rfl, rfl, rfl⟩
  | cfgSet idx value => exact whenIdle_sameRing h ⟨rfl, rfl, rfl⟩
  | cfgGet => exact whenIdle_sameRing h ⟨rfl, rfl, rfl⟩
  | preset n => exact execPreset_sameRing h

/-- POP hands over the Code of the slot at `readIndex`, clears its flag and moves on, or, where that slot is not unread,
hands over nothing (R174). -/
theorem execPop_cases {s t : State} (h : execPop s = .next t) :
    s.readIndex < s.slots.length
      ∧ ((unreadAt s s.readIndex = true
          ∧ t = deliver (.popped (some (codeAt s s.readIndex)))
              { writeSlot s s.readIndex { code := codeAt s s.readIndex, unread := false } with
                readIndex := nextIndex s.params s.readIndex })
        ∨ (unreadAt s s.readIndex = false ∧ t = deliver (.popped none) s)) := by
  obtain ⟨-, h⟩ := whenIdle_cases _ _ _ h
  obtain ⟨hr, h⟩ := withSlot_cases _ _ _ _ h
  refine ⟨hr, ?_⟩
  split at h
  · cases h
    exact .inl ⟨by assumption, rfl⟩
  · cases h
    exact .inr ⟨Bool.eq_false_of_not_eq_true (by assumption), rfl⟩

/-- A write of a slot's flag alone keeps every Code. -/
theorem map_code_set_unread (s : State) (i : Nat) (unread : Bool) (hi : i < s.slots.length) :
    (s.slots.set i { code := codeAt s i, unread := unread }).map (fun sl => sl.code)
      = s.slots.map (fun sl => sl.code) := by
  have hlt : i < (s.slots.map (fun sl => sl.code)).length := by simpa using hi
  have hcode : codeAt s i = (s.slots.map (fun sl => sl.code))[i] := by simp [codeAt, hi]
  simp only [List.map_set]
  rw [hcode, List.set_getElem_self]

/-- POP keeps every slot's Code and the write index. -/
theorem execPop_codes {s t : State} (h : execPop s = .next t) : t.writeIndex = s.writeIndex
    ∧ t.slots.map (fun sl => sl.code) = s.slots.map (fun sl => sl.code) := by
  obtain ⟨hr, ⟨-, rfl⟩ | ⟨-, rfl⟩⟩ := execPop_cases h
  · exact ⟨rfl, map_code_set_unread s s.readIndex false hr⟩
  · exact ⟨rfl, rfl⟩

/-- No foreground operation writes a slot's Code or the write index. -/
theorem exec_foreground_codes {i : Instr} {s t : State} (hi : contextOf i = .foreground)
    (h : exec i s = .next t) : t.writeIndex = s.writeIndex
      ∧ t.slots.map (fun sl => sl.code) = s.slots.map (fun sl => sl.code) := by
  by_cases hpop : i = .pop
  · subst hpop
    exact execPop_codes h
  · obtain ⟨hslots, -, hwrite⟩ := exec_foreground_sameRing hi hpop h
    exact ⟨hwrite, by rw [hslots]⟩

/-- The receiver's working registers one by one. -/
theorem SameReceiver.registers {s t : State} (h : SameReceiver s t) :
    t.lastEdgeTime = s.lastEdgeTime ∧ t.prePauseTime = s.prePauseTime ∧ t.zeroTime = s.zeroTime
      ∧ t.oneTime = s.oneTime ∧ t.sampleMin = s.sampleMin ∧ t.sampleMax = s.sampleMax ∧ t.state = s.state
      ∧ t.preambleCount = s.preambleCount := by
  rw [← h.1]
  exact ⟨rfl, rfl, rfl, rfl, rfl, rfl, rfl, rfl⟩

/-- EDGE is the producer's operation. -/
theorem ne_edge_of_foreground {i : Instr} (hi : contextOf i = .foreground) (ts : Time) : i ≠ .edge ts := by
  rintro rfl
  cases hi

/-- Settles O59: the receiver's registers as for every operation but EDGE, the ring by what POP and the others write. -/
theorem foregroundLeavesReceiver : Obligations.ForegroundLeavesReceiver := by
  intro s t i hi h
  obtain ⟨hlast, hpause, hzero, hone, hmin, hmax, hstate, hcount⟩ :=
    (exec_sameReceiver (ne_edge_of_foreground hi) h).registers
  obtain ⟨hwrite, hcodes⟩ := exec_foreground_codes hi h
  refine ⟨exec_foreground_idle hi h, hlast, hpause, hzero, hone, hmin, hmax, hstate, hcount, hwrite, hcodes,
    fun hpop => ?_⟩
  obtain ⟨hslots, hread, -⟩ := exec_foreground_sameRing hi hpop h
  exact ⟨hslots, hread⟩

end Sys2Proof.Machine

/-! What neither context reads of the other (R62): each operation does the same before and after the other side's
registers are overwritten. -/

namespace Sys2Proof.Machine

/-! ### Sub-steps that read nothing of what is overwritten -/

/-- The sub-step `f` reads and writes none of what `g` overwrites: it does the same before and after. -/
def Ignores (g : State → State) (f : State → Answer) : Prop :=
  ∀ s, f (g s) = andThen (f s) (fun t => .next (g t))

section Combinators

variable {g : State → State}

theorem Ignores.next {f : State → Answer} (h : Ignores g f) {s t : State} (hf : f s = .next t) :
    f (g s) = .next (g t) := by
  rw [h s, hf, andThen_next]

/-- A write of registers that `g` does not overwrite. -/
theorem Ignores.write {f : State → State} (h : ∀ s, f (g s) = g (f s)) : Ignores g (fun s => .next (f s)) :=
  fun s => congrArg Host.Outcome.next (h s)

theorem Ignores.refused (r : Refusal) : Ignores g (fun _ => .refused r) := fun _ => rfl

/-- Two sub-steps one after another read what either reads. -/
theorem Ignores.andThen {f k : State → Answer} (hf : Ignores g f) (hk : Ignores g k) :
    Ignores g (fun s => andThen (f s) k) := fun s => by
  simp only [hf s, andThen_assoc, andThen_next, hk _]

/-- A test of registers that `g` does not overwrite. -/
theorem Ignores.ite {c : State → Prop} [∀ s, Decidable (c s)] {f k : State → Answer}
    (hc : ∀ s, c (g s) ↔ c s) (hf : Ignores g f) (hk : Ignores g k) :
    Ignores g (fun s => if c s then f s else k s) := fun s => by
  by_cases h : c s
  · simp only [if_pos h, if_pos ((hc s).2 h), hf s]
  · simp only [if_neg h, if_neg (mt (hc s).1 h), hk s]

/-- A sub-step on the slot an index names, where `g` overwrites neither the slots nor the index. -/
theorem Ignores.withSlot {index : State → Nat} {k : State → Slot → Answer} (hslots : ∀ s, (g s).slots = s.slots)
    (hindex : ∀ s, index (g s) = index s) (hk : ∀ sl, Ignores g (fun s => k s sl)) :
    Ignores g (fun s => withSlot s (index s) (k s)) := fun s => by
  simp only [Machine.withSlot, hslots, hindex]
  cases s.slots[index s]? with
  | none => rfl
  | some sl => exact hk sl s

/-- The guard of the foreground operations reads `txBusy` only (R79). -/
theorem Ignores.whenIdle {f : State → Answer} (hbusy : ∀ s, (g s).txBusy = s.txBusy) (hf : Ignores g f) :
    Ignores g (fun s => whenIdle s (f s)) :=
  .ite (fun s => by rw [hbusy]) (.refused _) hf

end Combinators

/-! ### The edge handler and the foreground's side -/

section EdgeHandler

variable (u : State)

@[simp] theorem foregroundOf_params (s : State) : (foregroundOf u s).params = s.params := rfl
@[simp] theorem dataBit_foregroundOf (d : Time) (s : State) : dataBit d (foregroundOf u s) = dataBit d s := rfl

theorem Ignores.withCur_foregroundOf {k : State → Code → Answer}
    (hk : ∀ c, Ignores (foregroundOf u) (fun s => k s c)) :
    Ignores (foregroundOf u) (fun s => withCur s (k s)) :=
  .withSlot (index := State.writeIndex) (fun _ => rfl) (fun _ => rfl) fun sl => hk sl.code

theorem claim_ignores_foregroundOf : Ignores (foregroundOf u) claim :=
  .withSlot (index := State.writeIndex) (fun _ => rfl) (fun _ => rfl) fun _ => .write fun _ => rfl

theorem commit_ignores_foregroundOf : Ignores (foregroundOf u) commit :=
  .withSlot (index := State.writeIndex) (fun _ => rfl) (fun _ => rfl) fun _ => .write fun _ => rfl

theorem startCheck_ignores_foregroundOf (d : Time) (shared : Bool) :
    Ignores (foregroundOf u) (startCheck d shared) :=
  .ite (fun _ => .rfl) (.andThen (claim_ignores_foregroundOf u) (.write fun _ => rfl)) (.write fun _ => rfl)

theorem abort_ignores_foregroundOf (cause : AbortCause) (d : Time) : Ignores (foregroundOf u) (abort cause d) :=
  fun s => startCheck_ignores_foregroundOf u d _ { s with state := .awaitPause }

theorem preamble_ignores_foregroundOf (d : Time) : Ignores (foregroundOf u) (preamble d) :=
  .withCur_foregroundOf u fun _ => .ite (fun _ => .rfl) (.write fun _ => rfl) (.write fun _ => rfl)

theorem append_ignores_foregroundOf (b : Bool) (d : Time) : Ignores (foregroundOf u) (append b d) :=
  .withCur_foregroundOf u fun c s => by
    simp only [foregroundOf_params]
    cases pushBit s.params c b with
    | none => rfl
    | some c' => rfl

theorem converge_ignores_foregroundOf (d : Time) : Ignores (foregroundOf u) (converge d) :=
  .withCur_foregroundOf u fun _ =>
    .ite (fun _ => .rfl) (.write fun _ => rfl)
      (.ite (fun _ => .rfl) (abort_ignores_foregroundOf u _ d) (.write fun _ => rfl))

/-- Learning reads and writes nothing of the foreground's side: its four tests come out the same, and so does what each
branch writes. -/
theorem learn_foregroundOf (d : Time) (s : State) :
    learn d (foregroundOf u s) = (learn d s).map (fun x => (x.1, foregroundOf u x.2)) := by
  unfold learn
  simp only [apply_ite (Option.map fun x : Bool × State => (x.1, foregroundOf u x.2))]
  rfl

theorem calibrate_ignores_foregroundOf (d : Time) : Ignores (foregroundOf u) (calibrate d) :=
  .withCur_foregroundOf u fun _ s => by
    cases hlearn : learn d s with
    | none =>
      simp only [learn_foregroundOf, hlearn, Option.map_none]
      exact abort_ignores_foregroundOf u _ d s
    | some x =>
      obtain ⟨b, t⟩ := x
      have hlearned : Ignores (foregroundOf u) fun t =>
          if ratioBroken t then abort .calRatio d t else andThen (append b d t) (converge d) :=
        .ite (fun _ => .rfl) (abort_ignores_foregroundOf u _ d)
          (.andThen (append_ignores_foregroundOf u b d) (converge_ignores_foregroundOf u d))
      simp only [learn_foregroundOf, hlearn, Option.map_some]
      exact hlearned t

theorem complete_ignores_foregroundOf (d : Time) : Ignores (foregroundOf u) (complete d) :=
  .andThen (f := fun s => commit (modifyCur s (fun c => { c with postPausePresent := true })))
    (fun s => commit_ignores_foregroundOf u (modifyCur s (fun c => { c with postPausePresent := true })))
    (fun s => startCheck_ignores_foregroundOf u d true { s with state := .awaitPause })

theorem decodeDuration_ignores_foregroundOf (d : Time) : Ignores (foregroundOf u) (decodeDuration d) :=
  .withCur_foregroundOf u fun c =>
    .ite (fun _ => .rfl)
      (.ite (fun _ => .rfl) (complete_ignores_foregroundOf u d) (abort_ignores_foregroundOf u _ d))
      fun s => by
        simp only [dataBit_foregroundOf]
        cases dataBit d s with
        | none => exact abort_ignores_foregroundOf u _ d s
        | some b =>
          have hsample : Ignores (foregroundOf u) fun s =>
              if s.params.maxLength ≤ c.length then abort .decTooLong d s else append b d s :=
            .ite (fun _ => .rfl) (abort_ignores_foregroundOf u _ d) (append_ignores_foregroundOf u b d)
          exact hsample s

theorem handle_ignores_foregroundOf (d : Time) : Ignores (foregroundOf u) (handle d) := fun s => by
  cases hs : s.state with
  | awaitPause =>
    rw [handle_awaitPause d s hs, handle_awaitPause d (foregroundOf u s) hs]
    exact startCheck_ignores_foregroundOf u d false s
  | inPreamble =>
    rw [handle_inPreamble d s hs, handle_inPreamble d (foregroundOf u s) hs]
    exact preamble_ignores_foregroundOf u d s
  | calibrating =>
    rw [handle_calibrating d s hs, handle_calibrating d (foregroundOf u s) hs]
    exact calibrate_ignores_foregroundOf u d s
  | decoding =>
    rw [handle_decoding d s hs, handle_decoding d (foregroundOf u s) hs]
    exact decodeDuration_ignores_foregroundOf u d s

/-- EDGE reads and writes nothing of the foreground's side (R62). -/
theorem exec_edge_ignores_foregroundOf (ts : Time) : Ignores (foregroundOf u) (exec (.edge ts)) :=
  fun s => handle_ignores_foregroundOf u (edgeDuration s.lastEdgeTime ts) { s with lastEdgeTime := ts }

end EdgeHandler

/-! ### The foreground's operations and the receiver's registers -/

section Foreground

variable (u : State)

@[simp] theorem receiverOf_params (s : State) : (receiverOf u s).params = s.params := rfl

theorem Ignores.whenIdle_receiverOf {f : State → Answer} (hf : Ignores (receiverOf u) f) :
    Ignores (receiverOf u) (fun s => Machine.whenIdle s (f s)) :=
  .whenIdle (fun _ => rfl) hf

theorem execPop_ignores_receiverOf : Ignores (receiverOf u) execPop :=
  .whenIdle_receiverOf u <|
    .withSlot (index := State.readIndex) (fun _ => rfl) (fun _ => rfl) fun _ =>
      .ite (fun _ => .rfl) (.write fun _ => rfl) (.write fun _ => rfl)

theorem execFinalize_ignores_receiverOf (c : Code) : Ignores (receiverOf u) (execFinalize c) :=
  .whenIdle_receiverOf u fun s => by
    simp only [receiverOf_params]
    cases finalizeCode s.params c with
    | none => rfl
    | some c' => rfl

theorem execPreset_ignores_receiverOf (n : BitVec 32) : Ignores (receiverOf u) (execPreset n) :=
  .whenIdle_receiverOf u fun s => by
    simp only [receiverOf_params]
    cases s.params.presets.lookup n with
    | none => rfl
    | some cfg => rfl

/-- No foreground operation reads or writes the receiver's working registers (R62). -/
theorem exec_foreground_ignores_receiverOf {i : Instr} (hi : contextOf i = .foreground) :
    Ignores (receiverOf u) (exec i) := by
  cases i with
  | edge ts => cases hi
  | push c => cases hi
  | pop => exact execPop_ignores_receiverOf u
  | finalize c => exact execFinalize_ignores_receiverOf u c
  | decodeV1a c => exact .whenIdle_receiverOf u (.write fun _ => rfl)
  | decodeV2a c => exact .whenIdle_receiverOf u (.write fun _ => rfl)
  | transmit c => exact .whenIdle_receiverOf u (.write fun _ => rfl)
  | cfgSet idx value => exact .whenIdle_receiverOf u (.write fun _ => rfl)
  | cfgGet => exact .whenIdle_receiverOf u (.write fun _ => rfl)
  | preset n => exact execPreset_ignores_receiverOf u n

end Foreground

/-- Settles O60: each side's operations ignore the registers of the other. -/
theorem neitherSideReadsTheOther : Obligations.NeitherSideReadsTheOther :=
  fun _ _ u => ⟨fun ts h => (exec_edge_ignores_foregroundOf u ts).next h,
    fun _ hi h => (exec_foreground_ignores_receiverOf u hi).next h⟩

end Sys2Proof.Machine

/-! The bit-buffer primitives place by place: inversion (R54) and the fold shift (R55). -/

namespace Sys2Proof.Machine

/-- Inversion flips the bit of every place. -/
theorem invertBits_getElem? (c : Code) (j : Nat) :
    (invertBits c).bits[j]? = (c.bits[j]?).map (fun b => !b) := by
  rw [invertBits, List.getElem?_map]

/-- The fold shift with room: the two new bits stand first and nothing else of the Code changes. -/
theorem foldShift_some (p : Params) (c : Code) (b0 b1 : Bool) (h : c.length + 2 ≤ p.bufBits) :
    foldShift p c b0 b1 = some { c with bits := b0 :: b1 :: c.bits } := by
  rw [foldShift, if_pos h]

/-- Settles O20: inversion place by place, and the fold shift by the list it answers. -/
theorem inversionFlipsAndFoldShifts : Obligations.InversionFlipsAndFoldShifts :=
  ⟨fun c => ⟨invertBits_length c, fun j _ => invertBits_getElem? c j⟩,
    fun p c b0 b1 h => ⟨_, foldShift_some p c b0 b1 h, rfl, rfl, rfl, fun _ _ => rfl⟩⟩

end Sys2Proof.Machine

/-! The requests of a console line token by token: the parts of a line in order (R82), a malformed token none (R84). -/

namespace Sys2Proof.Machine

/-- A line cut in two asks for the requests of its first part, then those of its second (R82). -/
@[simp] theorem lineInputs_append (l₁ l₂ : List Token) :
    lineInputs (l₁ ++ l₂) = lineInputs l₁ ++ lineInputs l₂ := by
  rw [lineInputs, List.filterMap_append, List.map_append, lineInputs, lineInputs]

/-- A malformed token in front of a line adds no request (R84). -/
@[simp] theorem lineInputs_malformed_cons (l : List Token) : lineInputs (.malformed :: l) = lineInputs l := by
  have hnone : tokenInstr .malformed = none := rfl
  rw [lineInputs, List.filterMap_cons_none hnone, lineInputs]

/-- Settles O7: the line is cut in front of the malformed token, which adds nothing to the second part. -/
theorem malformedTokenIsSkipped : Obligations.MalformedTokenIsSkipped := fun before after =>
  calc lineInputs (before ++ .malformed :: after)
      = lineInputs before ++ lineInputs (.malformed :: after) := lineInputs_append before _
    _ = lineInputs before ++ lineInputs after := by rw [lineInputs_malformed_cons]

end Sys2Proof.Machine

/-! The edge timer (R100) and the two states in which EDGE makes no test of the learned times: AWAIT_PAUSE below the
pause threshold (R102) and IN_PREAMBLE (R105); and that EDGE always completes (R116, R206). -/

namespace Sys2Proof.Machine

/-! ### The measured duration -/

/-- The duration is the difference of the time stamps mod 2^32 (R73). -/
theorem edgeDuration_toNat (last ts : Time) :
    (edgeDuration last ts).toNat = (ts.toNat + 2 ^ 32 - last.toNat) % 2 ^ 32 := by
  have hlast : last.toNat < 2 ^ 32 := last.isLt
  rw [edgeDuration, BitVec.toNat_sub]
  congr 1
  omega

/-- Two edges at one time stamp are no time apart. -/
@[simp] theorem edgeDuration_self (ts : Time) : edgeDuration ts ts = 0#32 := BitVec.sub_self ts

/-- From time stamp 0, the one after reset, the duration is the time stamp. -/
@[simp] theorem edgeDuration_zero (ts : Time) : edgeDuration 0#32 ts = ts := BitVec.sub_zero ts

/-! ### What an EDGE does before the estimates are learned -/

/-- EDGE keeps its time stamp: the handler runs on the state that holds it and leaves it alone (R100). -/
theorem exec_edge_lastEdgeTime {ts : Time} {s t : State} (h : exec (.edge ts) s = .next t) :
    t.lastEdgeTime = ts := by
  rw [exec_edge] at h
  obtain ⟨-, -, -, -, -, -, -, -, -, hstamp, -⟩ := handle_sameOutside h
  exact hstamp

/-- In AWAIT_PAUSE an EDGE is the message-start check, its pause not shared (R101). -/
theorem exec_edge_of_awaitPause {s : State} (h : s.state = .awaitPause) (ts : Time) :
    exec (.edge ts) s = startCheck (edgeDuration s.lastEdgeTime ts) false { s with lastEdgeTime := ts } := by
  rw [exec_edge]
  exact handle_awaitPause _ _ h

/-- In IN_PREAMBLE an EDGE is PREAMBLE (R101). -/
theorem exec_edge_of_inPreamble {s : State} (h : s.state = .inPreamble) (ts : Time) :
    exec (.edge ts) s = preamble (edgeDuration s.lastEdgeTime ts) { s with lastEdgeTime := ts } := by
  rw [exec_edge]
  exact handle_inPreamble _ _ h

/-- The message-start check on a duration below the threshold only sets the state register, and needs no slot (R103). -/
theorem startCheck_of_short {d : Time} (shared : Bool) {s : State} (h : d.toNat < s.params.minPrePauseUs) :
    startCheck d shared s = .next { s with state := .awaitPause } := by
  have hshort : ¬ startsMessage s.params d = true := by
    rw [startsMessage_iff]
    exact Nat.not_le.2 h
  rw [startCheck, if_neg hshort]

/-! ### The obligations -/

/-- Settles O13: the measured duration, equal time stamps, the first edge, and the handler that keeps the stamp. -/
theorem edgeMeasuresModularDuration : Obligations.EdgeMeasuresModularDuration :=
  ⟨edgeDuration_toNat, edgeDuration_self, fun _ => edgeDuration_zero,
    fun s ts => ⟨exec_edge ts s, fun _ => exec_edge_lastEdgeTime⟩⟩

/-- Settles O17: PREAMBLE runs on the state with the new time stamp, which PREAMBLE leaves alone; the two cases are
the slot the duration goes to. -/
theorem preambleIsStored : Obligations.PreambleIsStored := by
  intro s ts hstate hw
  rw [exec_edge_of_inPreamble hstate, preamble_of_lt _ { s with lastEdgeTime := ts } hw]
  cases s.preambleCount with
  | false =>
    simp only [hstate]
    rfl
  | true => rfl

/-- Settles O25: the invariant gives every slot the handler touches and the room for a bit it appends. -/
theorem edgeAlwaysCompletes : Obligations.EdgeAlwaysCompletes := fun _ ts h => exec_edge_completes h ts

/-- Settles O15: the message-start check answers AWAIT_PAUSE, the state the block is in. -/
theorem noiseIsIgnored : Obligations.NoiseIsIgnored := by
  intro s ts hstate hshort
  calc exec (.edge ts) s
      = startCheck (edgeDuration s.lastEdgeTime ts) false { s with lastEdgeTime := ts } :=
        exec_edge_of_awaitPause hstate ts
    _ = .next { s with lastEdgeTime := ts, state := .awaitPause } := startCheck_of_short false hshort
    _ = .next { s with lastEdgeTime := ts } := by rw [← hstate]

end Sys2Proof.Machine

/-! FINALIZE (R130 to R137): the four things it can do with a Code, the places each needs, and what it hands over. -/

namespace Sys2Proof.Machine

/-! ### The preamble's bits -/

/-- Both preamble durations observed, both averages known and both durations data bits: the preamble folds to those
two bits (R133). -/
theorem preambleBits_of_classes {p : Params} {c : Code} {b0 b1 : Bool}
    (hknown : c.preambleTime.at0 ≠ 0#32 ∧ c.preambleTime.at1 ≠ 0#32 ∧ c.bitTime.at0 ≠ 0#32 ∧ c.bitTime.at1 ≠ 0#32)
    (h0 : (pclass p c.preambleTime.at0 c.bitTime.at0 c.bitTime.at1).dataBit = some b0)
    (h1 : (pclass p c.preambleTime.at1 c.bitTime.at0 c.bitTime.at1).dataBit = some b1) :
    preambleBits p c = some (b0, b1) := by
  rw [preambleBits, if_pos hknown, h0, h1]

/-- With the averages of R132 in place, the preamble folds exactly where R133 says so of the Code itself. -/
theorem preambleBits_averages_isSome_iff (p : Params) (c : Code) :
    (preambleBits p (averages c)).isSome = true ↔
      Folds p c (averageTime c.bitTotalTime.at0 c.bitCount.at0) (averageTime c.bitTotalTime.at1 c.bitCount.at1) :=
  preambleBits_isSome_iff p (averages c)

/-- A preamble gives no bits exactly where it does not fold (R133). -/
theorem preambleBits_averages_eq_none_iff (p : Params) (c : Code) :
    preambleBits p (averages c) = none ↔
      ¬ Folds p c (averageTime c.bitTotalTime.at0 c.bitCount.at0) (averageTime c.bitTotalTime.at1 c.bitCount.at1) := by
  rw [← preambleBits_averages_isSome_iff, Option.not_isSome_iff_eq_none]

/-- Without bits to fold, step (b) leaves the Code as it is (R133). -/
theorem foldPreamble_of_none {p : Params} {c : Code} (h : preambleBits p c = none) : foldPreamble p c = some c := by
  rw [foldPreamble, h]

/-- With bits to fold and the room for them, step (b) puts them first and clears the preamble (R134). -/
theorem foldPreamble_of_room {p : Params} {c : Code} {b0 b1 : Bool} (h : preambleBits p c = some (b0, b1))
    (hroom : c.length + 2 ≤ p.bufBits) :
    foldPreamble p c = some { c with
      bits := b0 :: b1 :: c.bits
      preambleTime := { at0 := 0#32, at1 := 0#32 } } := by
  simp only [foldPreamble, h, foldShift_some p c b0 b1 hroom, Option.map_some]

/-- With bits to fold and no room for them, step (b) stops (R52, U12). -/
theorem foldPreamble_of_no_room {p : Params} {c : Code} {b0 b1 : Bool} (h : preambleBits p c = some (b0, b1))
    (hroom : ¬ c.length + 2 ≤ p.bufBits) : foldPreamble p c = none := by
  simp only [foldPreamble, h, foldShift, if_neg hroom, Option.map_none]

/-! ### The steps of FINALIZE -/

/-- A Code FINALIZE has run on is handed over as it is (R131). -/
theorem finalizeCode_of_finalized {p : Params} {c : Code} (hf : c.finalized = true) : finalizeCode p c = some c := by
  rw [finalizeCode, if_pos hf]

/-- Where step (b) stops, FINALIZE does. -/
theorem finalizeCode_of_stopped {p : Params} {c : Code} (hf : c.finalized = false)
    (hfold : foldPreamble p (averages c) = none) : finalizeCode p c = none := by
  rw [finalizeCode, hf, if_neg Bool.false_ne_true, hfold]

/-- A Code without bits after step (b) fails (R135). -/
theorem finalizeCode_of_empty {p : Params} {c d : Code} (hf : c.finalized = false)
    (hfold : foldPreamble p (averages c) = some d) (hd : d.length = 0) :
    finalizeCode p c = some { d with finalized := true, valid := false } := by
  simp only [finalizeCode, hf, Bool.false_eq_true, if_false, hfold, if_pos hd]

/-- A Code with bits after step (b) gets the inferred bit, where there is a place for it (R137). -/
theorem finalizeCode_of_bits {p : Params} {c d : Code} (hf : c.finalized = false)
    (hfold : foldPreamble p (averages c) = some d) (hd : d.length ≠ 0) :
    finalizeCode p c = if d.length + 1 ≤ p.bufBits
      then some { d with bits := d.bits ++ [infer p d.bits], finalized := true } else none := by
  simp only [finalizeCode, hf, Bool.false_eq_true, if_false, hfold, if_neg hd]
  rfl

/-! ### What FINALIZE does with a Code -/

/-- The four things FINALIZE can do with a Code, each with the places it needs and the Code it hands over when they are
there: nothing (R131), the fold and the inferred bit (R134, R137), the failure of an empty Code (R135), the inferred bit
alone (R137). `Finalizes.finalizeCode_eq` ties it to the model's `finalizeCode`. -/
inductive Finalizes (p : Params) (c : Code) : Nat → Code → Prop
  | finalized (hf : c.finalized = true) : Finalizes p c 0 c
  | folded (hf : c.finalized = false) (b0 b1 : Bool) (hb : preambleBits p (averages c) = some (b0, b1)) :
    Finalizes p c 3 { averages c with
      bits := b0 :: b1 :: (c.bits ++ [infer p (b0 :: b1 :: c.bits)])
      preambleTime := { at0 := 0#32, at1 := 0#32 }
      finalized := true }
  | empty (hf : c.finalized = false) (hb : preambleBits p (averages c) = none) (hbits : c.bits = []) :
    Finalizes p c 0 { averages c with finalized := true, valid := false }
  | inferred (hf : c.finalized = false) (hb : preambleBits p (averages c) = none) (hbits : c.bits ≠ []) :
    Finalizes p c 1 { averages c with bits := c.bits ++ [infer p c.bits], finalized := true }

/-- FINALIZE does one of the four with every Code. -/
theorem exists_finalizes (p : Params) (c : Code) : ∃ k c', Finalizes p c k c' := by
  cases hf : c.finalized with
  | true => exact ⟨_, _, .finalized hf⟩
  | false =>
    cases hb : preambleBits p (averages c) with
    | some b => exact ⟨_, _, .folded hf b.1 b.2 hb⟩
    | none =>
      by_cases hbits : c.bits = []
      · exact ⟨_, _, .empty hf hb hbits⟩
      · exact ⟨_, _, .inferred hf hb hbits⟩

namespace Finalizes

variable {p : Params} {c c' : Code} {k : Nat}

/-- The places needed are those of `finalizeRoom`. -/
theorem room_eq (h : Finalizes p c k c') : finalizeRoom p c = k := by
  cases h with
  | finalized hf => simp only [finalizeRoom, hf, if_true]
  | folded hf b0 b1 hb =>
    have hfolds := (preambleBits_averages_isSome_iff p c).1 (by rw [hb, Option.isSome_some])
    simp only [finalizeRoom, hf, Bool.false_eq_true, if_false, if_pos hfolds]
  | empty hf hb hbits =>
    have hfolds := (preambleBits_averages_eq_none_iff p c).1 hb
    simp only [finalizeRoom, hf, Bool.false_eq_true, if_false, if_neg hfolds, if_pos hbits]
  | inferred hf hb hbits =>
    have hfolds := (preambleBits_averages_eq_none_iff p c).1 hb
    simp only [finalizeRoom, hf, Bool.false_eq_true, if_false, if_neg hfolds, if_neg hbits]

/-- The model's `finalizeCode` hands the Code over exactly where the bit buffer has the places needed. -/
theorem finalizeCode_eq (h : Finalizes p c k c') :
    finalizeCode p c = if k = 0 ∨ c.length + k ≤ p.bufBits then some c' else none := by
  cases h with
  | finalized hf => rw [finalizeCode_of_finalized hf, if_pos (.inl rfl)]
  | folded hf b0 b1 hb =>
    by_cases hroom : c.length + 2 ≤ p.bufBits
    · have hlast : c.length + 2 + 1 ≤ p.bufBits ↔ 3 = 0 ∨ c.length + 3 ≤ p.bufBits := by omega
      rw [finalizeCode_of_bits hf (foldPreamble_of_room hb hroom) (by simp)]
      exact if_congr hlast rfl rfl
    · rw [finalizeCode_of_stopped hf (foldPreamble_of_no_room hb hroom), if_neg (by omega)]
  | empty hf hb hbits =>
    have hlen : (averages c).length = 0 := by rw [Code.length, averages, hbits, List.length_nil]
    rw [finalizeCode_of_empty hf (foldPreamble_of_none hb) hlen, if_pos (.inl rfl)]
  | inferred hf hb hbits =>
    have hlen : (averages c).length ≠ 0 := mt List.eq_nil_of_length_eq_zero hbits
    have hlast : c.length + 1 ≤ p.bufBits ↔ 1 = 0 ∨ c.length + 1 ≤ p.bufBits := by omega
    rw [finalizeCode_of_bits hf (foldPreamble_of_none hb) hlen]
    exact if_congr hlast rfl rfl

/-- What `finalizeCode` hands over is the Code of the one thing FINALIZE does. -/
theorem eq_of_finalizeCode {d : Code} (h : Finalizes p c k d) (hcode : finalizeCode p c = some c') : d = c' := by
  rw [h.finalizeCode_eq, Option.ite_none_right_eq_some] at hcode
  exact Option.some.inj hcode.2

/-- The Code handed over is longer by the places that were needed. -/
theorem length_eq (h : Finalizes p c k c') : c'.length = c.length + k := by
  cases h with
  | finalized hf => rfl
  | folded hf b0 b1 hb => simp [Code.length]
  | empty hf hb hbits => rfl
  | inferred hf hb hbits => simp [Code.length]

/-- The Code handed over is finalized, and its pause flags, totals and counts are the operand's. -/
theorem frame (h : Finalizes p c k c') : c'.finalized = true
    ∧ c'.prePauseStandalone = c.prePauseStandalone ∧ c'.postPausePresent = c.postPausePresent
    ∧ c'.bitTotalTime = c.bitTotalTime ∧ c'.bitCount = c.bitCount := by
  cases h with
  | finalized hf => exact ⟨hf, rfl, rfl, rfl, rfl⟩
  | folded | empty | inferred => exact ⟨rfl, rfl, rfl, rfl, rfl⟩

end Finalizes

/-! ### The operation -/

/-- FINALIZE from idle hands over the Code `finalizeCode` answers and touches nothing else (R140). -/
theorem exec_finalize_of_some {s : State} {c c' : Code} (hidle : s.txBusy = false)
    (h : finalizeCode s.params c = some c') :
    exec (.finalize c) s = .next { s with result := some (.finalized c') } := by
  rw [exec, execFinalize, whenIdle_of_idle s _ hidle, h]
  rfl

/-- FINALIZE from idle is refused where `finalizeCode` lacks the places it needs (R52). -/
theorem exec_finalize_of_none {s : State} {c : Code} (hidle : s.txBusy = false)
    (h : finalizeCode s.params c = none) : exec (.finalize c) s = .refused .bitBufferFull := by
  rw [exec, execFinalize, whenIdle_of_idle s _ hidle, h]

/-! ### The obligations -/

/-- Settles O35: of the four things FINALIZE can do, the one it does with this Code says the places and the Code handed
over. -/
theorem finalizeDelivers : Obligations.FinalizeDelivers := by
  intro s c hidle
  obtain ⟨k, c', hfin⟩ := exists_finalizes s.params c
  obtain ⟨hfinalized, hkept⟩ := hfin.frame
  rw [hfin.room_eq]
  refine ⟨fun hroom => ?delivered, fun hk hfull => ?refused⟩
  case delivered =>
    have hcode : finalizeCode s.params c = some c' := by rw [hfin.finalizeCode_eq, if_pos hroom]
    exact ⟨c', exec_finalize_of_some hidle hcode, hcode, hfinalized, hfin.length_eq, hkept⟩
  case refused =>
    have hcode : finalizeCode s.params c = none := by rw [hfin.finalizeCode_eq, if_neg (by omega)]
    exact exec_finalize_of_none hidle hcode

/-- Settles O37: FINALIZE does one of the four with the Code; a fold excludes the clause without one, and the classes of
the preamble determine its two bits. -/
theorem finalizeFoldsAndInfers : Obligations.FinalizeFoldsAndInfers := by
  intro p c c' hf h z o pre known is0 is1
  obtain ⟨k, d, hfin⟩ := exists_finalizes p c
  obtain rfl : d = c' := hfin.eq_of_finalizeCode h
  have hbits : ∀ b0 b1 : Bool, known → (if b0 then is1 pre.at0 else is0 pre.at0) →
      (if b1 then is1 pre.at1 else is0 pre.at1) → preambleBits p (averages c) = some (b0, b1) :=
    fun b0 b1 hknown h0 h1 =>
      preambleBits_of_classes hknown ((dataBit_iff _ _).2 h0) ((dataBit_iff _ _).2 h1)
  have hnone : preambleBits p (averages c) = none ↔
      ¬ (known ∧ (is0 pre.at0 ∨ is1 pre.at0) ∧ (is0 pre.at1 ∨ is1 pre.at1)) := by
    rw [preambleBits_averages_eq_none_iff]
    simp only [Folds, known, and_assoc]
    rfl
  cases hfin with
  | finalized hfinalized => exact absurd hfinalized (by simp [hf])
  | folded _ b0 b1 hb =>
    refine ⟨rfl, rfl, fun b0' b1' hknown h0 h1 => ?_, fun hno => ?_⟩
    · obtain ⟨rfl, rfl⟩ : b0 = b0' ∧ b1 = b1' := by simpa [hb] using hbits b0' b1' hknown h0 h1
      exact ⟨rfl, rfl, rfl⟩
    · exact absurd (hnone.2 hno) (by simp [hb])
  | empty _ hb hempty =>
    refine ⟨rfl, rfl, fun b0 b1 hknown h0 h1 => ?_,
      fun _ => ⟨rfl, fun _ => ⟨hempty, rfl⟩, fun hne => absurd hempty hne⟩⟩
    exact absurd (hbits b0 b1 hknown h0 h1) (by simp [hb])
  | inferred _ hb hne =>
    refine ⟨rfl, rfl, fun b0 b1 hknown h0 h1 => ?_,
      fun _ => ⟨rfl, fun hempty => absurd hempty hne, fun _ => ⟨rfl, rfl⟩⟩⟩
    exact absurd (hbits b0 b1 hknown h0 h1) (by simp [hb])

end Sys2Proof.Machine

/-! The ring as a queue of at most N Codes (R170, R173, R174): what PUSH and POP do to the unread Codes. -/

namespace Sys2Proof.Machine

theorem exec_push (c : Code) (s : State) : exec (.push c) s = execPush c s := rfl

theorem exec_pop (s : State) : exec .pop s = execPop s := rfl

/-! ### PUSH -/

/-- The copy into the write slot and COMMIT: together the write of that slot, and the next write index (R172, R173). -/
theorem commit_modifyCur_of_lt (c : Code) (s : State) (h : s.writeIndex < s.slots.length) :
    commit (modifyCur s (fun _ => c)) = .next { s with
      slots := s.slots.set s.writeIndex { code := committed c, unread := true }
      writeIndex := (s.writeIndex + 1) % s.params.n } := by
  rw [modifyCur_of_lt s _ h, commit_of_lt _ (by simpa [withCurCode] using h), curCode_withCurCode s c h]
  simp only [withCurCode, List.set_set]

/-- PUSH answers a state only through CLAIM, after which the Code stands committed in the write slot (R173). -/
theorem execPush_cases {c : Code} {s t : State} (h : execPush c s = .next t) :
    ∃ u, claim s = .next u ∧ t = { u with
      slots := u.slots.set u.writeIndex { code := committed c, unread := true }
      writeIndex := (u.writeIndex + 1) % u.params.n } := by
  unfold execPush at h
  split at h
  · obtain ⟨u, hclaim, hcommit⟩ := andThen_cases _ _ _ h
    have hu : u.writeIndex < u.slots.length := by
      obtain ⟨hw, rfl⟩ := claim_cases hclaim
      simpa using hw
    rw [commit_modifyCur_of_lt c u hu] at hcommit
    exact ⟨u, hclaim, (Host.Outcome.next.inj hcommit).symm⟩
  · cases h

/-- PUSH on the ring (R173): CLAIM makes room by dropping the oldest Code of a full ring, COMMIT appends the Code. -/
theorem RingHolds.after_push {c : Code} {s t : State} {k : Nat} (h : RingHolds s k)
    (hlen : s.slots.length = s.params.n) (hpush : execPush c s = .next t) :
    RingHolds t ((if k = s.params.n then k - 1 else k) + 1)
      ∧ unreadCodes t = dropIfFull s.params.n (unreadCodes s) ++ [committed c] := by
  obtain ⟨u, hclaim, rfl⟩ := execPush_cases hpush
  obtain ⟨-, hu⟩ := claim_cases hclaim
  obtain ⟨hring, hfree, hcodes⟩ := h.claim (t := u) Slot.empty rfl hlen
    (hu ▸ rfl) (hu ▸ rfl) (hu ▸ rfl) (hu ▸ rfl)
  rw [← hcodes]
  exact hring.commit (committed c) hfree (by simpa [hu] using hlen) rfl rfl rfl rfl

/-! ### POP -/

/-- While idle POP does what the flag of the slot at `readIndex` says (R174). -/
theorem execPop_of_lt (s : State) (hidle : s.txBusy = false) (hr : s.readIndex < s.slots.length) :
    execPop s = .next
      (if unreadAt s s.readIndex then
        { s with
          slots := s.slots.set s.readIndex { code := codeAt s s.readIndex, unread := false }
          readIndex := (s.readIndex + 1) % s.params.n
          result := some (.popped (some (codeAt s s.readIndex))) }
      else { s with result := some (.popped none) }) := by
  rw [execPop, whenIdle_of_idle s _ hidle, withSlot_of_lt s _ _ hr]
  split
  case isTrue => rfl
  case isFalse => rfl

/-- The read slot is unread exactly when the queue is not empty. -/
theorem RingHolds.read_unread {s : State} {k : Nat} (h : RingHolds s k) :
    unreadAt s s.readIndex = decide (0 < k) := by
  have hread := h.read
  simpa [Nat.mod_eq_of_lt hread] using h.unread 0 (by omega)

/-- POP hands over the head of the queue and leaves its tail (R174). -/
theorem RingHolds.after_pop {s t : State} {k : Nat} (h : RingHolds s k) (hlen : s.slots.length = s.params.n)
    (hpop : execPop s = .next t) :
    t.result = some (.popped (unreadCodes s).head?) ∧ unreadCodes t = (unreadCodes s).tail := by
  have hread := h.read_unread
  obtain ⟨-, ⟨hunread, ht⟩ | ⟨hunread, rfl⟩⟩ := execPop_cases hpop
  case inl =>
    cases k with
    | zero => simp [hunread] at hread
    | succ k =>
      obtain ⟨-, hcodes⟩ := h.pop (t := t) { code := codeAt s s.readIndex, unread := false } rfl hlen
        (ht ▸ rfl) (ht ▸ rfl) (ht ▸ rfl) (ht ▸ rfl)
      rw [hcodes]
      exact ⟨ht ▸ rfl, rfl⟩
  case inr =>
    have hempty : unreadCodes s = [] := by
      obtain rfl : k = 0 := by simpa [hunread] using hread
      rw [h.unreadCodes_eq]
      rfl
    rw [hempty]
    exact ⟨rfl, hempty⟩

/-! ### The obligations -/

/-- Settles O31: one equation of POP for both values of the flag. -/
theorem popTakesReadSlot : Obligations.PopTakesReadSlot := fun s hidle hr => by
  rw [exec_pop]
  exact execPop_of_lt s hidle hr

/-- Settles O32: the ring of the invariant is the queue of its `unreadCount` Codes, and PUSH and POP act on it as on a
queue. -/
theorem ringIsDropOldestQueue : Obligations.RingIsDropOldestQueue := by
  intro s hinv
  have hlen := (base_of_inv hinv).length_slots
  have hring := (base_of_inv hinv).holds
  refine ⟨?bound, fun c t _ hpush => ?push, fun t hpop => ?pop⟩
  case bound => simpa [hring.unreadCodes_eq] using hring.count
  case push => exact (hring.after_push hlen hpush).2
  case pop => exact hring.after_pop hlen hpop

end Sys2Proof.Machine

/-! The transmitter (R180 to R184) and CFG_GET (R189): the start of a transmission, and the sequencer from segment to
segment while the environment does nothing. -/

namespace Sys2Proof.Machine

theorem exec_cfgGet (s : State) : exec .cfgGet s = execCfgGet s := rfl

theorem exec_transmit (c : Code) (s : State) : exec (.transmit c) s = execTransmit c s := rfl

/-- From idle TRANSMIT starts the sequencer on the schedule (R182). -/
theorem execTransmit_of_idle (c : Code) {s : State} (hidle : s.txBusy = false) :
    execTransmit c s =
      .next { s with txSchedule := schedule c s.cfg, txPhase := 0, txBusy := true, txStart := none } := by
  rw [execTransmit, whenIdle_of_idle s _ hidle]

/-- TRANSMIT answers a state only from idle. -/
theorem execTransmit_cases {c : Code} {s t : State} (h : execTransmit c s = .next t) : s.txBusy = false
    ∧ t = { s with txSchedule := schedule c s.cfg, txPhase := 0, txBusy := true, txStart := none } := by
  obtain ⟨hidle, ht⟩ := whenIdle_cases _ _ _ h
  exact ⟨hidle, (Host.Outcome.next.inj ht).symm⟩

/-! ### The sequencer without inputs -/

/-- The end of a segment whose hold was not timed, as R184 writes it. -/
theorem endSegment_eq (seg : Segment) {s : State} (hstart : s.txStart = none) : endSegment seg s = { s with
    txPin := seg.level
    txPhase := s.txPhase + 1
    txBusy := if s.txPhase + 1 = s.txSchedule.length then false else true } := by
  by_cases hlast : s.txPhase + 1 = s.txSchedule.length <;> simp [endSegment, hlast, hstart]

/-- With nothing to take and no hold being timed, a step during a transmission emits the present segment (R184). -/
theorem step_of_segment {s : State} {seg : Segment} (hwf : s.params.wellFormed = true) (hbusy : s.txBusy = true)
    (hinputs : s.inputs = []) (hstart : s.txStart = none) (hseg : s.txSchedule[s.txPhase]? = some seg) :
    step s = .next { s with
      txPin := seg.level
      txPhase := s.txPhase + 1
      txBusy := if s.txPhase + 1 = s.txSchedule.length then false else true } := by
  have htake : takeInput s.txBusy s.inputs = none := by rw [hinputs, takeInput]
  rw [← endSegment_eq seg hstart, step, if_pos hwf, agentStep, htake]
  simp only [hbusy, if_true, txIdleStep, hstart]
  exact withSegment_of_present _ hseg

/-- One step per segment (R61, R184): `k + 1` steps end with segment `k` from the present one on, and of the state only
the sequencer's registers and the pin have moved. -/
theorem runSteps_of_segment {s : State} (hwf : s.params.wellFormed = true) (hbusy : s.txBusy = true)
    (hinputs : s.inputs = []) (hstart : s.txStart = none) {k : Nat} {seg : Segment}
    (hseg : s.txSchedule[s.txPhase + k]? = some seg) :
    runSteps (k + 1) s = .next { s with
      txPin := seg.level
      txPhase := s.txPhase + k + 1
      txBusy := if s.txPhase + k + 1 = s.txSchedule.length then false else true } := by
  induction k generalizing seg with
  | zero =>
    rw [runSteps_succ]
    exact step_of_segment hwf hbusy hinputs hstart hseg
  | succ k ih =>
    have hlt : s.txPhase + k + 1 < s.txSchedule.length := (List.getElem?_eq_some_iff.1 hseg).1
    rw [runSteps_succ, ih (List.getElem?_eq_getElem (by omega)), andThen_next]
    exact step_of_segment hwf (if_neg hlt.ne) hinputs hstart hseg

/-! ### The obligations -/

/-- Settles O49: from idle nothing refuses the start step. -/
theorem transmitStarts : Obligations.TransmitStarts := fun s c hidle => by
  rw [exec_transmit]
  exact execTransmit_of_idle c hidle

/-- Settles O57: from idle nothing refuses the delivery of the configuration. -/
theorem cfgGetReadsAllFields : Obligations.CfgGetReadsAllFields := fun s hidle => by
  rw [exec_cfgGet, execCfgGet, whenIdle_of_idle s _ hidle, deliver]

/-- Settles O53: each step emits one segment of the schedule, and the last of the schedule is the post-pause, which is
low. -/
theorem transmissionRunsToCompletion : Obligations.TransmissionRunsToCompletion := by
  intro s s0 c hwf hinputs htransmit
  rw [exec_transmit] at htransmit
  obtain ⟨-, hs0⟩ := execTransmit_cases htransmit
  have hschedule : s0.txSchedule = schedule c s.cfg := by rw [hs0]
  have hphase : s0.txPhase = 0 := by rw [hs0]
  rw [← hschedule]
  have hrun : ∀ {k seg}, s0.txSchedule[k]? = some seg → runSteps (k + 1) s0 = .next { s0 with
      txPin := seg.level
      txPhase := k + 1
      txBusy := if k + 1 = s0.txSchedule.length then false else true } := by
    intro k seg hseg
    simpa only [hphase, Nat.zero_add] using runSteps_of_segment (s := s0) (k := k) (seg := seg)
      (by rw [hs0, hwf]) (by rw [hs0]) (by rw [hs0, hinputs]) (by rw [hs0]) (by rw [hphase, Nat.zero_add, hseg])
  refine ⟨fun k hk => ?segments, ?ends⟩
  case segments =>
    have hseg := List.getElem?_eq_getElem hk
    exact ⟨_, hseg, hrun hseg⟩
  case ends =>
    obtain ⟨m, hm⟩ : ∃ m, s0.txSchedule.length = m + 1 := ⟨_, by rw [hschedule]; rfl⟩
    have hlast := schedule_getLast? c s.cfg
    rw [← hschedule, List.getLast?_eq_getElem?, hm, Nat.add_sub_cancel] at hlast
    rw [hm]
    exact ⟨_, hrun hlast, if_pos hm.symm, rfl⟩

end Sys2Proof.Machine

/-! ABORT (R203, R206): the message-start check is all it runs, and a message in progress holds a slot that is not
unread, so the start of the next message drops no Code. -/

namespace Sys2Proof.Machine

/-! ### The message-start check on either side of the minimum -/

theorem afterStartCheck_of_long {d : Time} (shared : Bool) {s : State} (h : s.params.minPrePauseUs ≤ d.toNat) :
    afterStartCheck d shared s = startedMessage d shared s := if_pos h

theorem afterStartCheck_of_short {d : Time} (shared : Bool) {s : State} (h : d.toNat < s.params.minPrePauseUs) :
    afterStartCheck d shared s = { s with state := .awaitPause } := if_neg h.not_ge

/-! ### The ring under the message-start check -/

@[simp] theorem afterStartCheck_writeIndex (d : Time) (shared : Bool) (s : State) :
    (afterStartCheck d shared s).writeIndex = s.writeIndex := by
  unfold afterStartCheck
  split <;> rfl

/-- A message start into a slot that is not unread moves no index. -/
theorem afterStartCheck_readIndex_of_free (d : Time) (shared : Bool) {s : State}
    (hfree : unreadAt s s.writeIndex = false) : (afterStartCheck d shared s).readIndex = s.readIndex := by
  rcases Nat.lt_or_ge d.toNat s.params.minPrePauseUs with hshort | hlong
  · rw [afterStartCheck_of_short shared hshort]
  · rw [afterStartCheck_of_long shared hlong, startedMessage_readIndex, hfree]
    rfl

/-- While a message is in progress its slot is not unread. -/
theorem BlockInv.write_free {s : State} (h : BlockInv s) (hs : s.state ≠ .awaitPause) :
    unreadAt s s.writeIndex = false := (h.message hs).1

/-! ### The obligation -/

/-- Settles O24: ABORT is the message-start check, which finds the slot of the message in progress not unread. -/
theorem abortLeavesNoTrace : Obligations.AbortLeavesNoTrace := by
  intro s t cause d hinv hs habort
  have hfree := hinv.write_free hs
  obtain rfl := abort_cases habort
  exact ⟨unreadCodes_afterStartCheck_of_free (base_of_inv hinv) hfree d _,
    afterStartCheck_readIndex_of_free d _ hfree, afterStartCheck_writeIndex d _ s,
    afterStartCheck_of_long _, afterStartCheck_of_short _⟩

end Sys2Proof.Machine

/-! The sum of a schedule's durations (R254): the pauses at both ends, and between them the repetitions, each with its
pulses and each but the first with an inter-pause. -/

namespace Sys2Proof.Machine

/-- A repetition lasts as long as its pulses, with an inter-pause before them except in the first. -/
theorem totalTime_repetition (c : Code) (cfg : TxConfig) (i : Nat) :
    totalTime ((repetition c cfg i).map (fun seg => seg.duration)) =
      (if i = 0 then 0 else cfg.interPause.toNat) + totalTime (pulses c cfg) := by
  rw [repetition, List.map_append, totalTime_append, toggled_durations]
  split
  case isTrue => rfl
  case isFalse => rfl

/-- The repetitions together: every one's pulses and one inter-pause less than there are repetitions. -/
theorem totalTime_repetitions (c : Code) (cfg : TxConfig) (n : Nat) :
    totalTime (((List.range n).flatMap (repetition c cfg)).map (fun seg => seg.duration)) =
      n * totalTime (pulses c cfg) + (n - 1) * cfg.interPause.toNat := by
  induction n with
  | zero => simp [totalTime]
  | succ n ih =>
    rw [List.range_succ, List.flatMap_append, List.flatMap_singleton, List.map_append, totalTime_append, ih,
      totalTime_repetition, Nat.add_sub_cancel]
    cases n with
    | zero => simp
    | succ n =>
      rw [if_neg n.succ_ne_zero, Nat.add_sub_cancel]
      ring

/-- Settles O51: the schedule is the pre-pause, the repetitions and the post-pause, and durations add up along it. -/
theorem scheduleDuration : Obligations.ScheduleDuration := by
  intro c cfg _
  simp only [schedule, List.map_cons, List.map_append, List.map_nil, totalTime_cons, totalTime_append,
    totalTime_repetitions]
  simp [totalTime, Nat.add_assoc]

end Sys2Proof.Machine

/-! The configuration operations (R34, R74, R188, R190): what CFG_SET and PRESET write. -/

namespace Sys2Proof.Machine

theorem exec_cfgSet_of_idle (idx : BitVec 4) (value : BitVec 32) {s : State} (hidle : s.txBusy = false) :
    exec (.cfgSet idx value) s = .next { s with cfg := writeField s.cfg idx value } := by
  rw [exec, execCfgSet, whenIdle_of_idle s _ hidle]

theorem exec_preset_of_known {n : BitVec 32} {cfg : TxConfig} {s : State} (hidle : s.txBusy = false)
    (h : s.params.presets.lookup n = some cfg) : exec (.preset n) s = .next { s with cfg := cfg } := by
  rw [exec, execPreset, whenIdle_of_idle s _ hidle, h]

theorem exec_preset_of_unknown {n : BitVec 32} {s : State} (hidle : s.txBusy = false)
    (h : s.params.presets.lookup n = none) : exec (.preset n) s = .next s := by
  rw [exec, execPreset, whenIdle_of_idle s _ hidle, h]

/-- An index of 8 to 15 names no field (R74). -/
theorem writeField_of_unassigned (cfg : TxConfig) {idx : BitVec 4} (value : BitVec 32) (h : 8 ≤ idx.toNat) :
    writeField cfg idx value = cfg := by
  unfold writeField
  split
  case h_9 => rfl
  all_goals omega

theorem exec_cfgSet_of_unassigned {idx : BitVec 4} (value : BitVec 32) {s : State} (hidle : s.txBusy = false)
    (hidx : 8 ≤ idx.toNat) : exec (.cfgSet idx value) s = .next s := by
  rw [exec_cfgSet_of_idle idx value hidle, writeField_of_unassigned s.cfg value hidx]

/-- A write of a field is a write of one place of the eight (R34, R74). -/
theorem configFields_writeField (cfg : TxConfig) {idx : BitVec 4} (value : BitVec 32) (h : idx.toNat < 8) :
    configFields (writeField cfg idx value) = (configFields cfg).set idx.toNat
      (if idx.toNat = 7 then BitVec.ofNat 32 (value.toNat % 256) else value) := by
  have hlow : (value.extractLsb' 0 8).setWidth 32 = BitVec.ofNat 32 (value.toNat % 256) := by
    apply BitVec.eq_of_toNat_eq
    simp
  unfold writeField
  split
  case h_9 => grind
  all_goals simp_all [configFields]

/-- Settles O56: the write of one place, and of none for an unassigned index. -/
theorem cfgSetWritesOneField : Obligations.CfgSetWritesOneField := fun s idx value hidle =>
  ⟨fun hidx => ⟨_, exec_cfgSet_of_idle idx value hidle, configFields_writeField s.cfg value hidx⟩,
    exec_cfgSet_of_unassigned value hidle⟩

/-- Settles O58: by what the table of presets holds under the number. -/
theorem presetLoadsConfiguration : Obligations.PresetLoadsConfiguration := fun _ _ hidle =>
  ⟨fun _ h => exec_preset_of_known hidle h, exec_preset_of_unknown hidle⟩

end Sys2Proof.Machine

/-! Requests (R72, R78, R79): which requests name an operation, which are ignored, and which wait for a transmission in
progress. -/

namespace Sys2Proof.Machine

/-! ### Decoding and encoding -/

/-- The request carries the operation's operands where R72 and R76 place them. -/
def CarriesOperands (r : Request) : Instr → Prop
  | .edge ts => reqData r.word = ts
  | .push c => r.code = c
  | .pop => True
  | .finalize c => r.code = c
  | .decodeV1a c => r.code = c
  | .decodeV2a c => r.code = c
  | .transmit c => r.code = c
  | .cfgSet idx value => reqIdx r.word = idx ∧ reqData r.word = value
  | .cfgGet => True
  | .preset n => reqData r.word = n

/-- A request names the operation of its selector with the operands it carries (R71, R72). -/
theorem decode_eq_ok_iff {r : Request} {i : Instr} :
    decode r = .ok i ↔ reqSel r.word = i.selector ∧ CarriesOperands r i := by
  constructor
  · intro h
    rw [← BitVec.toNat_inj]
    unfold decode at h
    split at h
    case h_11 => cases h
    all_goals
      cases h
      exact ⟨by assumption, by simp [CarriesOperands]⟩
  · rintro ⟨hsel, hops⟩
    cases i <;> simp_all [decode, Instr.selector, CarriesOperands]

/-- A request of an unassigned selector names no operation (R78). -/
theorem decode_of_unassigned {r : Request} (h : reqSel r.word = 0x0#4 ∨ 0xB ≤ (reqSel r.word).toNat) :
    ∃ e, decode r = .error e := by
  cases hdec : decode r with
  | error e => exact ⟨e, rfl⟩
  | ok i =>
    obtain ⟨hsel, -⟩ := decode_eq_ok_iff.1 hdec
    rw [hsel] at h
    cases i <;> simp [Instr.selector] at h

/-! A masked word is compared field by field, for the three masks of `Instr.usedBits`. -/

theorem and_dataMask_eq_iff {w : BitVec 40} {sel : BitVec 4} {data : BitVec 32} :
    w &&& 0xF0FFFFFFFF#40 = reqWord sel 0#4 data ↔ reqSel w = sel ∧ reqData w = data := by
  have hmask : 0xF0FFFFFFFF#40 = reqWord (BitVec.allOnes 4) 0#4 (BitVec.allOnes 32) := by decide
  conv_lhs => rw [← reqWord_eta w, hmask, reqWord_and, reqWord_inj, BitVec.and_allOnes]
  simp only [BitVec.and_zero, true_and, BitVec.and_allOnes]

theorem and_fullMask_eq_iff {w : BitVec 40} {sel idx : BitVec 4} {data : BitVec 32} :
    w &&& 0xFFFFFFFFFF#40 = reqWord sel idx data ↔ reqSel w = sel ∧ reqIdx w = idx ∧ reqData w = data := by
  have hmask : 0xFFFFFFFFFF#40 = BitVec.allOnes 40 := by decide
  conv_lhs => rw [← reqWord_eta w, hmask, BitVec.and_allOnes, reqWord_inj]

theorem and_selectorMask_eq_iff {w : BitVec 40} {sel : BitVec 4} :
    w &&& 0xF000000000#40 = reqWord sel 0#4 0#32 ↔ reqSel w = sel := by
  have hmask : 0xF000000000#40 = reqWord (BitVec.allOnes 4) 0#4 0#32 := by decide
  conv_lhs => rw [← reqWord_eta w, hmask, reqWord_and, reqWord_inj, BitVec.and_allOnes]
  simp only [BitVec.and_zero, and_true]

/-- A request agrees with an operation's encoding on what the operation reads exactly when it has the operation's
selector and carries its operands. -/
theorem agrees_iff_carriesOperands (r : Request) (i : Instr) :
    (r.word &&& i.usedBits = (encode i).word ∧ (i.takesCode = true → r.code = (encode i).code)) ↔
      reqSel r.word = i.selector ∧ CarriesOperands r i := by
  simp only [CarriesOperands, Instr.selector]
  cases i with
  | edge | preset => simp [Instr.usedBits, Instr.takesCode, encode, plainRequest, and_dataMask_eq_iff]
  | cfgSet => simp [Instr.usedBits, Instr.takesCode, encode, plainRequest, and_fullMask_eq_iff]
  | push | pop | finalize | decodeV1a | decodeV2a | transmit | cfgGet =>
    simp [Instr.usedBits, Instr.takesCode, encode, plainRequest, and_selectorMask_eq_iff]

/-- The canonical request of an operation names it. -/
theorem decode_encode (i : Instr) : decode (encode i) = .ok i := by
  rw [decode_eq_ok_iff]
  cases i <;> simp [encode, plainRequest, Instr.selector, CarriesOperands]

/-- Settles O1: both sides say that the request has the operation's selector and carries its operands. -/
theorem decodeInvertsEncode : Obligations.DecodeInvertsEncode :=
  fun i => ⟨decode_encode i, fun r => decode_eq_ok_iff.trans (agrees_iff_carriesOperands r i).symm⟩

/-- Settles O2: five words are canonical encodings; the POP word has ignored fields set. -/
theorem decodeReadsWrittenWords : Obligations.DecodeReadsWrittenWords :=
  ⟨decode_encode (.edge 4000#32), fun c => decode_encode (.push c), decode_eq_ok_iff.2 ⟨by decide, trivial⟩,
    decode_encode (.cfgSet 5#4 350#32), decode_encode .cfgGet, decode_encode (.preset 1#32)⟩

/-! ### Requests that change nothing (R78) -/

/-- A request that names no operation changes nothing. -/
theorem runRequest_of_error {r : Request} {e : Reserved} (h : decode r = .error e) (s : State) :
    runRequest r s = .next s := by
  simp only [runRequest, h]

/-- A request whose operation changes nothing changes nothing, ignored or not. -/
theorem runRequest_of_exec_self {r : Request} {i : Instr} {s : State} (h : decode r = .ok i)
    (hi : i.wellFormed s.params = true) (hexec : exec i s = .next s) : runRequest r s = .next s := by
  rw [runRequest_of_decode h hi, hexec, ite_self]

/-- The reserved requests of R78, of an unassigned selector, index or preset, change nothing. -/
theorem runRequest_of_reserved {r : Request} {s : State} (hidle : s.txBusy = false)
    (h : reqSel r.word = 0x0#4 ∨ 0xB ≤ (reqSel r.word).toNat
      ∨ (reqSel r.word = 0x8#4 ∧ 8 ≤ (reqIdx r.word).toNat)
      ∨ (reqSel r.word = 0x9#4 ∧ 8 ≤ (reqIdx r.word).toNat ∧ s.params.cfgGetIndex = .reserved)
      ∨ (reqSel r.word = 0xA#4 ∧ s.params.presets.lookup (reqData r.word) = none)) :
    runRequest r s = .next s := by
  obtain hsel | hsel | ⟨hsel, hidx⟩ | ⟨hsel, hidx, hget⟩ | ⟨hsel, hnone⟩ := h
  · obtain ⟨e, he⟩ := decode_of_unassigned (.inl hsel)
    exact runRequest_of_error he s
  · obtain ⟨e, he⟩ := decode_of_unassigned (.inr hsel)
    exact runRequest_of_error he s
  · have hdec : decode r = .ok (.cfgSet (reqIdx r.word) (reqData r.word)) := decode_eq_ok_iff.2 ⟨hsel, rfl, rfl⟩
    exact runRequest_of_exec_self hdec rfl (exec_cfgSet_of_unassigned _ hidle hidx)
  · have hdec : decode r = .ok .cfgGet := decode_eq_ok_iff.2 ⟨hsel, trivial⟩
    rw [runRequest_of_decode hdec rfl, if_pos ((ignoredRequest_iff hdec).2 ⟨hget, rfl, hidx⟩)]
  · have hdec : decode r = .ok (.preset (reqData r.word)) := decode_eq_ok_iff.2 ⟨hsel, rfl⟩
    exact runRequest_of_exec_self hdec rfl (exec_preset_of_unknown hidle hnone)

/-- Settles O5: the request stands first, so the step takes it, and it changes nothing. -/
theorem reservedRequestsAreIgnored : Obligations.ReservedRequestsAreIgnored := by
  intro s r rest hwf hidle hinputs hreserved
  have htake : takeInput s.txBusy s.inputs = some (.request r, rest) := by
    rw [hinputs]
    exact takeInput_first rest (.inl hidle)
  rw [step_of_takeInput hwf htake]
  exact runRequest_of_reserved (s := { s with inputs := rest }) hidle hreserved

/-! ### Waiting for a transmission (R79) -/

/-- With no input to take, a step during a transmission is the sequencer's (R184). -/
theorem step_of_takeInput_none {s : State} (hwf : s.params.wellFormed = true) (hbusy : s.txBusy = true)
    (h : takeInput s.txBusy s.inputs = none) : step s = txIdleStep s := by
  rw [step, if_pos hwf, agentStep, h]
  exact if_pos hbusy

/-- An operation's canonical request runs it, where its operand fits. -/
theorem runRequest_encode {i : Instr} {s : State} (hi : i.wellFormed s.params = true) :
    runRequest (encode i) s = exec i s := by
  rw [runRequest_of_decode (decode_encode i) hi, ignoredRequest_encode]
  rfl

/-- Settles O6: what waits is passed over, by an EDGE behind it and by the sequencer. -/
theorem foregroundWaitsAndEdgeDoesNot : Obligations.ForegroundWaitsAndEdgeDoesNot := by
  refine ⟨fun i hi => ?waits, fun s waiting hwf hbusy hwait =>
    ⟨fun hinputs => ?sequencer, fun ts rest hinputs => ?edge⟩⟩
  case waits => exact (waitsForForeground_of_decode (decode_encode i)).trans (decide_eq_true hi)
  case sequencer =>
    exact step_of_takeInput_none hwf hbusy (by rw [hbusy, hinputs, takeInput_none waiting hwait])
  case edge =>
    have hfree : waitsForForeground (.request (encode (.edge ts))) = false :=
      waitsForForeground_of_decode (decode_encode (.edge ts))
    have htake : takeInput s.txBusy s.inputs = some (.request (encode (.edge ts)), waiting ++ rest) := by
      rw [hbusy, hinputs, takeInput_behind waiting rest _ hwait hfree]
    rw [step_of_takeInput hwf htake]
    exact runRequest_encode rfl

end Sys2Proof.Machine

/-! The state after reset (R230): every value of the reset table, and the block's invariant. -/

namespace Sys2Proof.Machine

theorem resetWith_atReset (p : Params) : AtReset (State.resetWith p) where
  lastEdgeTime := rfl
  prePauseTime := rfl
  timing := ⟨rfl, rfl⟩
  sampleMin := ⟨rfl, rfl⟩
  sampleMax := ⟨rfl, rfl⟩
  state := rfl
  preambleCount := rfl
  indexes := ⟨rfl, rfl⟩
  slotCount := List.length_replicate
  slots := fun _ hi => List.getElem?_replicate_of_lt hi
  cfg := rfl
  sender := ⟨rfl, rfl, rfl, rfl, rfl⟩

/-- The environment's further inputs are no part of the reset table. -/
theorem AtReset.withInputs {s : State} (h : AtReset s) (xs : List Input) : AtReset { s with inputs := xs } :=
  { h with }

/-- Settles O8: the reset signal is taken whatever the block does, and it writes the reset state. -/
theorem resetLeavesTableValues : Obligations.ResetLeavesTableValues := by
  refine ⟨fun p => ⟨resetWith_atReset p, rfl⟩, fun s rest hwf hinputs => ?_⟩
  have htake : takeInput s.txBusy s.inputs = some (.reset, rest) := by
    rw [hinputs]
    exact takeInput_first rest (.inr rfl)
  exact ⟨resetBlock { s with inputs := rest }, step_of_takeInput hwf htake,
    (resetWith_atReset s.params).withInputs rest, rfl, rfl⟩

theorem unreadAt_resetWith (p : Params) (i : Nat) : unreadAt (State.resetWith p) i = false := by
  rcases Nat.lt_or_ge i p.n with hi | hi
  · simp [unreadAt, State.resetWith, hi, Slot.empty]
  · simp [unreadAt, State.resetWith, hi]

/-- After reset the ring is empty (R175, R230). -/
theorem resetWith_ringHolds {p : Params} (hn : 0 < p.n) : RingHolds (State.resetWith p) 0 where
  read := hn
  count := Nat.zero_le _
  write := (Nat.zero_mod _).symm
  unread := fun _ _ => unreadAt_resetWith p _

theorem resetWith_slotForm {p : Params} (hn : 0 < p.n) : SlotForm (State.resetWith p) := by
  refine ⟨Memory.wf_reset p, hn, hn, fun sl hsl hunread => ?_⟩
  rw [List.eq_of_mem_replicate hsl] at hunread
  cases hunread

theorem resetWith_blockInv {p : Params} (hwf : p.wellFormed = true) : BlockInv (State.resetWith p) := by
  obtain ⟨-, -, -, -, -, -, -, hn, -⟩ := wellFormed_facts p hwf
  refine ⟨hwf, resetWith_slotForm hn, (resetWith_ringHolds hn).form, fun h => absurd rfl h, ?phase, ?send⟩
  case phase => simp [PhaseForm, State.resetWith]
  case send => exact ⟨fun hbusy => (Bool.false_ne_true hbusy).elim, fun _ => ⟨rfl, rfl⟩⟩

/-- Settles O9: AWAIT_PAUSE, an empty ring and an idle transmitter. -/
theorem resetMeetsInvariant : Obligations.ResetMeetsInvariant := fun _ hwf => resetWith_blockInv hwf

end Sys2Proof.Machine

/-! EDGE on the block's invariant (R66, R100 to R114): every state of the assembler keeps it, and what each does to the
queue of unread Codes. -/

namespace Sys2Proof.Machine

/-! ### The invariant part by part -/

theorem Base.readIndex_lt {s : State} (h : Base s) : s.readIndex < s.params.n := by
  obtain ⟨-, hread, -⟩ := h.slots
  exact hread

theorem Base.writeIndex_lt {s : State} (h : Base s) : s.writeIndex < s.params.n := by
  obtain ⟨-, -, hwrite, -⟩ := h.slots
  exact hwrite

theorem Base.slots_wf {s : State} (h : Base s) : Memory.wf s.params s.slots = true := by
  obtain ⟨hwf, -⟩ := h.slots
  exact hwf

theorem MessageForm.free {s : State} (h : MessageForm s) : unreadAt s s.writeIndex = false := by
  obtain ⟨hfree, -⟩ := h
  exact hfree

/-- The BitTiming invariant (R23). -/
theorem MessageForm.ratio {s : State} (h : MessageForm s) :
    s.oneTime ≠ 0#32 → scale s.params s.zeroTime s.params.minRelativeDuration ≤ s.oneTime.toNat := by
  obtain ⟨-, -, hratio, -⟩ := h
  exact hratio

theorem BlockInv.of_inPreamble {s : State} (h : BlockInv s) (hs : s.state = .inPreamble) :
    s.zeroTime = 0#32 ∧ s.oneTime = 0#32 ∧ (curCode s).bits = [] := by
  obtain ⟨hphase, -⟩ := h.phase
  exact hphase hs

theorem BlockInv.of_calibrating {s : State} (h : BlockInv s) (hs : s.state = .calibrating) :
    (curCode s).length < s.params.maxSamples := by
  obtain ⟨-, hphase, -⟩ := h.phase
  exact hphase hs

theorem BlockInv.of_decoding {s : State} (h : BlockInv s) (hs : s.state = .decoding) :
    s.zeroTime ≠ 0#32 ∧ s.oneTime ≠ 0#32 ∧ s.params.minSamples ≤ (curCode s).length
      ∧ (curCode s).length ≤ s.params.maxLength := by
  obtain ⟨-, -, hphase⟩ := h.phase
  exact hphase hs

/-! ### The states of the assembler -/

/-- Between two messages the base is the whole invariant. -/
theorem Base.blockInv_of_awaitPause {s : State} (h : Base s) (hs : s.state = .awaitPause) : BlockInv s :=
  ⟨h.config, h.slots, h.ring, fun hne => absurd hs hne, by simp [PhaseForm, hs], h.send⟩

/-- The estimates' part of the form of the Code in progress, weakened by one class. -/
theorem CodeForm.weaken {z o : Time} {c : Code} (h : CodeForm z o c) (b : Bool) :
    CodeForm (if b then z else 0#32) (if b then 0#32 else o) c := by
  obtain ⟨hflags, hcount, htotal, hzero, hone⟩ := h
  cases b with
  | false => exact ⟨hflags, hcount, htotal, fun hne => absurd rfl hne, hone⟩
  | true => exact ⟨hflags, hcount, htotal, hzero, fun hne => absurd rfl hne⟩

theorem length_curCode_sampled (b : Bool) (d : Time) {s : State} (h : s.writeIndex < s.slots.length) :
    (curCode (sampled b d s)).length = (curCode s).length + 1 := by
  rw [curCode_sampled b d s h]
  simp [sampledCode, Code.length]

/-- The ratio of the estimates is not broken where the BitTiming invariant holds (R23, R107). -/
theorem ratio_of_not_ratioBroken {s : State} (h : ¬ ratioBroken s = true) (hone : s.oneTime ≠ 0#32) :
    scale s.params s.zeroTime s.params.minRelativeDuration ≤ s.oneTime.toNat := by
  rw [ratioBroken_iff] at h
  exact Nat.le_of_not_lt fun hlt => h ⟨hone, hlt⟩

/-- IN_PREAMBLE keeps the invariant and the queue: the Code in progress has no bits and no estimate is known. -/
theorem preamble_keeps {d : Time} {s t : State} (h : BlockInv s) (hs : s.state = .inPreamble)
    (hrun : preamble d s = .next t) : BlockInv t ∧ unreadCodes t = unreadCodes s := by
  have hmessage : MessageForm s := h.message (by simp [hs])
  have hcode := codeForm_of_message hmessage
  obtain ⟨hzero, hone, hbits⟩ := h.of_inPreamble hs
  obtain ⟨-, -, -, hmin, hmax, -⟩ := wellFormed_facts _ h.config
  obtain ⟨-, rfl⟩ := preamble_cases hrun
  obtain ⟨hbase, hcur, hfree, hqueue⟩ := base_of_curCode
    (t := { withCurCode s
        { curCode s with preambleTime := (curCode s).preambleTime.set s.preambleCount d } with
      preambleCount := true
      state := if s.preambleCount then .calibrating else s.state })
    (base_of_inv h) rfl rfl rfl rfl h.send hmessage.free (codeAt_fits s s.writeIndex (base_of_inv h).slots_wf)
  refine ⟨⟨hbase.config, hbase.slots, hbase.ring, fun _ => ?message, ?phase, hbase.send⟩, hqueue⟩
  case message => exact message_of_codeForm hfree (by rw [hcur]; exact hcode) fun hne => absurd hone hne
  case phase =>
    refine ⟨fun _ => ⟨hzero, hone, ?_⟩, fun _ => ?_, fun hdec => ?_⟩
    · rw [hcur]
      exact hbits
    · rw [hcur, Code.length, hbits]
      exact Nat.lt_of_lt_of_le hmin hmax
    · cases hcount : s.preambleCount <;> simp [hcount, hs] at hdec

/-- The message-start check on a write slot that is not unread keeps the invariant and the queue. -/
theorem afterStartCheck_keeps_of_free {s : State} (h : Base s) (hfree : unreadAt s s.writeIndex = false) (d : Time)
    (shared : Bool) :
    BlockInv (afterStartCheck d shared s) ∧ unreadCodes (afterStartCheck d shared s) = unreadCodes s :=
  ⟨afterStartCheck_keeps h d shared, unreadCodes_afterStartCheck_of_free h hfree d shared⟩

/-- An abort on a write slot that is not unread keeps the invariant and the queue (R206). -/
theorem abort_keeps {cause : AbortCause} {d : Time} {s t : State} (h : Base s)
    (hfree : unreadAt s s.writeIndex = false) (hrun : abort cause d s = .next t) :
    BlockInv t ∧ unreadCodes t = unreadCodes s := by
  obtain rfl := abort_cases hrun
  exact afterStartCheck_keeps_of_free h hfree d _

/-- The first condition of R110, its parts spelled out. -/
theorem converged_iff (c : Code) (s : State) : converged c s = true ↔
    s.params.minSamples ≤ c.length ∧ s.zeroTime ≠ 0#32 ∧ s.oneTime ≠ 0#32
      ∧ scale s.params s.zeroTime s.params.minZeroNum ≤ s.sampleMin.at0.toNat
      ∧ s.sampleMax.at0.toNat ≤ scale s.params s.zeroTime s.params.maxZeroNum
      ∧ scale s.params s.oneTime s.params.minOneNum ≤ s.sampleMin.at1.toNat
      ∧ s.sampleMax.at1.toNat ≤ scale s.params s.oneTime s.params.maxOneNum := by
  simp only [converged, Bool.and_eq_true, decide_eq_true_eq, consistent_iff, and_assoc]

/-- CONVERGE keeps the invariant and the queue: it goes on with a Code that is neither too short for DECODING nor too
long for CALIBRATING. -/
theorem converge_keeps {d : Time} {s t : State} (hbase : Base s) (hmessage : MessageForm s)
    (hstate : s.state = .calibrating) (hlength : (curCode s).length ≤ s.params.maxSamples)
    (hrun : converge d s = .next t) : BlockInv t ∧ unreadCodes t = unreadCodes s := by
  obtain ⟨-, -, -, -, -, hmax, -⟩ := wellFormed_facts _ hbase.config
  rw [converge_of_lt d s hbase.write_lt] at hrun
  cases hrun
  split
  case isTrue hconverged =>
    obtain ⟨hmin, hzero, hone, -⟩ := (converged_iff _ _).1 hconverged
    exact ⟨⟨hbase.config, hbase.slots, hbase.ring, fun _ => hmessage,
      ⟨nofun, nofun, fun _ => ⟨hzero, hone, hmin, hlength.trans hmax⟩⟩, hbase.send⟩, rfl⟩
  case isFalse =>
    split
    case isTrue => exact afterStartCheck_keeps_of_free hbase hmessage.free d false
    case isFalse hfull =>
      refine ⟨⟨hbase.config, hbase.slots, hbase.ring, fun _ => hmessage, ?_, hbase.send⟩, rfl⟩
      simp only [PhaseForm, hstate]
      exact ⟨nofun, fun _ => Nat.lt_of_not_le hfull, nofun⟩

/-- CALIBRATING keeps the invariant and the queue: an abort finds the write slot free, and a sample keeps the message's
form. -/
theorem calibrate_keeps {d : Time} {s t : State} (h : BlockInv s) (hs : s.state = .calibrating)
    (hrun : calibrate d s = .next t) : BlockInv t ∧ unreadCodes t = unreadCodes s := by
  have hbase := base_of_inv h
  have hmessage : MessageForm s := h.message (by simp [hs])
  have hlength := h.of_calibrating hs
  obtain ⟨-, hrun⟩ := withCur_cases hrun
  split at hrun
  · exact abort_keeps hbase hmessage.free hrun
  · rename_i b u hlearn
    obtain ⟨hparams, -, -, hstate, -, -, -, -, -, -, -, -, -, -, -, -, -, hlen⟩ := learn_frame d s u b hlearn
    obtain ⟨hubase, hufree, huqueue, hucode⟩ := learn_keeps hbase hmessage.free (codeForm_of_message hmessage) hlearn
    rw [← huqueue]
    split at hrun
    · exact abort_keeps hubase hufree hrun
    · rename_i hratio
      obtain ⟨v, happend, hconverge⟩ := andThen_cases _ _ _ hrun
      obtain ⟨hw, hroom, rfl⟩ := append_cases happend
      obtain ⟨hvbase, hvfree, hvqueue, hvcode⟩ := sampled_keeps (d := d) hubase hufree hroom hucode
      rw [← hvqueue]
      have hvlength : (curCode (sampled b d u)).length ≤ (sampled b d u).params.maxSamples := by
        rw [length_curCode_sampled b d hw, hlen, sampled_params, hparams]
        exact hlength
      exact converge_keeps hvbase (message_of_codeForm hvfree hvcode (ratio_of_not_ratioBroken hratio))
        (hstate.trans hs) hvlength hconverge

/-- DECODING keeps the invariant, and appends a completed message to the queue, before the message that its closing
pause starts. -/
theorem decodeDuration_keeps {d : Time} {s t : State} (h : BlockInv s) (hs : s.state = .decoding)
    (hrun : decodeDuration d s = .next t) : BlockInv t ∧ unreadCodes t =
      if isPause s.params s.prePauseTime d = true ∧ s.params.minLength ≤ (curCode s).length then
        if s.params.minPrePauseUs ≤ d.toNat then
          dropIfFull s.params.n (unreadCodes s ++ [completedCode (curCode s)])
        else unreadCodes s ++ [completedCode (curCode s)]
      else unreadCodes s := by
  have hbase := base_of_inv h
  have hmessage : MessageForm s := h.message (by simp [hs])
  obtain ⟨hzero, hone, hmin, hmax⟩ := h.of_decoding hs
  obtain ⟨-, hrun⟩ := withCur_cases hrun
  split at hrun
  case isTrue hpause =>
    split at hrun
    case isTrue hlong =>
      obtain ⟨-, rfl⟩ := complete_cases hrun
      obtain ⟨hcbase, hcqueue⟩ := committedMessage_keeps hbase hmessage.free
      rw [if_pos ⟨hpause, hlong⟩, ← hcqueue]
      exact ⟨afterStartCheck_keeps hcbase d true, unreadCodes_afterStartCheck hcbase d true⟩
    case isFalse hshort =>
      rw [if_neg fun hcomplete => hshort hcomplete.2]
      exact abort_keeps hbase hmessage.free hrun
  case isFalse hpause =>
    rw [if_neg fun hcomplete => hpause hcomplete.1]
    split at hrun
    · exact abort_keeps hbase hmessage.free hrun
    · rename_i b _
      split at hrun
      · exact abort_keeps hbase hmessage.free hrun
      · rename_i hfull
        obtain ⟨hw, hroom, rfl⟩ := append_cases hrun
        obtain ⟨hvbase, hvfree, hvqueue, hvcode⟩ :=
          sampled_keeps (d := d) hbase hmessage.free hroom ((codeForm_of_message hmessage).weaken b)
        have hvmessage := message_of_codeForm (s := sampled b d s) hvfree hvcode hmessage.ratio
        refine ⟨⟨hvbase.config, hvbase.slots, hvbase.ring, fun _ => hvmessage, ?_, hvbase.send⟩, hvqueue⟩
        simp only [PhaseForm, sampled_state, hs, length_curCode_sampled b d hw]
        exact ⟨nofun, nofun, fun _ => ⟨hzero, hone, Nat.le_succ_of_le hmin, Nat.lt_of_not_le hfull⟩⟩

/-- The edge handler keeps the invariant, in every state of the assembler. -/
theorem handle_keeps {d : Time} {s t : State} (h : BlockInv s) (hrun : handle d s = .next t) : BlockInv t := by
  cases hs : s.state with
  | awaitPause =>
    rw [handle_awaitPause d s hs] at hrun
    rw [(startCheck_cases hrun).1]
    exact afterStartCheck_keeps (base_of_inv h) d false
  | inPreamble =>
    rw [handle_inPreamble d s hs] at hrun
    exact (preamble_keeps h hs hrun).1
  | calibrating =>
    rw [handle_calibrating d s hs] at hrun
    exact (calibrate_keeps h hs hrun).1
  | decoding =>
    rw [handle_decoding d s hs] at hrun
    exact (decodeDuration_keeps h hs hrun).1

theorem exec_edge_keeps {ts : Time} {s t : State} (h : BlockInv s) (hrun : exec (.edge ts) s = .next t) :
    BlockInv t := by
  rw [exec_edge] at hrun
  exact handle_keeps (h.withLastEdgeTime ts) hrun

/-- What the edge handler does to the queue, by the state of the assembler. -/
theorem handle_queue {d : Time} {s t : State} (h : BlockInv s) (hrun : handle d s = .next t) :
    if s.state = .awaitPause then
      unreadCodes t =
        if s.params.minPrePauseUs ≤ d.toNat then dropIfFull s.params.n (unreadCodes s) else unreadCodes s
    else if s.state = .decoding ∧ isPause s.params s.prePauseTime d = true
        ∧ s.params.minLength ≤ (curCode s).length then
      unreadCodes t =
        if s.params.minPrePauseUs ≤ d.toNat then dropIfFull s.params.n (unreadCodes s ++ [completedCode (curCode s)])
        else unreadCodes s ++ [completedCode (curCode s)]
    else unreadCodes t = unreadCodes s := by
  cases hs : s.state with
  | awaitPause =>
    rw [handle_awaitPause d s hs] at hrun
    rw [if_pos rfl, (startCheck_cases hrun).1]
    exact unreadCodes_afterStartCheck (base_of_inv h) d false
  | inPreamble =>
    rw [handle_inPreamble d s hs] at hrun
    rw [if_neg nofun, if_neg (by rintro ⟨⟨⟩, -⟩)]
    exact (preamble_keeps h hs hrun).2
  | calibrating =>
    rw [handle_calibrating d s hs] at hrun
    rw [if_neg nofun, if_neg (by rintro ⟨⟨⟩, -⟩)]
    exact (calibrate_keeps h hs hrun).2
  | decoding =>
    rw [handle_decoding d s hs] at hrun
    have hqueue := (decodeDuration_keeps h hs hrun).2
    rw [if_neg nofun]
    split at hqueue
    case isTrue hcomplete =>
      rw [if_pos ⟨rfl, hcomplete⟩]
      exact hqueue
    case isFalse hcomplete =>
      rw [if_neg fun hdec => hcomplete hdec.2]
      exact hqueue

/-- Settles O33: the handler runs on the state with the new time stamp, which no queue reads. -/
theorem edgeEffectOnQueue : Obligations.EdgeEffectOnQueue := by
  intro s t ts h hrun
  rw [exec_edge] at hrun
  exact handle_queue (s := { s with lastEdgeTime := ts }) (h.withLastEdgeTime ts) hrun

/-- Settles O27: the ratio of the estimates is part of the invariant, which EDGE keeps. -/
theorem bitTimingRatioHolds : Obligations.BitTimingRatioHolds := by
  intro s t ts h hrun hstate hone
  have hmessage : MessageForm t := (exec_edge_keeps h hrun).message (by rcases hstate with hs | hs <;> simp [hs])
  exact hmessage.ratio hone

end Sys2Proof.Machine

/-! The other operations, the sequencer and the whole step on the block's invariant (R29, R66, R175, R185). -/

namespace Sys2Proof.Machine

/-! ### The ring's operations -/

/-- A state with the receiver's registers and the Code in progress of one in the invariant. -/
theorem BlockInv.of_sameReceiver {s t : State} (h : BlockInv s) (hbase : Base t) (hsame : SameReceiver s t)
    (hcur : curCode t = curCode s) (hfree : s.state ≠ .awaitPause → unreadAt t t.writeIndex = false) :
    BlockInv t := by
  obtain ⟨-, -, hzero, hone, -, -, hstate, -⟩ := hsame.registers
  refine ⟨hbase.config, hbase.slots, hbase.ring, fun hs => ?message, ?phase, hbase.send⟩
  case message =>
    rw [hstate] at hs
    have hmessage : MessageForm s := h.message hs
    refine message_of_codeForm (hfree hs) ?_ ?_
    · rw [hzero, hone, hcur]
      exact codeForm_of_message hmessage
    · rw [hzero, hone, hsame.params]
      exact hmessage.ratio
  case phase =>
    simp only [PhaseForm, hstate, hzero, hone, hcur, hsame.params]
    exact h.phase

/-- PUSH keeps the invariant: CLAIM and COMMIT each write one slot with a Code that fits. -/
theorem execPush_keeps {c : Code} {s t : State} (h : BlockInv s) (hc : c.fits s.params = true)
    (hrun : execPush c s = .next t) : BlockInv t := by
  have hbase := base_of_inv h
  have hring := (hbase.holds.after_push hbase.length_slots hrun).1
  have hstate : t.state = .awaitPause := by
    rw [(execPush_sameReceiver hrun).state]
    by_contra hs
    rw [execPush, if_neg hs] at hrun
    cases hrun
  obtain ⟨u, hclaim, rfl⟩ := execPush_cases hrun
  obtain ⟨-, rfl⟩ := claim_cases hclaim
  have hread := hring.read
  refine Base.blockInv_of_awaitPause ⟨h.config, ?_, hring.form, h.send⟩ hstate
  refine slotForm_of_set h.slots rfl (by rw [List.set_set]) ((Code.fits_iff _ _).1 hc) (fun _ => rfl) hread
    (Nat.mod_lt _ ?_)
  exact Nat.lt_of_le_of_lt (Nat.zero_le _) hread

/-- What a slot's flag cleared leaves of the other slots' flags, and of every Code. -/
theorem unreadAt_clear {s t : State} {i : Nat}
    (h : t.slots = s.slots.set i { code := codeAt s i, unread := false }) (j : Nat)
    (hj : unreadAt s j = false) : unreadAt t j = false := by
  rw [unreadAt_congr t { s with slots := s.slots.set i { code := codeAt s i, unread := false } } j h, unreadAt_set]
  split
  · rfl
  · exact hj

theorem codeAt_clear {s t : State} {i : Nat}
    (h : t.slots = s.slots.set i { code := codeAt s i, unread := false }) (j : Nat) : codeAt t j = codeAt s j := by
  rw [codeAt_congr t { s with slots := s.slots.set i { code := codeAt s i, unread := false } } j h, codeAt_set]
  split
  case isTrue heq => rw [heq.1]
  case isFalse => rfl

/-- POP keeps the invariant: it clears one flag, and no Code changes. -/
theorem execPop_keeps {s t : State} (h : BlockInv s) (hrun : execPop s = .next t) : BlockInv t := by
  have hsame := execPop_sameReceiver hrun
  have hbase := base_of_inv h
  have hholds := hbase.holds
  obtain ⟨-, ⟨hunread, ht⟩ | ⟨-, rfl⟩⟩ := execPop_cases hrun
  case inl =>
    have hslots : t.slots = s.slots.set s.readIndex { code := codeAt s s.readIndex, unread := false } := ht ▸ rfl
    have hwrite : t.writeIndex = s.writeIndex := ht ▸ rfl
    obtain ⟨k, hk⟩ : ∃ k, unreadCount s = k + 1 := by
      refine Nat.exists_eq_succ_of_ne_zero (Nat.ne_of_gt ?_)
      rwa [hholds.read_unread, decide_eq_true_iff] at hunread
    rw [hk] at hholds
    obtain ⟨hring, -⟩ := hholds.pop (t := t) { code := codeAt s s.readIndex, unread := false } rfl
      hbase.length_slots hsame.params hwrite (ht ▸ rfl) hslots
    have hform : SlotForm t := slotForm_of_set h.slots hsame.params hslots (codeAt_fits s _ hbase.slots_wf) nofun
      (hsame.params ▸ hring.read) (hwrite ▸ hbase.writeIndex_lt)
    refine h.of_sameReceiver ⟨hsame.params ▸ h.config, hform, hring.form, ht ▸ h.send⟩ hsame ?_ fun hs => ?_
    · rw [curCode, hwrite, codeAt_clear hslots, curCode]
    · rw [hwrite]
      exact unreadAt_clear hslots _ (h.write_free hs)
  case inr => exact ⟨h.config, h.slots, h.ring, h.message, h.phase, h.send⟩

/-! ### The foreground's other operations -/

/-- TRANSMIT starts at the first of at least two segments, and the last one is low. -/
theorem execTransmit_sendForm {c : Code} {s t : State} (hrun : execTransmit c s = .next t) : SendForm t := by
  obtain ⟨-, rfl⟩ := execTransmit_cases hrun
  refine ⟨fun _ => ⟨Nat.succ_pos _, ?_, fun hstart => absurd rfl hstart⟩, nofun⟩
  rw [schedule_getLast?]
  rfl

/-- The operations of the foreground keep the transmitter's form: but for TRANSMIT they leave the sequencer alone. -/
theorem exec_foreground_sendForm {i : Instr} {s t : State} (hi : contextOf i = .foreground) (h : SendForm s)
    (hrun : exec i s = .next t) : SendForm t := by
  cases i with
  | edge | push => cases hi
  | transmit c => exact execTransmit_sendForm hrun
  | pop =>
    obtain ⟨-, ⟨-, rfl⟩ | ⟨-, rfl⟩⟩ := execPop_cases hrun
    · exact h
    · exact h
  | finalize | preset =>
    obtain ⟨-, hrun⟩ := whenIdle_cases _ _ _ hrun
    split at hrun <;> cases hrun
    all_goals exact h
  | decodeV1a | decodeV2a | cfgSet | cfgGet =>
    obtain ⟨-, hrun⟩ := whenIdle_cases _ _ _ hrun
    cases hrun
    exact h

/-- A foreground operation other than POP keeps the invariant: it leaves the receiver and the ring alone. -/
theorem exec_foreground_keeps {i : Instr} {s t : State} (h : BlockInv s) (hrun : exec i s = .next t)
    (hi : contextOf i = .foreground) (hpop : i ≠ .pop) : BlockInv t := by
  have hsame := exec_sameReceiver (ne_edge_of_foreground hi) hrun
  obtain ⟨hslots, hread, hwrite⟩ := exec_foreground_sameRing hi hpop hrun
  obtain ⟨hbase, hcur, hunread, -⟩ := base_of_slots (base_of_inv h) hsame.params hread hwrite hslots
    (exec_foreground_sendForm hi h.send hrun)
  exact h.of_sameReceiver hbase hsame hcur fun hs => hunread.trans (h.write_free hs)

/-- Every operation on an operand that fits keeps the invariant. -/
theorem exec_keeps {i : Instr} {s t : State} (h : BlockInv s) (hi : i.wellFormed s.params = true)
    (hrun : exec i s = .next t) : BlockInv t := by
  cases i with
  | edge ts => exact exec_edge_keeps h hrun
  | push c => exact execPush_keeps h hi hrun
  | pop => exact execPop_keeps h hrun
  | finalize | decodeV1a | decodeV2a | transmit | cfgSet | cfgGet | preset =>
    exact exec_foreground_keeps h hrun rfl nofun

/-! ### The agents -/

/-- The sequencer writes nothing that the rest of the invariant reads. -/
theorem BlockInv.endSegment {s : State} {seg : Segment} (h : BlockInv s) (hbusy : s.txBusy = true)
    (hseg : s.txSchedule[s.txPhase]? = some seg) : BlockInv (endSegment seg s) :=
  ⟨h.config, h.slots, h.ring, h.message, h.phase, endSegment_keeps h.send hbusy hseg⟩

theorem BlockInv.holdSegment {s : State} {seg : Segment} (start : Time) (h : BlockInv s) (hbusy : s.txBusy = true)
    (hseg : s.txSchedule[s.txPhase]? = some seg) : BlockInv (holdSegment seg start s) :=
  ⟨h.config, h.slots, h.ring, h.message, h.phase, holdSegment_keeps h.send hbusy hseg⟩

theorem txClock_keeps {now : Time} {s t : State} (h : BlockInv s) (hbusy : s.txBusy = true)
    (hrun : txClock now s = .next t) : BlockInv t := by
  obtain ⟨seg, hseg, ⟨-, rfl⟩ | ⟨-, rfl⟩⟩ := txClock_cases hrun
  · exact h.endSegment hbusy hseg
  · exact h.holdSegment _ hbusy hseg

theorem txIdleStep_keeps {s t : State} (h : BlockInv s) (hbusy : s.txBusy = true)
    (hrun : txIdleStep s = .next t) : BlockInv t := by
  obtain ⟨-, rfl⟩ | ⟨-, seg, hseg, rfl⟩ := txIdleStep_cases hrun
  · exact h
  · exact h.endSegment hbusy hseg

/-- Every input keeps the invariant. -/
theorem runInput_keeps {x : Input} {s t : State} (h : BlockInv s) (hrun : runInput x s = .next t) : BlockInv t := by
  cases x with
  | request r =>
    obtain ⟨rfl, -⟩ | ⟨i, -, -, hi, hexec⟩ := runRequest_cases hrun
    · exact h
    · exact exec_keeps h hi hexec
  | clock now =>
    rw [runInput] at hrun
    split at hrun
    case isTrue hbusy => exact txClock_keeps h hbusy hrun
    case isFalse =>
      cases hrun
      exact h
  | reset =>
    cases hrun
    exact (resetWith_blockInv h.config).withInputs s.inputs

/-- Settles O10: a step is an input's, the sequencer's, or none. -/
theorem everyStepKeepsInvariant : Obligations.EveryStepKeepsInvariant := by
  intro s t h hstep
  obtain ⟨-, ⟨x, rest, -, hrun⟩ | ⟨-, ⟨hbusy, hsend⟩ | ⟨-, rfl⟩⟩⟩ := step_cases hstep
  · exact runInput_keeps (h.withInputs rest) hrun
  · exact txIdleStep_keeps h hbusy hsend
  · exact h

end Sys2Proof.Machine

/-! Learning the bit times (R106, R108): its branches one by one, and the role swap. -/

namespace Sys2Proof.Machine

theorem learn_of_unknown {d : Time} {s : State} (hzero : s.zeroTime = 0#32) :
    learn d s = some (false, { s with zeroTime := d }) := by
  rw [learn, if_pos hzero]

theorem learn_of_one {d : Time} {s : State} (hzero : s.zeroTime ≠ 0#32)
    (h : scale s.params s.zeroTime s.params.minRelativeDuration ≤ d.toNat) :
    learn d s = some (true, { s with oneTime := if s.oneTime = 0#32 then d else movingAverage s.oneTime d }) := by
  rw [learn, if_neg hzero, if_pos ((looksLikeOne_iff _ _ _).2 h)]

/-- Below the one range the fourth branch is left where the duration is no zero to `zeroTime` either (R106). -/
theorem learn_of_not_one {d : Time} {s : State} (hzero : s.zeroTime ≠ 0#32)
    (h : d.toNat < scale s.params s.zeroTime s.params.minRelativeDuration) :
    learn d s =
      if scale s.params d s.params.minRelativeDuration ≤ s.zeroTime.toNat then
        if s.oneTime = 0#32 then some (false, { swapRoles s with zeroTime := d }) else none
      else some (false, { s with zeroTime := movingAverage s.zeroTime d }) := by
  have hone : ¬ looksLikeOne s.params d s.zeroTime = true := by
    rw [looksLikeOne_iff]
    exact Nat.not_le.2 h
  rw [learn, if_neg hzero, if_neg hone]
  exact if_congr (looksLikeOne_iff _ _ _) rfl rfl

/-- Settles O18: the branches in their order; a moving average is exact. -/
theorem learningBranches : Obligations.LearningBranches := by
  intro d s
  refine ⟨learn_of_unknown, fun hzero h => ⟨_, ?_, learn_of_one hzero h⟩, fun hzero h hswap => ?_,
    fun hzero h hnear => ⟨_, movingAverage_toNat s.zeroTime d, ?_⟩⟩
  · rw [apply_ite BitVec.toNat, movingAverage_toNat]
  · rw [learn_of_not_one hzero h, if_pos hswap]
    exact ⟨fun hone => if_neg hone, fun hone => if_pos hone⟩
  · rw [learn_of_not_one hzero h, if_neg (Nat.not_le.2 hnear)]

/-- Settles O19: the swap writes one Code, an estimate and the sample extremes. -/
theorem swapInvertsAndExchanges : Obligations.SwapInvertsAndExchanges := fun s hw => swapRoles_of_lt s hw

end Sys2Proof.Machine

/-! What an EDGE answers in AWAIT_PAUSE, CALIBRATING and DECODING (R103, R106 to R114). -/

namespace Sys2Proof.Machine

/-- In CALIBRATING an EDGE is CALIBRATE, in DECODING it is DECODE (R101). -/
theorem exec_edge_of_calibrating {s : State} (h : s.state = .calibrating) (ts : Time) :
    exec (.edge ts) s = calibrate (edgeDuration s.lastEdgeTime ts) { s with lastEdgeTime := ts } := by
  rw [exec_edge]
  exact handle_calibrating _ _ h

theorem exec_edge_of_decoding {s : State} (h : s.state = .decoding) (ts : Time) :
    exec (.edge ts) s = decodeDuration (edgeDuration s.lastEdgeTime ts) { s with lastEdgeTime := ts } := by
  rw [exec_edge]
  exact handle_decoding _ _ h

/-- Settles O16: the message-start check, on a duration that passes it. -/
theorem pauseStartsMessage : Obligations.PauseStartsMessage := by
  intro s ts hstate hw hlong
  rw [exec_edge_of_awaitPause hstate, startCheck_of_lt _ _ { s with lastEdgeTime := ts } hw,
    afterStartCheck_of_long (s := { s with lastEdgeTime := ts }) false hlong]

/-- An answer that is chosen by a test is chosen among equations by it. -/
theorem next_ite_iff {a : Answer} {c : Prop} [Decidable c] {t u : State} :
    (a = .next (if c then t else u)) ↔ if c then a = .next t else a = .next u := by
  split <;> rfl

/-- Settles O21: CALIBRATE's answer, its tests turned into the rules' comparisons. -/
theorem edgeCalibrates : Obligations.EdgeCalibrates := by
  intro s ts hstate hw hroom
  have hrun := (exec_edge_of_calibrating hstate ts).trans
    (calibrate_of_lt (edgeDuration s.lastEdgeTime ts) { s with lastEdgeTime := ts } hw hroom)
  cases hlearn : learn (edgeDuration s.lastEdgeTime ts) { s with lastEdgeTime := ts } with
  | none =>
    rw [hlearn] at hrun
    exact hrun
  | some x =>
    obtain ⟨b, u⟩ := x
    obtain ⟨hparams, -, -, -, -, -, hwrite, -, -, -, -, -, -, -, -, hslots, -, hlen⟩ := learn_frame _ _ _ _ hlearn
    have hw' : u.writeIndex < u.slots.length := by rw [hwrite, hslots]; exact hw
    have hlength := length_curCode_sampled b (edgeDuration s.lastEdgeTime ts) hw'
    rw [hlen] at hlength
    simp only [hlearn, next_ite_iff, ratioBroken_iff, converged_iff, hlength, sampled_params, hparams] at hrun
    simp only [sampled_params, hparams]
    exact hrun

/-- Settles O22: DECODE's answer by the class of the duration, the pause range first, then the zero range. -/
theorem edgeDecodes : Obligations.EdgeDecodes := by
  intro s ts hwf hstate hw hnext p d u
  obtain ⟨-, -, -, -, -, -, -, -, hbuf⟩ := wellFormed_facts _ hwf
  have hrun := (exec_edge_of_decoding hstate ts).trans
    (decodeDuration_of_lt d u hw hnext ((Nat.le_add_right _ 3).trans hbuf))
  simp only [next_ite_iff, isPause_iff] at hrun
  by_cases hzero : isZero p s.zeroTime d = true
  · have hbit : dataBit d u = some false := if_pos hzero
    simp only [hbit, next_ite_iff] at hrun
    rw [if_pos ((isZero_iff _ _ _).1 hzero)]
    exact hrun
  · rw [if_neg (mt (isZero_iff _ _ _).2 hzero)]
    by_cases hone : isOne p s.oneTime d = true
    · have hbit : dataBit d u = some true := (if_neg hzero).trans (if_pos hone)
      simp only [hbit, next_ite_iff] at hrun
      rw [if_pos ((isOne_iff _ _ _).1 hone)]
      exact hrun
    · have hbit : dataBit d u = none := (if_neg hzero).trans (if_neg hone)
      rw [hbit] at hrun
      rw [if_neg (mt (isOne_iff _ _ _).2 hone)]
      exact hrun

/-! ### The standalone flag of a started message (R104, R204) -/

/-- A message that the message-start check starts keeps whether its pause is shared. -/
theorem startCheck_standalone {d : Time} {shared : Bool} {s t : State} (h : startCheck d shared s = .next t)
    (ht : t.state = .inPreamble) : (curCode t).prePauseStandalone = !shared := by
  obtain ⟨rfl, hslot⟩ := startCheck_cases h
  by_cases hd : s.params.minPrePauseUs ≤ d.toNat
  · rw [afterStartCheck_of_long shared hd, curCode_startedMessage d shared s (hslot hd)]
  · rw [afterStartCheck_of_short shared (Nat.lt_of_not_le hd)] at ht
    cases ht

theorem abort_standalone {cause : AbortCause} {d : Time} {s t : State} (h : abort cause d s = .next t)
    (ht : t.state = .inPreamble) : (curCode t).prePauseStandalone = !decide (cause = .decTooShort) :=
  startCheck_standalone h ht

theorem complete_standalone {d : Time} {s t : State} (h : complete d s = .next t) (ht : t.state = .inPreamble) :
    (curCode t).prePauseStandalone = false := by
  obtain ⟨u, -, hcheck⟩ := andThen_cases _ _ _ h
  exact startCheck_standalone hcheck ht

theorem converge_standalone {d : Time} {s t : State} (hs : s.state = .calibrating) (h : converge d s = .next t)
    (ht : t.state = .inPreamble) : (curCode t).prePauseStandalone = true := by
  obtain ⟨-, h⟩ := withCur_cases h
  split at h
  · cases h
    cases ht
  · split at h
    · exact abort_standalone h ht
    · cases h
      simp [hs] at ht

/-- A message that CALIBRATING starts has its pre-pause to itself. -/
theorem calibrate_standalone {d : Time} {s t : State} (hs : s.state = .calibrating) (h : calibrate d s = .next t)
    (ht : t.state = .inPreamble) : (curCode t).prePauseStandalone = true := by
  obtain ⟨-, h⟩ := withCur_cases h
  split at h
  · exact abort_standalone h ht
  · rename_i b u hlearn
    split at h
    · exact abort_standalone h ht
    · obtain ⟨v, happend, hconverge⟩ := andThen_cases _ _ _ h
      obtain ⟨-, -, rfl⟩ := append_cases happend
      obtain ⟨-, -, -, hstate, -⟩ := learn_frame d s u b hlearn
      exact converge_standalone (s := sampled b d u) (hstate.trans hs) hconverge ht

/-- A message that DECODING starts shares its pre-pause exactly where that closed the message before. -/
theorem decodeDuration_standalone {d : Time} {s t : State} (hs : s.state = .decoding)
    (h : decodeDuration d s = .next t) (ht : t.state = .inPreamble) :
    (curCode t).prePauseStandalone = !isPause s.params s.prePauseTime d := by
  obtain ⟨-, h⟩ := withCur_cases h
  split at h
  case isTrue hpause =>
    rw [hpause]
    split at h
    · exact complete_standalone h ht
    · exact abort_standalone h ht
  case isFalse hpause =>
    rw [Bool.eq_false_of_not_eq_true hpause]
    split at h
    · exact abort_standalone h ht
    · split at h
      · exact abort_standalone h ht
      · obtain ⟨-, -, rfl⟩ := append_cases h
        simp [hs] at ht

/-- Settles O23: by the state of the assembler in which the EDGE falls. -/
theorem standaloneFlagMeaning : Obligations.StandaloneFlagMeaning := by
  intro s t ts hrun hs ht
  cases hstate : s.state with
  | awaitPause =>
    rw [exec_edge_of_awaitPause hstate] at hrun
    simp [startCheck_standalone hrun ht]
  | inPreamble => exact absurd hstate hs
  | calibrating =>
    rw [exec_edge_of_calibrating hstate] at hrun
    simp [calibrate_standalone (s := { s with lastEdgeTime := ts }) hstate hrun ht]
  | decoding =>
    rw [exec_edge_of_decoding hstate] at hrun
    simp [decodeDuration_standalone (s := { s with lastEdgeTime := ts }) hstate hrun ht]

end Sys2Proof.Machine

/-! The swap invariant (R119): calibration on samples of two exact lengths stores a 1 for every long one and a 0 for
every short one, whichever comes first. -/

namespace Sys2Proof.Machine

/-! ### Two lengths that the ratio tells apart -/

/-- A time that is no one relative to itself: no longer one is (R93, R96). -/
theorem lt_scale_of_le {p : Params} {x y : Time} {num : Nat} (hdiv : 0 < p.divisor) (hnum : p.divisor ≤ num)
    (hx : x.toNat < scale p x num) (hxy : x.toNat ≤ y.toNat) : y.toNat < scale p y num := by
  rw [scale, ← Nat.succ_le_iff, Nat.le_div_iff_mul_le hdiv] at hx ⊢
  obtain ⟨e, rfl⟩ := Nat.exists_eq_add_of_le hnum
  have he : x.toNat * e ≤ y.toNat * e := Nat.mul_le_mul_right e hxy
  rw [Nat.succ_mul, Nat.mul_add] at hx ⊢
  omega

/-- The premises of R119 on the two lengths. -/
structure TwoLengths (p : Params) (short long : Time) : Prop where
  wellFormed : p.wellFormed = true
  short_lt : short.toNat < scale p short p.minRelativeDuration
  le_long : scale p short p.minRelativeDuration ≤ long.toNat

namespace TwoLengths

variable {p : Params} {short long : Time}

theorem lt (h : TwoLengths p short long) : short.toNat < long.toNat := Nat.lt_of_lt_of_le h.short_lt h.le_long

theorem long_lt (h : TwoLengths p short long) : long.toNat < scale p long p.minRelativeDuration := by
  obtain ⟨hdiv, hratio, -⟩ := wellFormed_facts p h.wellFormed
  exact lt_scale_of_le hdiv hratio.le h.short_lt h.lt.le

theorem ne (h : TwoLengths p short long) : short ≠ long := by
  rintro rfl
  exact Nat.lt_irrefl _ h.lt

theorem short_ne_zero (h : TwoLengths p short long) : short ≠ 0#32 := by
  rintro rfl
  simpa [scale] using h.short_lt

theorem long_ne_zero (h : TwoLengths p short long) : long ≠ 0#32 := by
  rintro rfl
  simpa using h.lt

end TwoLengths

/-! ### What has been learned -/

/-- What is learned, as `zeroTime`, `oneTime` and the stored bits, from the samples `done`, each of one of two lengths:
nothing; a 0 for every sample while all are long; and as R119 has it once there was a short one. -/
inductive LearnedFrom (short long : Time) (done : List Time) (zero one : Time) (bits : List Bool) : Prop
  | nothing (hdone : done = []) (hzero : zero = 0#32) (hone : one = 0#32) (hbits : bits = [])
  | onlyLong (hdone : ∀ d ∈ done, d = long) (hzero : zero = long) (hone : one = 0#32)
      (hbits : bits = done.map fun _ => false)
  | shortSeen (hdone : short ∈ done) (hzero : zero = short) (hone : one = 0#32 ∨ one = long)
      (hbits : bits = done.map fun d => decide (d = long))

/-- One bit is stored for every sample. -/
theorem LearnedFrom.length_bits {short long zero one : Time} {done : List Time} {bits : List Bool}
    (h : LearnedFrom short long done zero one bits) : bits.length = done.length := by
  cases h with
  | nothing hdone _ _ hbits => rw [hdone, hbits]; rfl
  | onlyLong _ _ _ hbits => rw [hbits, List.length_map]
  | shortSeen _ _ _ hbits => rw [hbits, List.length_map]

/-- Once there was a short sample the bits are as R119 has them. -/
theorem LearnedFrom.bits_of_short_mem {short long zero one : Time} {done : List Time} {bits : List Bool}
    (h : LearnedFrom short long done zero one bits) (hne : short ≠ long) (hmem : short ∈ done) :
    bits = done.map fun d => decide (d = long) := by
  cases h with
  | nothing hdone => simp [hdone] at hmem
  | onlyLong hdone => exact absurd (hdone short hmem) hne
  | shortSeen _ _ _ hbits => exact hbits

theorem movingAverage_self (x : Time) : movingAverage x x = x := by
  apply BitVec.eq_of_toNat_eq
  rw [movingAverage_toNat]
  omega

theorem bits_sampled (b : Bool) (d : Time) {s : State} (hw : s.writeIndex < s.slots.length) :
    (curCode (sampled b d s)).bits = (curCode s).bits ++ [b] := by
  rw [curCode_sampled b d s hw]
  rfl

theorem bits_swapRoles {s : State} (hw : s.writeIndex < s.slots.length) :
    (curCode (swapRoles s)).bits = (curCode s).bits.map fun b => !b := by
  rw [swapRoles_of_lt s hw]
  exact congrArg Code.bits (curCode_withCurCode s _ hw)

/-- No ratio is broken by what is learned from the two lengths (R107). -/
theorem LearnedFrom.not_ratioBroken {short long : Time} {done : List Time} {s : State} {bits : List Bool}
    (h : LearnedFrom short long done s.zeroTime s.oneTime bits) (htwo : TwoLengths s.params short long) :
    ¬ ratioBroken s = true := by
  rw [ratioBroken_iff]
  rintro ⟨hne, hlt⟩
  cases h with
  | nothing _ _ hone => exact hne hone
  | onlyLong _ _ hone => exact hne hone
  | shortSeen _ hzero hone =>
    rw [hzero, hone.resolve_left hne] at hlt
    exact Nat.not_le.2 hlt htwo.le_long

/-! ### One sample more -/

section OneSample

variable {short long : Time} {done : List Time} {s : State}

/-- The first sample is taken for a 0. -/
theorem learn_first {d : Time} (htwo : TwoLengths s.params short long) (hd : d = short ∨ d = long)
    (hzero : s.zeroTime = 0#32) (hone : s.oneTime = 0#32) (hbits : (curCode s).bits = []) :
    ∃ b u, learn d s = some (b, u)
      ∧ LearnedFrom short long [d] u.zeroTime u.oneTime ((curCode u).bits ++ [b]) := by
  have hne := htwo.ne
  have hstored : (curCode { s with zeroTime := d }).bits ++ [false] = [false] := congrArg (· ++ [false]) hbits
  refine ⟨false, { s with zeroTime := d }, learn_of_unknown hzero, ?_⟩
  rw [hstored]
  obtain rfl | rfl := hd
  · exact .shortSeen (by simp) rfl (.inl hone) (by simp [hne])
  · exact .onlyLong (by simp) rfl hone rfl

/-- Another long sample while there is no short one is a 0 again. -/
theorem learn_long_of_onlyLong (htwo : TwoLengths s.params short long) (hdone : ∀ d ∈ done, d = long)
    (hzero : s.zeroTime = long) (hone : s.oneTime = 0#32) (hbits : (curCode s).bits = done.map fun _ => false) :
    ∃ b u, learn long s = some (b, u)
      ∧ LearnedFrom short long (done ++ [long]) u.zeroTime u.oneTime ((curCode u).bits ++ [b]) := by
  have hlearn : learn long s = some (false, { s with zeroTime := movingAverage s.zeroTime long }) := by
    rw [learn_of_not_one (hzero ▸ htwo.long_ne_zero) (hzero.symm ▸ htwo.long_lt),
      if_neg (Nat.not_le.2 (hzero.symm ▸ htwo.long_lt))]
  refine ⟨_, _, hlearn, .onlyLong ?_ ?_ hone ?_⟩
  · simpa [or_imp, forall_and] using hdone
  · exact (congrArg (movingAverage · long) hzero).trans (movingAverage_self long)
  · show (curCode s).bits ++ [false] = _
    simp [hbits]

/-- The first short sample after long ones swaps the roles: every bit stored becomes 1 (R108). -/
theorem learn_short_of_onlyLong (htwo : TwoLengths s.params short long) (hw : s.writeIndex < s.slots.length)
    (hdone : ∀ d ∈ done, d = long) (hzero : s.zeroTime = long) (hone : s.oneTime = 0#32)
    (hbits : (curCode s).bits = done.map fun _ => false) :
    ∃ b u, learn short s = some (b, u)
      ∧ LearnedFrom short long (done ++ [short]) u.zeroTime u.oneTime ((curCode u).bits ++ [b]) := by
  have hlearn : learn short s = some (false, { swapRoles s with zeroTime := short }) := by
    rw [learn_of_not_one (hzero ▸ htwo.long_ne_zero) (hzero.symm ▸ htwo.lt.trans htwo.long_lt),
      if_pos (hzero.symm ▸ htwo.le_long), if_pos hone]
  have hinverted : (curCode { swapRoles s with zeroTime := short }).bits = done.map fun d => decide (d = long) := by
    refine (bits_swapRoles hw).trans ?_
    rw [hbits, List.map_map]
    exact List.map_congr_left fun d hd => by simp [hdone d hd]
  refine ⟨_, _, hlearn, .shortSeen (by simp) rfl (.inr hzero) ?_⟩
  rw [hinverted, List.map_append]
  simp [htwo.ne]

/-- Once there was a short sample a long one is a 1. -/
theorem learn_long_of_shortSeen (htwo : TwoLengths s.params short long) (hdone : short ∈ done)
    (hzero : s.zeroTime = short) (hone : s.oneTime = 0#32 ∨ s.oneTime = long)
    (hbits : (curCode s).bits = done.map fun d => decide (d = long)) :
    ∃ b u, learn long s = some (b, u)
      ∧ LearnedFrom short long (done ++ [long]) u.zeroTime u.oneTime ((curCode u).bits ++ [b]) := by
  refine ⟨_, _, learn_of_one (hzero ▸ htwo.short_ne_zero) (hzero.symm ▸ htwo.le_long),
    .shortSeen (by simp [hdone]) hzero (.inr ?_) ?_⟩
  · obtain hone | hone := hone
    · exact if_pos hone
    · refine (if_neg (hone ▸ htwo.long_ne_zero)).trans ?_
      rw [hone, movingAverage_self]
  · show (curCode s).bits ++ [true] = _
    simp [hbits]

/-- Once there was a short sample a short one is a 0. -/
theorem learn_short_of_shortSeen (htwo : TwoLengths s.params short long)
    (hzero : s.zeroTime = short) (hone : s.oneTime = 0#32 ∨ s.oneTime = long)
    (hbits : (curCode s).bits = done.map fun d => decide (d = long)) :
    ∃ b u, learn short s = some (b, u)
      ∧ LearnedFrom short long (done ++ [short]) u.zeroTime u.oneTime ((curCode u).bits ++ [b]) := by
  have hlearn : learn short s = some (false, { s with zeroTime := movingAverage s.zeroTime short }) := by
    rw [learn_of_not_one (hzero ▸ htwo.short_ne_zero) (hzero.symm ▸ htwo.short_lt),
      if_neg (Nat.not_le.2 (hzero.symm ▸ htwo.short_lt))]
  refine ⟨_, _, hlearn, .shortSeen (by simp) ?_ hone ?_⟩
  · exact (congrArg (movingAverage · short) hzero).trans (movingAverage_self short)
  · show (curCode s).bits ++ [false] = _
    simp [hbits, htwo.ne]

/-- A sample of either length is learned, whatever was learned before. -/
theorem learn_of_learned {d : Time} (htwo : TwoLengths s.params short long) (hw : s.writeIndex < s.slots.length)
    (h : LearnedFrom short long done s.zeroTime s.oneTime (curCode s).bits) (hd : d = short ∨ d = long) :
    ∃ b u, learn d s = some (b, u)
      ∧ LearnedFrom short long (done ++ [d]) u.zeroTime u.oneTime ((curCode u).bits ++ [b]) := by
  cases h with
  | nothing hdone hzero hone hbits =>
    subst hdone
    exact learn_first htwo hd hzero hone hbits
  | onlyLong hdone hzero hone hbits =>
    obtain rfl | rfl := hd
    · exact learn_short_of_onlyLong htwo hw hdone hzero hone hbits
    · exact learn_long_of_onlyLong htwo hdone hzero hone hbits
  | shortSeen hdone hzero hone hbits =>
    obtain rfl | rfl := hd
    · exact learn_short_of_shortSeen htwo hzero hone hbits
    · exact learn_long_of_shortSeen htwo hdone hzero hone hbits

end OneSample

/-! ### A run of samples -/

/-- A message is being calibrated or decoded. -/
def InData (s : State) : Prop := s.state = .calibrating ∨ s.state = .decoding

theorem afterStartCheck_not_inData (d : Time) (shared : Bool) (s : State) : ¬ InData (afterStartCheck d shared s) := by
  rcases Nat.lt_or_ge d.toNat s.params.minPrePauseUs with hshort | hlong
  · rw [afterStartCheck_of_short shared hshort]
    rintro (⟨⟨⟩⟩ | ⟨⟨⟩⟩)
  · rw [afterStartCheck_of_long shared hlong]
    rintro (⟨⟨⟩⟩ | ⟨⟨⟩⟩)

/-- CONVERGE ends the calibration, by DECODING or by an abort, with MIN_SAMPLES bits at least. -/
theorem converge_ends {d : Time} {s t : State} (hwf : s.params.wellFormed = true) (h : converge d s = .next t) :
    t = s ∨ (s.params.minSamples ≤ (curCode s).length ∧ (t = { s with state := .decoding } ∨ ¬ InData t)) := by
  obtain ⟨-, -, -, -, hmin, -⟩ := wellFormed_facts _ hwf
  obtain ⟨hw, -⟩ := withCur_cases h
  rw [converge_of_lt d s hw] at h
  cases h
  split
  case isTrue hconverged => exact .inr ⟨((converged_iff _ _).1 hconverged).1, .inl rfl⟩
  case isFalse =>
    split
    case isTrue hfull => exact .inr ⟨hmin.trans hfull, .inr (afterStartCheck_not_inData d false s)⟩
    case isFalse => exact .inl rfl

/-- CALIBRATING on one sample more: it is learned, and the calibration goes on unless MIN_SAMPLES bits are stored. -/
theorem calibrate_learned {short long d : Time} {done : List Time} {s t : State}
    (htwo : TwoLengths s.params short long) (hs : s.state = .calibrating)
    (h : LearnedFrom short long done s.zeroTime s.oneTime (curCode s).bits) (hd : d = short ∨ d = long)
    (hrun : calibrate d s = .next t) :
    (InData t → LearnedFrom short long (done ++ [d]) t.zeroTime t.oneTime (curCode t).bits)
      ∧ (t.state = .calibrating ∨ s.params.minSamples ≤ done.length + 1) := by
  obtain ⟨hw, hrun⟩ := withCur_cases hrun
  obtain ⟨b, u, hlearn, hlearned⟩ := learn_of_learned htwo hw h hd
  obtain ⟨hparams, -, -, hstate, -⟩ := learn_frame d s u b hlearn
  simp only [hlearn, if_neg (hlearned.not_ratioBroken (hparams.symm ▸ htwo))] at hrun
  obtain ⟨v, happend, hconverge⟩ := andThen_cases _ _ _ hrun
  obtain ⟨hwu, -, rfl⟩ := append_cases happend
  rw [← bits_sampled b d hwu] at hlearned
  have hlength := hlearned.length_bits
  rw [List.length_append, List.length_singleton] at hlength
  obtain rfl | ⟨hmin, hend⟩ := converge_ends (hparams.symm ▸ htwo.wellFormed) hconverge
  · exact ⟨fun _ => hlearned, .inl (hstate.trans hs)⟩
  · rw [sampled_params, hparams, Code.length, hlength] at hmin
    refine ⟨fun ht => ?_, .inr hmin⟩
    obtain rfl := hend.resolve_right (not_not_intro ht)
    exact hlearned

theorem edgeDuration_add (last d : Time) : edgeDuration last (last + d) = d := by
  rw [edgeDuration, BitVec.add_comm, BitVec.add_sub_cancel]

/-- A run of at most MIN_SAMPLES samples that ends in CALIBRATING or DECODING was learned as a whole. -/
theorem edgeDurations_learned {short long : Time} {ds done : List Time} {s t : State}
    (htwo : TwoLengths s.params short long) (hs : s.state = .calibrating)
    (h : LearnedFrom short long done s.zeroTime s.oneTime (curCode s).bits) (hds : ∀ d ∈ ds, d = short ∨ d = long)
    (hlen : done.length + ds.length ≤ s.params.minSamples) (hrun : edgeDurations ds s = .next t) (ht : InData t) :
    LearnedFrom short long (done ++ ds) t.zeroTime t.oneTime (curCode t).bits := by
  induction ds generalizing done s with
  | nil =>
    cases hrun
    rwa [List.append_nil]
  | cons d rest ih =>
    obtain ⟨hd, hrest⟩ := List.forall_mem_cons.1 hds
    obtain ⟨u, hedge, hrun⟩ := andThen_cases _ _ _ hrun
    have hparams := exec_edge_params hedge
    rw [exec_edge_of_calibrating hs, edgeDuration_add] at hedge
    obtain ⟨hlearned, hgoes⟩ :=
      calibrate_learned (s := { s with lastEdgeTime := s.lastEdgeTime + d }) htwo hs h hd hedge
    rw [List.length_cons] at hlen
    cases rest with
    | nil =>
      cases hrun
      exact hlearned ht
    | cons e rest =>
      have hu : u.state = .calibrating := hgoes.resolve_right fun hmin => by
        rw [List.length_cons] at hlen
        have hmin : s.params.minSamples ≤ done.length + 1 := hmin
        omega
      have hall := ih (done := done ++ [d]) (hparams.symm ▸ htwo) hu (hlearned (.inl hu)) hrest
        (by rw [hparams, List.length_append, List.length_singleton]; omega) hrun
      rwa [List.append_assoc] at hall

/-- Settles O28: from nothing learned, by induction over the samples; one of them is short. -/
theorem swapInvariant : Obligations.SwapInvariant := by
  intro s t short long ds hwf hs hzero hone hbits hshort hlong hds hmem hlen hrun ht
  have htwo : TwoLengths s.params short long := ⟨hwf, hshort, hlong⟩
  have hlearned := edgeDurations_learned htwo hs (.nothing rfl hzero hone hbits) hds
    (by rwa [List.length_nil, Nat.zero_add]) hrun ht
  exact hlearned.bits_of_short_mem htwo.ne hmem

end Sys2Proof.Machine

/-! PUSH by state (R173), and N + 1 PUSHes followed by POPs (R176). -/

namespace Sys2Proof.Machine

/-- PUSH between two messages: CLAIM, the copy and COMMIT in one (R171 to R173). -/
theorem exec_push_of_awaitPause (c : Code) {s : State} (hs : s.state = .awaitPause)
    (hw : s.writeIndex < s.slots.length) :
    exec (.push c) s = .next { s with
      slots := s.slots.set s.writeIndex { code := committed c, unread := true }
      readIndex := if unreadAt s s.writeIndex then (s.readIndex + 1) % s.params.n else s.readIndex
      writeIndex := (s.writeIndex + 1) % s.params.n } := by
  rw [exec_push, execPush, if_pos hs, claim_of_lt s hw, andThen_next,
    commit_modifyCur_of_lt c _ (by simpa using hw)]
  simp only [List.set_set]

/-- Settles O29: the committed Code is the operand with `valid` set. -/
theorem pushCommitsItsCode : Obligations.PushCommitsItsCode := fun _ c hs hw => exec_push_of_awaitPause c hs hw

/-- Settles O30: PUSH asks for AWAIT_PAUSE first. -/
theorem pushRefusedDuringMessage : Obligations.PushRefusedDuringMessage := fun s c hs => by
  rw [exec_push, execPush, if_neg hs]

/-! ### Runs of PUSHes and of POPs -/

/-- The block is between two messages with no transmission in progress, and `q` are its unread Codes. -/
structure Holds (s : State) (q : List Code) : Prop where
  inv : BlockInv s
  awaits : s.state = .awaitPause
  idle : s.txBusy = false
  queue : unreadCodes s = q

/-- A PUSH of a Code that fits completes, and acts on the queue as R173 says. -/
theorem Holds.push {s : State} {q : List Code} (h : Holds s q) {c : Code} (hc : c.fits s.params = true) :
    ∃ t, exec (.push c) s = .next t ∧ t.params = s.params
      ∧ Holds t (dropIfFull s.params.n q ++ [committed c]) := by
  have hrun := exec_push_of_awaitPause c h.awaits (base_of_inv h.inv).write_lt
  obtain ⟨-, hpush, -⟩ := ringIsDropOldestQueue s h.inv
  have hqueue := hpush c _ hc hrun
  rw [h.queue] at hqueue
  exact ⟨_, hrun, rfl, execPush_keeps h.inv hc hrun, h.awaits, h.idle, hqueue⟩

/-- While the queue has room for them, PUSHed Codes are appended in order. -/
theorem Holds.pushAll {s : State} {q cs : List Code} (h : Holds s q) (hroom : q.length + cs.length ≤ s.params.n)
    (hcs : ∀ c ∈ cs, c.fits s.params = true) :
    ∃ t, execAll (cs.map Instr.push) s = .next t ∧ t.params = s.params ∧ Holds t (q ++ cs.map committed) := by
  induction cs generalizing s q with
  | nil => exact ⟨s, rfl, rfl, by simpa using h⟩
  | cons c cs ih =>
    obtain ⟨hc, hcs⟩ := List.forall_mem_cons.1 hcs
    rw [List.length_cons] at hroom
    obtain ⟨u, hrun, hparams, hu⟩ := h.push hc
    rw [dropIfFull, if_neg (by omega)] at hu
    obtain ⟨t, hall, hparams', ht⟩ := ih hu (by rw [hparams, List.length_append, List.length_singleton]; omega)
      (by rwa [hparams])
    refine ⟨t, ?_, hparams'.trans hparams, by simpa using ht⟩
    rw [List.map_cons, execAll, hrun, andThen_next, hall]

/-- A POP answers the head of the queue and leaves its tail (R174). -/
theorem Holds.pop {s : State} {q : List Code} (h : Holds s q) :
    ∃ t, exec .pop s = .next t ∧ t.result = some (.popped q.head?) ∧ Holds t q.tail := by
  have hbase := base_of_inv h.inv
  obtain ⟨t, hrun⟩ : ∃ t, exec .pop s = .next t :=
    ⟨_, execPop_of_lt s h.idle (by rw [hbase.length_slots]; exact hbase.readIndex_lt)⟩
  obtain ⟨-, -, hpop⟩ := ringIsDropOldestQueue s h.inv
  obtain ⟨hresult, hqueue⟩ := hpop t hrun
  rw [h.queue] at hresult hqueue
  have hidle : t.txBusy = false := by
    obtain ⟨-, ⟨-, rfl⟩ | ⟨-, rfl⟩⟩ := execPop_cases hrun
    · exact h.idle
    · exact h.idle
  exact ⟨t, hrun, hresult, execPop_keeps h.inv hrun, (execPop_sameReceiver hrun).state.trans h.awaits, hidle, hqueue⟩

theorem popResults_succ {s t : State} {c : Option Code} (hrun : exec .pop s = .next t)
    (hresult : t.result = some (.popped c)) (k : Nat) :
    popResults (k + 1) s = (popResults k t).map (fun cs => c :: cs) := by
  simp only [popResults, hrun, hresult]

/-- One POP more than there are Codes answers them all in order, and then nothing. -/
theorem Holds.popResults_eq {s : State} {q : List Code} (h : Holds s q) :
    popResults (q.length + 1) s = some (q.map some ++ [none]) := by
  induction q generalizing s with
  | nil =>
    obtain ⟨t, hrun, hresult, -⟩ := h.pop
    exact popResults_succ hrun hresult 0
  | cons c q ih =>
    obtain ⟨t, hrun, hresult, ht⟩ := h.pop
    rw [List.length_cons, popResults_succ hrun hresult, ih ht]
    rfl

theorem execAll_append (is js : List Instr) (s : State) :
    execAll (is ++ js) s = andThen (execAll is s) (execAll js) := by
  induction is generalizing s with
  | nil => rfl
  | cons i is ih =>
    rw [List.cons_append, execAll, execAll, andThen_assoc]
    congr 1
    funext t
    exact ih t

/-- Settles O34: N PUSHes fill the ring, the last one drops the first Code, and the POPs empty it. -/
theorem dropOldestLaw : Obligations.DropOldestLaw := by
  intro s cs hinv hs hidle hempty hlen hfits
  obtain ⟨-, -, -, -, -, -, -, hn, -⟩ := wellFormed_facts _ hinv.config
  obtain rfl | ⟨init, last, rfl⟩ := List.eq_nil_or_concat' cs
  · cases hlen
  have hinit : init.length = s.params.n := by simpa using hlen
  obtain ⟨u, hall, hparams, hu⟩ := Holds.pushAll (cs := init) ⟨hinv, hs, hidle, hempty⟩ (by simp [hinit])
    fun c hc => hfits c (List.mem_append_left _ hc)
  obtain ⟨t, hlast, -, ht⟩ := hu.push (c := last) (by rw [hparams]; exact hfits last (by simp))
  have htail : dropIfFull u.params.n ([] ++ init.map committed) ++ [committed last] =
      (init ++ [last]).tail.map committed := by
    have hne : init ≠ [] := by
      rintro rfl
      simp only [List.length_nil] at hinit
      omega
    rw [List.nil_append, dropIfFull, if_pos (by rw [hparams, List.length_map, hinit]), List.tail_append_of_ne_nil hne]
    simp
  rw [htail] at ht
  refine ⟨t, ?_, ?_⟩
  · rw [List.map_append, execAll_append, hall, andThen_next, List.map_singleton, execAll, hlast, andThen_next, execAll]
  · have hpops := ht.popResults_eq
    rwa [List.length_map, List.length_tail, hlen, Nat.add_sub_cancel, List.map_map] at hpops

end Sys2Proof.Machine

/-! FINALIZE of a finalized Code (R131), and the averages it computes (R132). -/

namespace Sys2Proof.Machine

/-- What FINALIZE hands over is finalized (R131). -/
theorem finalized_of_finalizeCode {p : Params} {c c' : Code} (h : finalizeCode p c = some c') :
    c'.finalized = true := by
  obtain ⟨k, d, hfin⟩ := exists_finalizes p c
  obtain rfl := hfin.eq_of_finalizeCode h
  obtain ⟨hfinalized, -⟩ := hfin.frame
  exact hfinalized

/-- FINALIZE answers the delivery of the Code that `finalizeCode` hands over. -/
theorem exec_finalize_cases {c : Code} {s t : State} (h : exec (.finalize c) s = .next t) :
    s.txBusy = false ∧ ∃ c', finalizeCode s.params c = some c' ∧ t = deliver (.finalized c') s := by
  obtain ⟨hidle, h⟩ := whenIdle_cases _ _ _ h
  split at h
  case h_1 c' hcode =>
    cases h
    exact ⟨hidle, c', hcode, rfl⟩
  case h_2 => cases h

/-- Settles O36: a finalized Code is handed over as it is, and the result port already carries it. -/
theorem finalizeIsIdempotent : Obligations.FinalizeIsIdempotent := by
  intro s t c c' hrun hresult
  obtain ⟨hidle, d, hcode, rfl⟩ := exec_finalize_cases hrun
  obtain rfl : d = c' := by simpa [deliver] using hresult
  exact exec_finalize_of_some (s := deliver (.finalized d) s) hidle
    (finalizeCode_of_finalized (finalized_of_finalizeCode hcode))

theorem averageTime_zero (total : Nat) : averageTime total 0 = 0#32 := if_pos rfl

theorem averageTime_toNat {total count : Nat} (hcount : 0 < count) (hfits : total / count < 2 ^ 32) :
    (averageTime total count).toNat = total / count := by
  rw [averageTime, if_neg hcount.ne', if_pos hfits, BitVec.toNat_ofNat, Nat.mod_eq_of_lt hfits]

/-- Settles O38: the branches of `averageTime`. -/
theorem averageIsFlooredQuotient : Obligations.AverageIsFlooredQuotient := by
  refine fun total count => ⟨?_, averageTime_toNat⟩
  rintro rfl
  exact averageTime_zero total

/-- Durations of 32 bits have an average of 32 bits (R31, R132). -/
theorem averageTime_toNat_of_le {total count : Nat} (hcount : 0 < count) (htotal : total ≤ count * (2 ^ 32 - 1)) :
    (averageTime total count).toNat = total / count := by
  refine averageTime_toNat hcount ?_
  have hle : total / count ≤ 2 ^ 32 - 1 := Nat.div_le_of_le_mul htotal
  omega

/-- Settles O39: in DECODING both estimates are known, so both classes have samples, each of 32 bits. -/
theorem assembledAveragesAreExact : Obligations.AssembledAveragesAreExact := by
  intro s h hs c
  obtain ⟨-, -, -, -, htotal, hcount0, hcount1⟩ := h.message (by simp [hs])
  obtain ⟨hzero, hone, -⟩ := h.of_decoding hs
  exact ⟨hcount0 hzero, hcount1 hone, averageTime_toNat_of_le (hcount0 hzero) (htotal false),
    averageTime_toNat_of_le (hcount1 hone) (htotal true)⟩

end Sys2Proof.Machine

/-! Reading bits: the preamble classes (R95), the last-bit inference (R136), nibbles and packed bytes (R53, R56). -/

namespace Sys2Proof.Machine

/-- Settles O41: the four tests in their order. -/
theorem preambleClassBoundaries : Obligations.PreambleClassBoundaries := by
  intro p d z o a b e f
  have hshort (h : d.toNat < a) : pclass p d z o = .short := if_pos h
  have hzero (ha : a ≤ d.toNat) (hb : d.toNat ≤ b) : pclass p d z o = .zero :=
    (if_neg ha.not_gt).trans (if_pos hb)
  have hmedium (ha : a ≤ d.toNat) (hb : b < d.toNat) (he : d.toNat < e) : pclass p d z o = .medium :=
    (if_neg ha.not_gt).trans ((if_neg hb.not_ge).trans (if_pos he))
  have hone (ha : a ≤ d.toNat) (hb : b < d.toNat) (he : e ≤ d.toNat) (hf : d.toNat ≤ f) : pclass p d z o = .one :=
    (if_neg ha.not_gt).trans ((if_neg hb.not_ge).trans ((if_neg he.not_gt).trans (if_pos hf)))
  have hlong (ha : a ≤ d.toNat) (hb : b < d.toNat) (he : e ≤ d.toNat) (hf : f < d.toNat) : pclass p d z o = .long :=
    (if_neg ha.not_gt).trans ((if_neg hb.not_ge).trans ((if_neg he.not_gt).trans (if_neg hf.not_ge)))
  exact ⟨hshort, hzero, hmedium, hone, hlong⟩

/-- Group `g` of width `w` agrees with the known bits of the unfinished last group (R136). -/
def GroupAgrees (bits : List Bool) (w g : Nat) : Prop :=
  ∀ i < bits.length % w, bits[g * w + i]? = bits[bits.length - bits.length % w + i]?

theorem take_eq_known_iff (bits : List Bool) (w g : Nat) :
    (bits.drop (g * w)).take (bits.length % w) = bits.drop (bits.length - bits.length % w) ↔
      GroupAgrees bits w g := by
  have hr : bits.length % w ≤ bits.length := Nat.mod_le _ _
  constructor
  · intro h i hi
    have hi' := congrArg (·[i]?) h
    simpa [List.getElem?_take, hi] using hi'
  · intro h
    apply List.ext_getElem?
    intro i
    rw [List.getElem?_take, List.getElem?_drop, List.getElem?_drop]
    split
    case isTrue hi => exact h i hi
    case isFalse hi => exact (List.getElem?_eq_none (by omega)).symm

/-- The place after the known bits of a complete group is one of the bits. -/
theorem next_lt_length {bits : List Bool} {w g : Nat} (hw : 0 < w) (hg : g < bits.length / w) :
    g * w + bits.length % w < bits.length := by
  have hr : bits.length % w < w := Nat.mod_lt _ hw
  have hle : (g + 1) * w ≤ bits.length / w * w := Nat.mul_le_mul_right w hg
  have hdiv : bits.length / w * w ≤ bits.length := Nat.div_mul_le_self _ _
  rw [Nat.succ_mul] at hle
  omega

theorem mem_continuations_iff {bits : List Bool} {w : Nat} (hw : 0 < w) (b : Bool) :
    b ∈ continuations bits w ↔
      ∃ g < bits.length / w, GroupAgrees bits w g ∧ bits[g * w + bits.length % w]? = some b := by
  simp only [continuations, List.mem_filterMap, List.mem_range]
  refine exists_congr fun g => and_congr_right fun hg => ?_
  have hlt := next_lt_length hw hg
  simp [take_eq_known_iff, List.getElem?_eq_getElem hlt]

/-- One width's verdict is the one value seen (R136). -/
theorem inferAt_eq_some_iff (bits : List Bool) (w : Nat) (b : Bool) :
    inferAt bits w = some b ↔ b ∈ continuations bits w ∧ (!b) ∉ continuations bits w := by
  simp only [inferAt, List.count_pos_iff, List.count_eq_zero]
  cases b with
  | false => by_cases htrue : true ∈ continuations bits w <;> simp [htrue]
  | true => by_cases htrue : true ∈ continuations bits w <;> simp [htrue]

/-- A width decides for the one value that follows its agreeing groups (R136). -/
theorem inferAt_eq_some_iff_groups {bits : List Bool} {w : Nat} (hw : 0 < w) (b : Bool) :
    inferAt bits w = some b ↔
      (∃ g < bits.length / w, GroupAgrees bits w g)
        ∧ ∀ g < bits.length / w, GroupAgrees bits w g → bits[g * w + bits.length % w]? = some b := by
  rw [inferAt_eq_some_iff, mem_continuations_iff hw, mem_continuations_iff hw]
  constructor
  · rintro ⟨⟨g, hg, hagrees, -⟩, hother⟩
    refine ⟨⟨g, hg, hagrees⟩, fun g' hg' hagrees' => ?_⟩
    have hnext := List.getElem?_eq_getElem (next_lt_length hw hg')
    by_contra hne
    refine hother ⟨g', hg', hagrees', ?_⟩
    rw [hnext] at hne ⊢
    simpa [Bool.eq_not] using hne
  · rintro ⟨⟨g, hg, hagrees⟩, hall⟩
    refine ⟨⟨g, hg, hagrees, hall g hg hagrees⟩, ?_⟩
    rintro ⟨g', hg', hagrees', hnext⟩
    exact Bool.not_ne_self b (Option.some.inj (hnext.symm.trans (hall g' hg' hagrees')))

/-- Settles O40: a width by its agreeing groups; the order of the widths is that of the list searched. -/
theorem inferenceByUnanimousGroups : Obligations.InferenceByUnanimousGroups := by
  refine ⟨fun bits w b hw => inferAt_eq_some_iff_groups hw b, fun bits => ?order⟩
  case order =>
    simp only [inferReference, List.findSome?]
    cases inferAt bits 4 with
    | some b => rfl
    | none =>
      cases inferAt bits 3 with
      | some b => rfl
      | none =>
        cases inferAt bits 2 with
        | some b => rfl
        | none => cases inferAt bits 1 <;> rfl

/-! ### Nibbles and packed bytes -/

/-- Bit `k` of the value of a bit string is the `k`-th from its end (R12). -/
theorem bitsValue_testBit (l : List Bool) (k : Nat) : (bitsValue l).testBit k = l.reverse.getD k false := by
  rw [← v2aValue_testBit, v2aValue, List.reverse_reverse]

/-- A run of bits within the sequence, read place by place. -/
theorem take_drop_bits (c : Code) {i m : Nat} (h : i + m ≤ c.length) :
    (c.bits.drop i).take m = (List.range m).map fun j => codeBit c (i + j) := by
  apply List.ext_getElem?
  intro j
  rw [List.getElem?_take, List.getElem?_drop, List.getElem?_map]
  split
  case isTrue hj =>
    have hlt : i + j < c.bits.length := Nat.lt_of_lt_of_le (Nat.add_lt_add_left hj i) h
    simp [List.getElem?_range hj, codeBit, List.getElem?_eq_getElem hlt]
  case isFalse hj => simp [hj]

/-- A whole nibble is the value of its four bits. -/
theorem readNibble_eq {c : Code} {i : Nat} (h : 4 * i + 3 < c.length) :
    readNibble c i = BitVec.ofNat 4 (bitsValue
      [codeBit c (4 * i), codeBit c (4 * i + 1), codeBit c (4 * i + 2), codeBit c (4 * i + 3)]) := by
  rw [readNibble, take_drop_bits c h]
  rfl

/-- Settles O42: bit strings are read first bit most significant. -/
theorem nibblesAndBytesReadFirstBitHigh : Obligations.NibblesAndBytesReadFirstBitHigh := by
  refine fun c => ⟨fun i hi => ?nibble, fun j _ => ?byte⟩
  case nibble =>
    have hle (b : Bool) : b.toNat ≤ 1 := Bool.toNat_le b
    have h0 := hle (codeBit c (4 * i))
    have h1 := hle (codeBit c (4 * i + 1))
    have h2 := hle (codeBit c (4 * i + 2))
    have h3 := hle (codeBit c (4 * i + 3))
    rw [readNibble_eq hi, BitVec.toNat_ofNat]
    simp only [bitsValue, List.foldl]
    omega
  case byte =>
    have hm : j % 8 < 8 := Nat.mod_lt _ (by omega)
    rw [packedByte, BitVec.getLsbD_ofNat, decide_eq_true (by omega), Bool.true_and, bitsValue_testBit,
      List.getD_eq_getElem?_getD, List.getElem?_reverse (by simp; omega), List.getElem?_map, List.length_map,
      List.length_range, show 8 - 1 - (7 - j % 8) = j % 8 by omega, List.getElem?_range hm, Option.map_some,
      Option.getD_some, Nat.div_add_mod]

end Sys2Proof.Machine

/-! The protocol decoders (R150 to R158): to which Codes they apply, and the fields they answer. -/

namespace Sys2Proof.Machine

/-- Settles O43: from idle nothing refuses the delivery. -/
theorem decodersDeliver : Obligations.DecodersDeliver := by
  intro s c hidle
  constructor
  · rw [exec, execDecodeV1a, whenIdle_of_idle s _ hidle, deliver]
  · rw [exec, execDecodeV2a, whenIdle_of_idle s _ hidle, deliver]

/-! ### Reading every nibble through a table -/

theorem mapM_nibbles_isSome_iff {α : Type} (f : BitVec 4 → Option α) (c : Code) :
    ((nibbles c).mapM f).isSome = true ↔ ∀ i < c.length / 4, (f (readNibble c i)).isSome = true := by
  rw [mapM_isSome]
  simp [nibbles, nibbleCount]

/-- A table that knows every element of a list reads it as the list of its entries. -/
theorem mapM_map_eq_some {α β ι : Type} {f : α → Option β} {g : ι → α} {h : ι → β} {l : List ι}
    (hl : ∀ i ∈ l, f (g i) = some (h i)) : (l.map g).mapM f = some (l.map h) := by
  induction l with
  | nil => rfl
  | cons i l ih =>
    obtain ⟨hi, hl⟩ := List.forall_mem_cons.1 hl
    simp [hi, ih hl]

theorem mapM_nibbles_eq_some {α : Type} {f : BitVec 4 → Option α} {c : Code} {h : Nat → α} {n : Nat}
    (hn : c.length / 4 = n) (hf : ∀ i < n, f (readNibble c i) = some (h i)) :
    (nibbles c).mapM f = some ((List.range n).map h) := by
  rw [nibbles, nibbleCount, hn]
  exact mapM_map_eq_some fun i hi => hf i (List.mem_range.1 hi)

/-! ### DECODE_V1A -/

/-- The symbols are 5, 6 and A (R153). -/
theorem symbolOf_isSome_iff (x : BitVec 4) :
    (symbolOf x).isSome = true ↔ x = 0x5#4 ∨ x = 0x6#4 ∨ x = 0xA#4 := by
  revert x
  decide

theorem v1aApplies_iff (c : Code) : v1aApplies c = true ↔
    c.valid = true ∧ c.finalized = true ∧ c.length = 49 ∧ c.bits[48]? = some false := by
  simp only [v1aApplies, decodable, Bool.and_eq_true, decide_eq_true_eq, Bool.not_eq_true', and_assoc]
  refine and_congr_right fun _ => and_congr_right fun _ => and_congr_right fun hlen => ?_
  exact codeBit_eq_false_iff (by omega)

/-- Settles O44: the precondition, and a symbol for every nibble. -/
theorem v1aApplicability : Obligations.V1aApplicability := by
  intro p c
  have hsome : (decodeV1a p c).isSome = true ↔ v1aApplies c = true ∧ (v1aSymbols c).isSome = true := by
    rw [decodeV1a]
    split <;> simp_all
  rw [hsome, v1aApplies_iff, v1aSymbols, mapM_nibbles_isSome_iff]
  simp only [symbolOf_isSome_iff, and_assoc]
  refine and_congr_right fun _ => and_congr_right fun _ => and_congr_right fun hlen => ?_
  rw [hlen]

theorem symbolBit_eq_none_iff (s : Symbol) : symbolBit s = none ↔ s = .two := by
  cases s <;> simp [symbolBit]

theorem symbolValue_of_symbolBit {s : Symbol} {b : Bool} (h : symbolBit s = some b) : symbolValue s = b.toNat := by
  cases s <;> cases h <;> rfl

/-- A field of four symbols (R154): a symbol 2 makes it invalid, and binary ones are read in the order configured. -/
theorem v1aField_eq (order : BitOrder) (sy : Nat → Symbol) (k : Nat) :
    v1aField order [sy k, sy (k + 1), sy (k + 2), sy (k + 3)] = fieldOfSymbols order sy k := by
  simp only [fieldOfSymbols, ← symbolBit_eq_none_iff]
  split
  case isTrue h =>
    have hnone : [sy k, sy (k + 1), sy (k + 2), sy (k + 3)].mapM symbolBit = none := by
      rw [← Option.not_isSome_iff_eq_none, mapM_isSome]
      intro hall
      have hbit {s : Symbol} (hs : s ∈ [sy k, sy (k + 1), sy (k + 2), sy (k + 3)]) : symbolBit s ≠ none :=
        Option.isSome_iff_ne_none.1 (hall s hs)
      obtain h | h | h | h := h
      all_goals exact hbit (by simp) h
    rw [v1aField, hnone]
    rfl
  case isFalse h =>
    simp only [not_or, ← ne_eq, Option.ne_none_iff_exists'] at h
    obtain ⟨⟨a, ha⟩, ⟨b, hb⟩, ⟨c, hc⟩, ⟨d, hd⟩⟩ := h
    have hbits : [sy k, sy (k + 1), sy (k + 2), sy (k + 3)].mapM symbolBit = some [a, b, c, d] := by
      simp [ha, hb, hc, hd]
    simp only [v1aField, hbits, Option.map_some, symbolValue_of_symbolBit ha, symbolValue_of_symbolBit hb,
      symbolValue_of_symbolBit hc, symbolValue_of_symbolBit hd]
    cases order with
    | msbFirst =>
      refine congrArg (fun v => some (BitVec.ofNat 4 v)) ?_
      simp only [bitsValue, List.foldl]
      omega
    | lsbFirst =>
      refine congrArg (fun v => some (BitVec.ofNat 4 v)) ?_
      simp only [bitsValue, List.reverse_cons, List.reverse_nil, List.nil_append, List.cons_append, List.foldl]
      omega

/-- Settles O45: the twelve symbols in order, cut in three. -/
theorem v1aFieldValues : Obligations.V1aFieldValues := by
  intro p c sy hvalid hfinalized hlen hlast hsymbols
  have happlies := (v1aApplies_iff c).2 ⟨hvalid, hfinalized, hlen, hlast⟩
  have hall : v1aSymbols c = some ((List.range 12).map sy) := mapM_nibbles_eq_some (by omega) hsymbols
  rw [decodeV1a, if_pos happlies, hall, Option.map_some, ← v1aField_eq, ← v1aField_eq]
  rfl

/-! ### DECODE_V2A -/

theorem v2aApplies_iff (c : Code) : v2aApplies c = true ↔
    c.valid = true ∧ c.finalized = true ∧ (c.length / 4 = 32 ∨ c.length / 4 = 36)
      ∧ (c.length % 4 = 1 ∨ c.length % 4 = 3) ∧ c.bits[c.length - 1]? = some false := by
  have hodd : c.length % 4 % 2 = 1 ↔ c.length % 4 = 1 ∨ c.length % 4 = 3 := by omega
  simp only [v2aApplies, decodable, Bool.and_eq_true, Bool.or_eq_true, decide_eq_true_eq, Bool.not_eq_true', and_assoc,
    hodd]
  refine and_congr_right fun _ => and_congr_right fun _ => and_congr_right fun hlen => and_congr_right fun _ => ?_
  exact codeBit_eq_false_iff (by omega)

/-- Settles O46: the precondition, and a data bit for every nibble. -/
theorem v2aApplicability : Obligations.V2aApplicability := by
  intro p c
  have hsome : (decodeV2a p c).isSome = true ↔ v2aApplies c = true ∧ (v2aBits p c).isSome = true := by
    rw [decodeV2a]
    split <;> simp_all
  rw [hsome, v2aApplies_iff, v2aBits, mapM_nibbles_isSome_iff]
  simp only [and_assoc]

/-- Settles O48: 49 bits are 12 nibbles, neither 32 nor 36. -/
theorem atMostOneDecoderApplies : Obligations.AtMostOneDecoderApplies := by
  intro p c hv1a
  obtain ⟨-, -, hlen, -⟩ := (v1aApplicability p c).1 hv1a
  rw [← Option.not_isSome_iff_eq_none, v2aApplicability p c]
  rintro ⟨-, -, hnibbles, -⟩
  omega

/-- The number whose bit `k` is `x (lo + k)`, for `len` bits. -/
def bitSum (x : Nat → Bool) (lo len : Nat) : Nat := ∑ k ∈ Finset.range len, (x (lo + k)).toNat * 2 ^ k

theorem bitSum_lt (x : Nat → Bool) (lo len : Nat) : bitSum x lo len < 2 ^ len := by
  induction len with
  | zero => simp [bitSum]
  | succ len ih =>
    have hb := Bool.toNat_le (x (lo + len))
    have hstep : bitSum x lo (len + 1) = bitSum x lo len + (x (lo + len)).toNat * 2 ^ len := Finset.sum_range_succ _ _
    have hle : (x (lo + len)).toNat * 2 ^ len ≤ 1 * 2 ^ len := Nat.mul_le_mul_right _ hb
    rw [hstep, Nat.pow_succ]
    omega

/-- The low bits and the bits above them. -/
theorem bitSum_add (x : Nat → Bool) (lo m len : Nat) :
    bitSum x lo (m + len) = bitSum x lo m + 2 ^ m * bitSum x (lo + m) len := by
  rw [bitSum, Finset.sum_range_add, bitSum, bitSum, Finset.mul_sum]
  congr 1
  refine Finset.sum_congr rfl fun k _ => ?_
  rw [Nat.add_assoc, pow_add]
  ring

theorem v2aValue_eq_bitSum (x : Nat → Bool) (lo n : Nat) :
    v2aValue ((List.range n).map fun k => x (lo + k)) = bitSum x lo n := by
  induction n generalizing lo with
  | zero => rfl
  | succ n ih =>
    rw [List.range_succ_eq_map, List.map_cons, List.map_map, v2aValue_cons, Nat.add_comm n 1, bitSum_add, ← ih]
    simp [bitSum, Function.comp_def, Nat.add_assoc, Nat.add_comm 1]

/-- A field of the value (R156): `len` bits from bit `lo` on. -/
theorem v2aValue_shiftRight_mod (x : Nat → Bool) {lo len n : Nat} (h : lo + len ≤ n) :
    (v2aValue ((List.range n).map x) >>> lo) % 2 ^ len = bitSum x lo len := by
  obtain ⟨rest, rfl⟩ := Nat.exists_eq_add_of_le h
  have hvalue : v2aValue ((List.range (lo + len + rest)).map x) = bitSum x 0 (lo + len + rest) := by
    simpa using v2aValue_eq_bitSum x 0 (lo + len + rest)
  rw [hvalue, Nat.add_assoc lo, bitSum_add, bitSum_add, Nat.shiftRight_eq_div_pow,
    Nat.add_mul_div_left _ _ (by positivity), Nat.div_eq_of_lt (bitSum_lt _ _ _), Nat.zero_add, Nat.zero_add,
    Nat.add_mul_mod_self_left, Nat.mod_eq_of_lt (bitSum_lt _ _ _)]

theorem ofNat_v2aValue_shiftRight (x : Nat → Bool) {lo len n : Nat} (h : lo + len ≤ n) :
    BitVec.ofNat len (v2aValue ((List.range n).map x) >>> lo) = BitVec.ofNat len (bitSum x lo len) := by
  apply BitVec.eq_of_toNat_eq
  rw [BitVec.toNat_ofNat, BitVec.toNat_ofNat, v2aValue_shiftRight_mod x h, Nat.mod_eq_of_lt (bitSum_lt _ _ _)]

theorem v2aValue_range_testBit (x : Nat → Bool) {k n : Nat} (h : k < n) :
    (v2aValue ((List.range n).map x)).testBit k = x k := by
  rw [v2aValue_testBit, List.getD_eq_getElem?_getD, List.getElem?_map, List.getElem?_range h]
  rfl

/-- The dim level of a value, by itself and scaled to a percentage. -/
theorem v2aDims (x : Nat → Bool) {n : Nat} (h : n = 36) :
    BitVec.ofNat 4 (v2aValue ((List.range n).map x) >>> 32) = BitVec.ofNat 4 (bitSum x 32 4)
      ∧ (v2aValue ((List.range n).map x) >>> 32) % 16 = bitSum x 32 4 :=
  ⟨ofNat_v2aValue_shiftRight x (by omega), v2aValue_shiftRight_mod (len := 4) x (by omega)⟩

/-- Settles O47: every field is a run of the value's bits. -/
theorem v2aFieldValues : Obligations.V2aFieldValues := by
  intro p c n x hvalid hfinalized hn hlen hodd hlast hbits sum
  have happlies := (v2aApplies_iff c).2 ⟨hvalid, hfinalized, hn ▸ hlen, hodd, hlast⟩
  have hall : v2aBits p c = some ((List.range n).map x) := mapM_nibbles_eq_some hn.symm hbits
  have hgroup : BitVec.ofNat 26 (v2aValue ((List.range n).map x)) = BitVec.ofNat 26 (bitSum x 0 26) :=
    ofNat_v2aValue_shiftRight (lo := 0) x (by omega)
  have hdevice : BitVec.ofNat 4 (v2aValue ((List.range n).map x) >>> 28) = BitVec.ofNat 4 (bitSum x 28 4) :=
    ofNat_v2aValue_shiftRight x (by omega)
  have hgroupFlag := v2aValue_range_testBit x (show 26 < n by omega)
  have hstateBit := v2aValue_range_testBit x (show 27 < n by omega)
  rw [decodeV2a, if_pos happlies, hall, Option.map_some]
  simp only [v2aFields, hgroup, hdevice, hgroupFlag, hstateBit, List.length_map, List.length_range, decide_eq_true_eq]
  by_cases hdims : n = 36
  · obtain ⟨hlevel, hpercent⟩ := v2aDims x hdims
    simp only [if_pos hdims, hlevel, hpercent]
    rfl
  · simp only [if_neg hdims]
    rfl

end Sys2Proof.Machine

/-! The transmitter segment by segment: the schedule (R183), the sequencer's step (R184) and the timed hold (R185). -/

namespace Sys2Proof.Machine

/-! ### The schedule -/

/-- The preamble pulses are the Code's own, else the configured ones, else none (R183). -/
theorem preamblePulses_eq (c : Code) (cfg : TxConfig) : preamblePulses c cfg =
    if c.preambleTime.at0 ≠ 0#32 ∧ c.preambleTime.at1 ≠ 0#32 then [c.preambleTime.at0, c.preambleTime.at1]
    else if cfg.preambleTime.at0 ≠ 0#32 ∧ cfg.preambleTime.at1 ≠ 0#32 then
      [cfg.preambleTime.at0, cfg.preambleTime.at1]
    else [] := by
  have hpresent (pre : Two Time) : preamblePresent pre = true ↔ pre.at0 ≠ 0#32 ∧ pre.at1 ≠ 0#32 := by
    simp [preamblePresent]
  simp only [preamblePulses, sentPreamble, ← hpresent]
  by_cases hown : preamblePresent c.preambleTime = true
  · simp [hown]
  · simp [hown]

/-- Within the repetitions the schedule is theirs, one place later for the pre-pause. -/
theorem schedule_getElem?_repetition (c : Code) (cfg : TxConfig) {i j : Nat} (hi : i < cfg.repeatCount.toNat)
    (hj : j < (repetition c cfg i).length) :
    (schedule c cfg)[i * (pulses c cfg).length + (i - 1) + j + 1]? = (repetition c cfg i)[j]? := by
  have hin := repetitions_getElem? c cfg cfg.repeatCount.toNat i j hi hj
  rw [List.getElem?_eq_getElem hj] at hin ⊢
  have hlt := (List.getElem?_eq_some_iff.1 hin).1
  rw [schedule, List.getElem?_cons_succ, List.getElem?_append_left hlt, hin]

/-- A pulse of repetition `i` in the schedule. -/
theorem schedule_getElem?_pulse (c : Code) (cfg : TxConfig) {i k : Nat} (hi : i < cfg.repeatCount.toNat)
    (hk : k < (pulses c cfg).length) : (schedule c cfg)[1 + i * ((pulses c cfg).length + 1) + k]? =
      ((pulses c cfg)[k]?).map fun d => { level := decide (k % 2 = 0), duration := d } := by
  have hpulse : (toggled true (pulses c cfg))[k]? =
      ((pulses c cfg)[k]?).map fun d => { level := decide (k % 2 = 0), duration := d } := by
    rw [toggled_getElem?]
    by_cases heven : k % 2 = 0 <;> simp [heven]
  rw [← hpulse]
  rcases Nat.eq_zero_or_pos i with rfl | hpos
  · have hrep : repetition c cfg 0 = toggled true (pulses c cfg) := rfl
    rw [← hrep, ← schedule_getElem?_repetition c cfg hi (by rwa [hrep, toggled_length])]
    congr 1
    omega
  · have hrep : repetition c cfg i =
        { level := false, duration := cfg.interPause } :: toggled true (pulses c cfg) := by
      rw [repetition, if_neg hpos.ne']
      rfl
    have hlater : (repetition c cfg i)[k + 1]? = (toggled true (pulses c cfg))[k]? := by
      rw [hrep, List.getElem?_cons_succ]
    rw [← hlater, ← schedule_getElem?_repetition c cfg hi (by rw [hrep, List.length_cons, toggled_length]; omega),
      Nat.mul_succ]
    congr 1
    omega

/-- The inter-pause before repetition `i` in the schedule. -/
theorem schedule_getElem?_interPause (c : Code) (cfg : TxConfig) {i : Nat} (hi : i < cfg.repeatCount.toNat)
    (hpos : 0 < i) : (schedule c cfg)[i * ((pulses c cfg).length + 1)]? =
      some { level := false, duration := cfg.interPause } := by
  have hrep : (repetition c cfg i)[0]? = some { level := false, duration := cfg.interPause } := by
    rw [repetition, if_neg hpos.ne']
    rfl
  rw [← hrep, ← schedule_getElem?_repetition c cfg hi (List.getElem?_eq_some_iff.1 hrep).1, Nat.mul_succ]
  congr 1
  omega

theorem schedule_length (c : Code) (cfg : TxConfig) : (schedule c cfg).length =
    2 + cfg.repeatCount.toNat * (pulses c cfg).length + (cfg.repeatCount.toNat - 1) := by
  simp only [schedule, List.length_cons, List.length_append, repetitions_length, List.length_nil]
  omega

/-- Settles O50: the pulses are those of the model, and each place of the schedule has its lemma. -/
theorem scheduleSegments : Obligations.ScheduleSegments := by
  intro c cfg both pre ps m n segs
  have hpre : pre = preamblePulses c cfg := (preamblePulses_eq c cfg).symm
  have hps : ps = pulses c cfg := congrArg (· ++ c.bits.map cfg.bitTime.get) hpre
  have hm : m = (pulses c cfg).length := congrArg List.length hps
  have hlen : (pulses c cfg).length = pre.length + c.length := by
    rw [hpre, pulses, List.length_append, List.length_map, Code.length]
  rw [hm, hps]
  refine ⟨rfl, fun i hi k hk => schedule_getElem?_pulse c cfg hi hk,
    fun i hi hpos => schedule_getElem?_interPause c cfg hi hpos, schedule_getLast? c cfg, ?_⟩
  rw [← hlen]
  exact schedule_length c cfg

/-! ### The sequencer -/

/-- Settles O52. -/
theorem sequencerStep : Obligations.SequencerStep := by
  intro s seg hwf hbusy hinputs hseg
  refine ⟨fun hstart => step_of_segment hwf hbusy hinputs hstart hseg, fun hstart => ?_⟩
  rw [step_of_takeInput_none hwf hbusy (by rw [hinputs, takeInput]), txIdleStep, if_neg hstart]

/-- A clock reading that comes first is taken, and ends the present segment or holds it on (R185). -/
theorem step_of_clock {s : State} {now : Time} {rest : List Input} {seg : Segment} (hwf : s.params.wellFormed = true)
    (hbusy : s.txBusy = true) (hseg : s.txSchedule[s.txPhase]? = some seg) (hinputs : s.inputs = .clock now :: rest) :
    step s = .next (if holdEnded (s.txStart.getD now) now seg.duration then endSegment seg { s with inputs := rest }
      else holdSegment seg (s.txStart.getD now) { s with inputs := rest }) := by
  have htake : takeInput s.txBusy s.inputs = some (.clock now, rest) := by
    rw [hinputs]
    exact takeInput_first rest (.inr rfl)
  rw [step_of_takeInput hwf htake, runInput, if_pos hbusy]
  exact withSegment_of_present _ hseg

theorem step_of_clock_held {s : State} {start now : Time} {rest : List Input} {seg : Segment}
    (hwf : s.params.wellFormed = true) (hbusy : s.txBusy = true) (hseg : s.txSchedule[s.txPhase]? = some seg)
    (hinputs : s.inputs = .clock now :: rest) (hstart : s.txStart.getD now = start)
    (hnow : (now.toNat + 2 ^ 32 - start.toNat) % 2 ^ 32 < seg.duration.toNat) :
    step s = .next { s with inputs := rest, txPin := seg.level, txStart := some start } := by
  rw [step_of_clock hwf hbusy hseg hinputs, hstart, if_neg (by rw [holdEnded_iff]; exact Nat.not_le.2 hnow)]
  rfl

/-- Through readings that all come before its end a hold goes on, against the `start` of the first (R185). -/
theorem runSteps_of_held {s : State} {start now : Time} {readings : List Time} {rest : List Input} {seg : Segment}
    (hwf : s.params.wellFormed = true) (hbusy : s.txBusy = true) (hseg : s.txSchedule[s.txPhase]? = some seg)
    (hinputs : s.inputs = .clock now :: (readings.map Input.clock ++ rest)) (hstart : s.txStart.getD now = start)
    (hall : ∀ t ∈ now :: readings, (t.toNat + 2 ^ 32 - start.toNat) % 2 ^ 32 < seg.duration.toNat) :
    runSteps (readings.length + 1) s =
      .next { s with inputs := rest, txPin := seg.level, txStart := some start } := by
  induction readings generalizing s now with
  | nil =>
    have hstep := step_of_clock_held hwf hbusy hseg hinputs hstart (hall now (by simp))
    rw [List.length_nil, runSteps, hstep]
    rfl
  | cons r readings ih =>
    obtain ⟨hnow, hall⟩ := List.forall_mem_cons.1 hall
    rw [runSteps, step_of_clock_held hwf hbusy hseg hinputs hstart hnow, andThen_next]
    exact ih hwf hbusy hseg rfl rfl hall

theorem step_of_clock_ended {s : State} {now : Time} {rest : List Input} {seg : Segment}
    (hwf : s.params.wellFormed = true) (hbusy : s.txBusy = true) (hseg : s.txSchedule[s.txPhase]? = some seg)
    (hinputs : s.inputs = .clock now :: rest)
    (hnow : seg.duration.toNat ≤ (now.toNat + 2 ^ 32 - (s.txStart.getD now).toNat) % 2 ^ 32) :
    step s = .next { s with
      inputs := rest
      txPin := seg.level
      txPhase := s.txPhase + 1
      txBusy := if s.txPhase + 1 = s.txSchedule.length then false else true
      txStart := none } := by
  rw [step_of_clock hwf hbusy hseg hinputs, if_pos ((holdEnded_iff _ _ _).2 hnow)]
  by_cases hlast : s.txPhase + 1 = s.txSchedule.length <;> simp [endSegment, hlast]

/-- Settles O54: the two outcomes of a reading, and the run of readings that do not end the hold. -/
theorem holdLastsItsDuration : Obligations.HoldLastsItsDuration := by
  intro s rest seg hwf hbusy hseg since
  refine ⟨fun now hinputs => ⟨step_of_clock_ended hwf hbusy hseg hinputs,
    step_of_clock_held hwf hbusy hseg hinputs rfl⟩, fun start readings hstart hpos hinputs hall => ?_⟩
  have hfirst : (start.toNat + 2 ^ 32 - start.toNat) % 2 ^ 32 < seg.duration.toNat := by
    rwa [Nat.add_sub_cancel_left, Nat.mod_self]
  exact runSteps_of_held hwf hbusy hseg hinputs (by rw [hstart]; rfl) (List.forall_mem_cons.2 ⟨hfirst, hall⟩)

end Sys2Proof.Machine

/-! The waveform (R186): the maximal runs of equal level. -/

namespace Sys2Proof.Machine

/-- A segment in front of a schedule either lengthens the first piece of its waveform or is a piece of its own. -/
theorem waveform_induction {P : List Segment → List Piece → Prop} (nil : P [] [])
    (merge : ∀ seg rest w ws, w.level = seg.level → P rest (w :: ws) →
      P (seg :: rest) ({ w with duration := seg.duration.toNat + w.duration } :: ws))
    (apart : ∀ seg rest ws, (∀ w ∈ ws.head?, seg.level ≠ w.level) → P rest ws →
      P (seg :: rest) (segmentPiece seg :: ws)) (segs : List Segment) : P segs (waveform segs) := by
  induction segs with
  | nil => exact nil
  | cons seg rest ih =>
    rw [waveform]
    split
    case h_1 hrest =>
      rw [hrest] at ih
      exact apart seg rest [] (by simp) ih
    case h_2 w ws hrest =>
      rw [hrest] at ih
      split
      case isTrue hlevel => exact merge seg rest w ws hlevel ih
      case isFalse hlevel => exact apart seg rest (w :: ws) (by simpa using Ne.symm hlevel) ih

/-- The pieces are runs of the schedule's segments, in order. -/
theorem waveform_runs (segs : List Segment) :
    ∃ runs : List (List Segment), runs.flatten = segs ∧ List.Forall₂ RunOf runs (waveform segs) := by
  refine waveform_induction (P := fun segs ws => ∃ runs : List (List Segment), runs.flatten = segs
    ∧ List.Forall₂ RunOf runs ws) ⟨[], rfl, .nil⟩ ?merge ?apart segs
  case merge =>
    rintro seg rest w ws hlevel ⟨runs, hflatten, hruns⟩
    obtain _ | ⟨⟨-, hlevels, hduration⟩, hruns⟩ := hruns
    refine ⟨(seg :: _) :: _, by rw [← hflatten]; rfl, .cons ⟨List.cons_ne_nil _ _, ?_, ?_⟩ hruns⟩
    · exact List.forall_mem_cons.2 ⟨hlevel.symm, hlevels⟩
    · rw [List.map_cons, totalTime_cons, hduration]
  case apart =>
    rintro seg rest ws - ⟨runs, hflatten, hruns⟩
    refine ⟨[seg] :: runs, by rw [← hflatten]; rfl, .cons ⟨List.cons_ne_nil _ _, ?_, ?_⟩ hruns⟩
    · simp [segmentPiece]
    · simp [segmentPiece, totalTime]

/-- The runs are maximal: neighbouring pieces differ in level. -/
theorem waveform_isChain (segs : List Segment) : (waveform segs).IsChain (fun a b => a.level ≠ b.level) := by
  refine waveform_induction (P := fun _ ws => ws.IsChain fun a b => a.level ≠ b.level) .nil ?merge ?apart segs
  case merge =>
    intro seg rest w ws _ hchain
    rw [List.isChain_cons] at hchain ⊢
    exact hchain
  case apart => exact fun seg rest ws hhead hchain => List.isChain_cons.2 ⟨hhead, hchain⟩

/-- Merging keeps the level at every instant. -/
theorem levelAt_waveform (segs : List Segment) (t : Nat) :
    levelAt (waveform segs) t = levelAt (segs.map segmentPiece) t := by
  refine waveform_induction (P := fun segs ws => ∀ t, levelAt ws t = levelAt (segs.map segmentPiece) t)
    (fun _ => rfl) ?merge ?apart segs t
  case merge =>
    intro seg rest w ws hlevel ih t
    rw [levelAt_lengthen, ih, hlevel]
    rfl
  case apart =>
    intro seg rest ws _ ih t
    rw [List.map_cons, levelAt_cons, levelAt_cons, ih]

/-- Merging keeps the total time. -/
theorem sum_duration_waveform (segs : List Segment) :
    ((waveform segs).map fun w => w.duration).sum = totalTime (segs.map fun seg => seg.duration) := by
  refine waveform_induction (P := fun segs ws => (ws.map fun w => w.duration).sum =
    totalTime (segs.map fun seg => seg.duration)) rfl ?merge ?apart segs
  case merge =>
    intro seg rest w ws _ ih
    rw [List.map_cons, List.sum_cons] at ih
    rw [List.map_cons, List.map_cons, List.sum_cons, totalTime_cons, ← ih, Nat.add_assoc]
  case apart =>
    intro seg rest ws _ ih
    rw [List.map_cons, List.map_cons, List.sum_cons, totalTime_cons, ih]
    rfl

theorem head?_level_waveform (segs : List Segment) :
    (waveform segs).head?.map (fun w => w.level) = segs.head?.map (fun seg => seg.level) :=
  waveform_induction (P := fun segs ws => ws.head?.map (fun w => w.level) = segs.head?.map fun seg => seg.level) rfl
    (fun _ _ _ _ hlevel _ => congrArg some hlevel) (fun _ _ _ _ _ => rfl) segs

/-- Settles O55: each property holds of the waveform one segment at a time. -/
theorem waveformMergesEqualLevels : Obligations.WaveformMergesEqualLevels := fun segs =>
  ⟨waveform_runs segs, waveform_isChain segs, levelAt_waveform segs, sum_duration_waveform segs,
    head?_level_waveform segs⟩

end Sys2Proof.Machine
